-- ==== Sys2Proof/Word.lean ====
section
/-! DEFINITION. The word types of the protocol block (spec/00_scope.md R9). Nothing in the block is signed. -/

namespace Sys2Proof

/-- An unsigned byte, 8 bits (R9). -/
abbrev Byte := BitVec 8

/-- An unsigned word, 32 bits (R9): checksums and the addresses a command carries. -/
abbrev Word := BitVec 32

end Sys2Proof
end

