-- ==== Sys2Proof/Machine/Bytes.lean ====
section
/-! DEFINITION. Byte order: little-endian assembly of words from bytes and back (spec/00_scope.md R10). -/

namespace Sys2Proof.Machine

/-- `le32(b0, b1, b2, b3) = b0 + b1·2^8 + b2·2^16 + b3·2^24` (R10). -/
def le32 (b0 b1 b2 b3 : Byte) : Word :=
  BitVec.ofNat 32 (b0.toNat + b1.toNat * 2 ^ 8 + b2.toNat * 2 ^ 16 + b3.toNat * 2 ^ 24)

/-- `le32` of the first four bytes of a sequence; a missing byte counts as 0, and no caller leaves one out. -/
def le32Of (bs : List Byte) : Word := le32 (bs.getD 0 0) (bs.getD 1 0) (bs.getD 2 0) (bs.getD 3 0)

/-- Byte number `k` of a word: bits 8k+7 .. 8k. -/
def byteOf (k : Nat) (w : Word) : Byte := BitVec.ofNat 8 (w.toNat / 2 ^ (8 * k))

/-- `bytes_le32(w) = [w[7:0], w[15:8], w[23:16], w[31:24]]` (R10). -/
def bytesLe32 (w : Word) : List Byte := [byteOf 0 w, byteOf 1 w, byteOf 2 w, byteOf 3 w]

/-- The two bytes of a 16-bit value, low byte first (spec/20_memory.md R52 b). -/
def bytesLe16 (v : BitVec 16) : List Byte := [BitVec.ofNat 8 v.toNat, BitVec.ofNat 8 (v.toNat / 2 ^ 8)]

end Sys2Proof.Machine
end

