-- ==== Sys2Proof/Syntax.lean ====
section
/-! DEFINITION. The block's vocabulary: commands, the parse record, error codes, regions, sectors, protection. -/

namespace Sys2Proof

/-- One constructor per row of spec/opcode_table.json. The argument is the payload of the request frame, the bytes
between the command byte and the checksum (spec/30_encoding.md R65). Each arm judges its own payload length (R87), so a
payload of any length is a form of the instruction. -/
inductive Instr where
  /-- GET_VERSION, 0x51. -/
  | getVersion (payload : List Byte)
  /-- GET_HELP, 0x52. -/
  | getHelp (payload : List Byte)
  /-- GET_CHIP_ID, 0x53. -/
  | getChipId (payload : List Byte)
  /-- GET_PROTECTION_STATUS, 0x54. -/
  | getProtectionStatus (payload : List Byte)
  /-- JUMP_TO_ADDRESS, 0x55. -/
  | jumpToAddress (payload : List Byte)
  /-- ERASE_FLASH, 0x56. -/
  | eraseFlash (payload : List Byte)
  /-- WRITE_MEMORY, 0x57. -/
  | writeMemory (payload : List Byte)
  /-- ENABLE_RW_PROTECT, 0x58. -/
  | enableRwProtect (payload : List Byte)
  /-- READ_MEMORY, 0x59. -/
  | readMemory (payload : List Byte)
  /-- READ_SECTOR_PROTECTION_STATUS, 0x5A. -/
  | readSectorProtectionStatus (payload : List Byte)
  /-- READ_OTP, 0x5B. -/
  | readOtp (payload : List Byte)
  /-- DISABLE_RW_PROTECT, 0x5C. -/
  | disableRwProtect (payload : List Byte)
  deriving DecidableEq, Repr

/-- The payload of a command. -/
def Instr.payload : Instr → List Byte
  | .getVersion p => p
  | .getHelp p => p
  | .getChipId p => p
  | .getProtectionStatus p => p
  | .jumpToAddress p => p
  | .eraseFlash p => p
  | .writeMemory p => p
  | .enableRwProtect p => p
  | .readMemory p => p
  | .readSectorProtectionStatus p => p
  | .readOtp p => p
  | .disableRwProtect p => p

/-- The parse record (spec/10_state.md R30), a CommandPacket once `checksumOk` holds (spec/90_conflicts.md C7). -/
structure Packet where
  /-- Cell 0 of the frame. -/
  command : Byte
  /-- Cells 1 .. len − 5. -/
  payload : List Byte
  /-- length − 1 (command) − 4 (checksum). -/
  payloadLen : Nat
  /-- The trailing 4 bytes, little-endian. -/
  checksum : Word
  /-- The block's only status flag. -/
  checksumOk : Bool
  deriving DecidableEq, Repr

/-- MemoryRegion (spec/20_memory.md R41). -/
inductive MemoryRegion where
  | primaryRam
  | secondaryRam
  | nonVolatile
  | backupRam
  | unknown
  deriving DecidableEq, Repr

/-- An inclusive address range `[base, last]` (spec/20_memory.md R42). -/
structure Range where
  base : Nat
  last : Nat
  deriving DecidableEq, Repr

/-- The ranges of the four named regions (spec/20_memory.md R42). -/
structure RegionTable where
  primaryRam : Range
  secondaryRam : Range
  nonVolatile : Range
  backupRam : Range
  deriving DecidableEq, Repr

/-- A FlashSector (spec/20_memory.md R44). -/
structure FlashSector where
  number : Nat
  base : Nat
  size : Nat
  deriving DecidableEq, Repr

/-- The kind of protection every set bit of the mask gives (spec/10_state.md R21). -/
inductive ProtMode where
  | none
  | write
  | readWrite
  deriving DecidableEq, Repr

/-- ProtectionStatus (spec/10_state.md R21): bit k of `mask` is sector k. -/
structure ProtectionStatus where
  mask : Byte
  mode : ProtMode
  deriving DecidableEq, Repr

/-- How ENABLE_RW_PROTECT combines masks (parameter PROT_MERGE, spec/00_scope.md R5). -/
inductive ProtMerge where
  | or
  | replace
  deriving DecidableEq, Repr

/-- The only reason a fatal fault is raised with (spec/60_exceptions.md R184). -/
inductive FatalReason where
  | relockFailed
  deriving DecidableEq, Repr

/-- The error codes of spec/60_exceptions.md R180. -/
inductive ErrorCode where
  | shortFrame
  | oversizeFrame
  | badChecksum
  | unknownCommand
  | badPayloadLength
  | badAddress
  | sectorRange
  | countRange
  /-- The spec's `Protected`. -/
  | protectedSector
  | badMode
  | badMask
  | unlockFailed
  | eraseFailed
  | programFailed
  | applyFailed
  | relockFailed
  deriving DecidableEq, Repr

/-- The four kinds of the error taxonomy (spec/60_exceptions.md R180). -/
inductive ErrorKind where
  | framing
  | validation
  | operationFailure
  | fatal
  deriving DecidableEq, Repr

end Sys2Proof
end

