-- ==== Sys2Proof/Config.lean ====
section
/-! DEFINITION. The implementation parameters of spec/00_scope.md R5 and the free values of the model. A value here is
the one R5 fixes; an OPEN parameter or a draw is an opaque constant, so no proof can see what it is. -/

namespace Sys2Proof.Config

/-- PAYLOAD_CAP, payload bytes of a CommandPacket (R5, D5). -/
abbrev payloadCap : Nat := 197

/-- RX_CAP = 1 + PAYLOAD_CAP + 4, cells of the receive buffer (R5, R69). -/
abbrev rxCap : Nat := 1 + payloadCap + 4

/-- MIN_FRAME, smallest frame in bytes, length byte included (R5). -/
def minFrame : Nat := 6

/-- ACK_BYTE (R5). -/
def ackByte : Byte := 0xA5

/-- NACK_BYTE (R5). -/
def nackByte : Byte := 0x7F

/-- MASS_ERASE_SENTINEL (R5). -/
def massEraseSentinel : Byte := 0xFF

/-- MAX_ERASE_COUNT (R5). -/
def maxEraseCount : Nat := 8

/-- NUM_SECTORS (R5, D11). -/
def numSectors : Nat := 8

/-- SECTOR_TABLE (spec/20_memory.md R45, D11). -/
def sectorTable : List FlashSector :=
  [⟨0, 0x08000000, 0x4000⟩, ⟨1, 0x08004000, 0x4000⟩, ⟨2, 0x08008000, 0x4000⟩, ⟨3, 0x0800C000, 0x4000⟩,
   ⟨4, 0x08010000, 0x10000⟩, ⟨5, 0x08020000, 0x20000⟩, ⟨6, 0x08040000, 0x20000⟩, ⟨7, 0x08060000, 0x20000⟩]

/-- REGION_TABLE (spec/20_memory.md R42, D10). -/
def regionTable : RegionTable where
  nonVolatile := ⟨0x08000000, 0x0807FFFF⟩
  primaryRam := ⟨0x20000000, 0x2001BFFF⟩
  secondaryRam := ⟨0x2001C000, 0x2001FFFF⟩
  backupRam := ⟨0x40024000, 0x40024FFF⟩

/-- CRC_POLY (R5, D3). -/
def crcPoly : Word := 0x04C11DB7

/-- CRC_INIT (R5, D3). -/
def crcInit : Word := 0xFFFFFFFF

/-- CRC_XOROUT (R5, D3). -/
def crcXorOut : Word := 0x00000000

/-- CMD_GET_VERSION (spec/30_encoding.md R73). -/
def cmdGetVersion : Byte := 0x51
/-- CMD_GET_HELP (R73, D8). -/
def cmdGetHelp : Byte := 0x52
/-- CMD_GET_CHIP_ID (R73, D8). -/
def cmdGetChipId : Byte := 0x53
/-- CMD_GET_PROTECTION_STATUS (R73, D8). -/
def cmdGetProtectionStatus : Byte := 0x54
/-- CMD_JUMP_TO_ADDRESS (R73, D8). -/
def cmdJumpToAddress : Byte := 0x55
/-- CMD_ERASE_FLASH (R73, D8). -/
def cmdEraseFlash : Byte := 0x56
/-- CMD_WRITE_MEMORY (R73, D8). -/
def cmdWriteMemory : Byte := 0x57
/-- CMD_ENABLE_RW_PROTECT (R73, D8). -/
def cmdEnableRwProtect : Byte := 0x58
/-- CMD_READ_MEMORY (R73, D8). -/
def cmdReadMemory : Byte := 0x59
/-- CMD_READ_SECTOR_PROTECTION_STATUS (R73, D8). -/
def cmdReadSectorProtectionStatus : Byte := 0x5A
/-- CMD_READ_OTP (R73, D8). -/
def cmdReadOtp : Byte := 0x5B
/-- CMD_DISABLE_RW_PROTECT (R73, D8). -/
def cmdDisableRwProtect : Byte := 0x5C

/-- ERASED_VALUE (R5, D42). -/
def erasedValue : Byte := 0xFF

/-- PROT_MERGE (R5, D17). -/
def protMerge : ProtMerge := .or

/-- WRITE_LOW_BOUND, the base of NonVolatile (R5, D41). -/
def writeLowBound : Nat := 0x08000000

/-- ERASE_LOW_SECTOR (R5, D41). -/
def eraseLowSector : Nat := 0

/-- BL_VERSION, OPEN (R5, D21; notes/assumptions/10.md). -/
opaque blVersion : Byte

/-- CHIP_ID, OPEN (R5, D23; notes/assumptions/10.md). -/
opaque chipId : BitVec 16

/-- RDP_BYTE, OPEN (R5, D24; notes/assumptions/10.md). -/
opaque rdpByte : Byte

/-- OTP_BYTES, OPEN (R5, D20; notes/assumptions/10.md). -/
opaque otpBytes : List Byte

/-- The byte of draw number n (R12; notes/assumptions/4.md). -/
opaque drawByte : Nat → Byte

/-- The word of draw number n (R12; notes/assumptions/4.md). -/
opaque drawWord : Nat → Word

/-- The protection status of draw number n: none, or a mask of 1 + m and whether reads are blocked too. Every value of
this type is a status that keeps the invariant of spec/10_state.md R21, and every such status is one
(notes/assumptions/4.md). -/
opaque drawProt : Nat → Option (Fin 255 × Bool)

/-- What the transport still delivers after the reset that takes draw number n (spec/70_reset_and_hazards.md R211 does
not say; notes/assumptions/14.md). -/
opaque heldAfterReset : Nat → List Byte → List Byte

end Sys2Proof.Config
end

