-- ==== Sys2Proof/Machine/Integrity.lean ====
section
/-! DEFINITION. The Integrity Engine: CRC-32 of a byte sequence and its comparison (spec/40_integrity.md). -/

namespace Sys2Proof.Machine

/-- One shift of the accumulator (R90, the body of `repeat 32 times`). -/
def crcShift (acc : Word) : Word := if acc.msb then (acc <<< 1) ^^^ Config.crcPoly else acc <<< 1

/-- `n` shifts. -/
def crcShifts : Nat → Word → Word
  | 0, acc => acc
  | n + 1, acc => crcShifts n (crcShift acc)

/-- One byte enters bits 7..0 of a 32-bit word, then 32 shifts (R90). -/
def crcFeed (acc : Word) (b : Byte) : Word := crcShifts 32 (acc ^^^ b.setWidth 32)

/-- The accumulator after a computation over `data`: it always starts from CRC_INIT (R90, R92). -/
def crcAccumulate (data : List Byte) : Word := data.foldl crcFeed Config.crcInit

/-- `Crc32(data)` (R90), a function of `data` alone (R92, R93). -/
def crc32 (data : List Byte) : Word := crcAccumulate data ^^^ Config.crcXorOut

/-- `Verify(received, data)` (R91). -/
def verify (received : Word) (data : List Byte) : Bool := crc32 data == received

/-- One byte of the bytewise MSB-first form: it enters bits 31..24, then 8 shifts (R94). -/
def crcFeedByte (acc : Word) (b : Byte) : Word := crcShifts 8 (acc ^^^ (b.setWidth 32 <<< 24))

/-- The catalogue's CRC-32/MPEG-2 over a byte sequence, the equivalent formulation of R94. -/
def crc32Mpeg2 (data : List Byte) : Word := data.foldl crcFeedByte Config.crcInit

end Sys2Proof.Machine
end

