-- ==== Sys2Proof/Machine/Flags.lean ====
section
/-! DEFINITION. The flag computations. The block has one status flag, `checksum_ok` of the parse record
(spec/10_state.md R30); no command writes a flag (spec/44_commands.md). -/

namespace Sys2Proof.Machine

/-- `checksum_ok`: `Crc32([command] ++ payload) == checksum` (spec/10_state.md R30, spec/41_frame.md R100). -/
def checksumFlag (checksum : Word) (command : Byte) (payload : List Byte) : Bool := verify checksum (command :: payload)

end Sys2Proof.Machine
end

