-- ==== Sys2Proof/WellFormed.lean ====
section
/-! DEFINITION. Well-formedness: of an instruction (what a frame can carry), of a payload's layout, of the region and
sector tables. -/

namespace Sys2Proof

/-- A frame can carry the command: its payload fits PAYLOAD_CAP (spec/30_encoding.md R68, spec/41_frame.md R105). -/
abbrev Instr.WellFormed (i : Instr) : Prop := i.payload.length ≤ Config.payloadCap

/-- The payload length is exactly what the command's layout requires (spec/30_encoding.md R73, R87). -/
def Instr.hasLayout : Instr → Bool
  | .getVersion p => p.length == 0
  | .getHelp p => p.length == 0
  | .getChipId p => p.length == 0
  | .getProtectionStatus p => p.length == 0
  | .jumpToAddress p => p.length == 4
  | .eraseFlash p => p.length == 2
  | .writeMemory p => 6 ≤ p.length && p.length == 5 + (p.getD 4 0).toNat
  | .enableRwProtect p => p.length == 2
  | .readMemory p => p.length == 5 && 1 ≤ (p.getD 4 0).toNat
  | .readSectorProtectionStatus p => p.length == 0
  | .readOtp p => p.length == 0
  | .disableRwProtect p => p.length == 0

/-- A range is not empty and lies in the 32-bit address space (spec/20_memory.md R43). -/
def Range.wf (r : Range) : Bool := r.base ≤ r.last && r.last ≤ 0xFFFFFFFF

/-- Two ranges share no address (spec/20_memory.md R43). -/
def Range.disjoint (r s : Range) : Bool := r.last < s.base || s.last < r.base

/-- The conditions of spec/20_memory.md R43 on a region table. -/
def RegionTable.wf (t : RegionTable) : Bool :=
  t.primaryRam.wf && t.secondaryRam.wf && t.nonVolatile.wf && t.backupRam.wf
    && t.primaryRam.disjoint t.secondaryRam && t.primaryRam.disjoint t.nonVolatile
    && t.primaryRam.disjoint t.backupRam && t.secondaryRam.disjoint t.nonVolatile
    && t.secondaryRam.disjoint t.backupRam && t.nonVolatile.disjoint t.backupRam

/-- The sectors from number `k` at address `at_` on are numbered in order, are not empty, follow one another and end
just below `stop` (spec/20_memory.md R46 b to f). -/
def sectorsTile (k at_ stop : Nat) : List FlashSector → Bool
  | [] => at_ == stop
  | t :: ts => t.number == k && t.base == at_ && 1 ≤ t.size && sectorsTile (k + 1) (at_ + t.size) stop ts

/-- The conditions of spec/20_memory.md R46 on a sector table: between one and eight sectors that tile `nv`. -/
def sectorTableWf (nv : Range) (count : Nat) (ts : List FlashSector) : Bool :=
  1 ≤ count && count ≤ 8 && ts.length == count && sectorsTile 0 nv.base (nv.last + 1) ts

/-- The parse record keeps its first two invariants (spec/41_frame.md R105). -/
def Packet.wf (p : Packet) : Bool := p.payloadLen ≤ Config.payloadCap && p.payloadLen == p.payload.length

/-- `mode == None` if and only if `mask == 0`, and no bit stands above the last sector (spec/10_state.md R21,
spec/30_encoding.md R78). -/
def ProtectionStatus.wf (p : ProtectionStatus) : Bool :=
  ((p.mode == .none) == (p.mask == 0)) && p.mask.toNat < 2 ^ Config.numSectors

end Sys2Proof
end

