-- ==== Sys2Proof/Decode.lean ====
section
/-! DEFINITION. The Frame Layer's parser, the command decoder, the decoder of a byte stream and the encoder
(spec/30_encoding.md, spec/41_frame.md). -/

namespace Sys2Proof

/-- The framing check on a length byte: the error, or none for a legal length (spec/41_frame.md R101, R102). -/
def lengthError (len : Nat) : Option ErrorCode :=
  if len + 1 < Config.minFrame then some .shortFrame
  else if Config.payloadCap < len - 5 then some .oversizeFrame
  else none

/-- The parse record of the bytes after a legal length byte: `[command] ++ payload`, then four checksum bytes
(spec/41_frame.md R100, spec/30_encoding.md R65). -/
def packetOf (cells : List Byte) : Packet where
  command := cells.getD 0 0
  payload := (cells.take (cells.length - 4)).drop 1
  payloadLen := cells.length - 5
  checksum := Machine.le32Of (cells.drop (cells.length - 4))
  checksumOk :=
    Machine.checksumFlag (Machine.le32Of (cells.drop (cells.length - 4))) (cells.getD 0 0)
      ((cells.take (cells.length - 4)).drop 1)

/-- `Parse(L)` on the bytes after the length byte, with the code of the error in place of "no packet"
(spec/41_frame.md R100). -/
def parseFrame (len : Nat) (cells : List Byte) : Except ErrorCode Packet :=
  match lengthError len with
  | some e => .error e
  | none => .ok (packetOf cells)

/-- The command byte of an instruction (spec/30_encoding.md R73). -/
def Instr.code : Instr → Byte
  | .getVersion _ => Config.cmdGetVersion
  | .getHelp _ => Config.cmdGetHelp
  | .getChipId _ => Config.cmdGetChipId
  | .getProtectionStatus _ => Config.cmdGetProtectionStatus
  | .jumpToAddress _ => Config.cmdJumpToAddress
  | .eraseFlash _ => Config.cmdEraseFlash
  | .writeMemory _ => Config.cmdWriteMemory
  | .enableRwProtect _ => Config.cmdEnableRwProtect
  | .readMemory _ => Config.cmdReadMemory
  | .readSectorProtectionStatus _ => Config.cmdReadSectorProtectionStatus
  | .readOtp _ => Config.cmdReadOtp
  | .disableRwProtect _ => Config.cmdDisableRwProtect

/-- Decoding the opcode: all 8 bits of the command byte are compared, and a byte not in the table is no command
(spec/30_encoding.md R74, R75). -/
def instrOf (command : Byte) (payload : List Byte) : Option Instr :=
  if command = Config.cmdGetVersion then some (.getVersion payload)
  else if command = Config.cmdGetHelp then some (.getHelp payload)
  else if command = Config.cmdGetChipId then some (.getChipId payload)
  else if command = Config.cmdGetProtectionStatus then some (.getProtectionStatus payload)
  else if command = Config.cmdJumpToAddress then some (.jumpToAddress payload)
  else if command = Config.cmdEraseFlash then some (.eraseFlash payload)
  else if command = Config.cmdWriteMemory then some (.writeMemory payload)
  else if command = Config.cmdEnableRwProtect then some (.enableRwProtect payload)
  else if command = Config.cmdReadMemory then some (.readMemory payload)
  else if command = Config.cmdReadSectorProtectionStatus then some (.readSectorProtectionStatus payload)
  else if command = Config.cmdReadOtp then some (.readOtp payload)
  else if command = Config.cmdDisableRwProtect then some (.disableRwProtect payload)
  else none

/-- The dispatcher's reading of a parse record: a checksum-invalid record is never decoded (spec/43_dispatcher.md R148),
an unknown command byte has no instruction (R151). -/
def instrOfPacket (p : Packet) : Except ErrorCode Instr :=
  if p.checksumOk then
    match instrOf p.command p.payload with
    | some i => .ok i
    | none => .error .unknownCommand
  else .error .badChecksum

/-- What a decoder reads from the front of a byte stream. -/
inductive Decoded where
  /-- A valid frame of this instruction, then the rest of the stream. -/
  | instr (i : Instr) (rest : List Byte)
  /-- A frame that is answered with a NACK for this reason, then the rest of the stream. -/
  | rejected (why : ErrorCode) (rest : List Byte)
  /-- The stream ends inside the frame: the block waits (spec/43_dispatcher.md R158). -/
  | incomplete
  deriving DecidableEq, Repr

/-- The bytes after the length byte, decoded. -/
def decodeCells (len : Nat) (cells rest : List Byte) : Decoded :=
  match parseFrame len cells with
  | .error e => .rejected e rest
  | .ok p =>
    match instrOfPacket p with
    | .error e => .rejected e rest
    | .ok i => .instr i rest

/-- The decoder, total on any bytes. The first byte alone tells the extent of the frame, `length + 1` bytes, legal or
not (spec/30_encoding.md R69, R83). -/
def decode : List Byte → Decoded
  | [] => .incomplete
  | len :: bs =>
    if bs.length < len.toNat then .incomplete
    else decodeCells len.toNat (bs.take len.toNat) (bs.drop len.toNat)

/-- `encode(cmd, payload)`: length byte, command, payload, little-endian checksum (spec/30_encoding.md R85). -/
def encodeFrame (command : Byte) (payload : List Byte) : List Byte :=
  BitVec.ofNat 8 ((command :: payload).length + 4) :: (command :: payload)
    ++ Machine.bytesLe32 (Machine.crc32 (command :: payload))

/-- The frame of an instruction (spec/30_encoding.md R85). -/
def encode (i : Instr) : List Byte := encodeFrame i.code i.payload

/-- How many operand bytes the layout of a command has before any data (spec/30_encoding.md R73): the operand words
that opcode_table.json gives no bits. -/
def operandBytes (command : Byte) : Nat :=
  if command = Config.cmdJumpToAddress then 4
  else if command = Config.cmdEraseFlash then 2
  else if command = Config.cmdWriteMemory then 5
  else if command = Config.cmdEnableRwProtect then 2
  else if command = Config.cmdReadMemory then 5
  else 0

/-- The first `n` bytes of a number, least significant first. -/
def tableBytes : Nat → Nat → List Byte
  | 0, _ => []
  | n + 1, w => BitVec.ofNat 8 w :: tableBytes n (w / 2 ^ 8)

/-- The frame of the instruction whose bits are `w`, numbered as opcode_table.json numbers them: bit 0 is the least
significant bit of the command byte, payload bytes follow, and operand bytes above `nbits` are 0
(notes/assumptions/15.md). The length byte and the checksum, which the table does not number, are those of the frame. -/
def tableFrame (nbits w : Nat) : List Byte :=
  match tableBytes (nbits / 8) w with
  | [] => []
  | command :: given =>
    encodeFrame command (given ++ List.replicate (operandBytes command - given.length) 0)

/-- The instruction the decoder reads from a table word. -/
def decodeTableWord (nbits w : Nat) : Option Instr :=
  match decode (tableFrame nbits w) with
  | .instr i _ => some i
  | .rejected _ _ => none
  | .incomplete => none

end Sys2Proof
end

