-- ==== Sys2Proof/Machine/Classifier.lean ====
section
/-! DEFINITION. The Address Classifier and the sector lookup (spec/20_memory.md). Addresses are unbounded naturals, so a
range that runs past 2^32 meets Unknown addresses (R51, D36). -/

namespace Sys2Proof.Machine

/-- An address lies in an inclusive range. -/
def inRange (r : Range) (a : Nat) : Bool := r.base ≤ a && a ≤ r.last

/-- `Classify(a)` against a region table (R47). -/
def classifyIn (t : RegionTable) (a : Nat) : MemoryRegion :=
  if inRange t.primaryRam a then .primaryRam
  else if inRange t.secondaryRam a then .secondaryRam
  else if inRange t.nonVolatile a then .nonVolatile
  else if inRange t.backupRam a then .backupRam
  else .unknown

/-- `Classify(a)` (R47). -/
def classify (a : Nat) : MemoryRegion := classifyIn Config.regionTable a

/-- `is_valid_jump_target(a)` (R48). -/
def isValidJumpTarget (a : Nat) : Bool := classify a != .unknown

/-- `ClassifyRange(a, n)`: the common class of the `n` addresses from `a` on, or Unknown if they differ (R51). -/
def classifyRange (a n : Nat) : MemoryRegion :=
  if (List.range n).all (fun i => classify (a + i) == classify a) then classify a else .unknown

/-- `sector_for(n)` (R50). -/
def sectorFor (n : Nat) : Option FlashSector := Config.sectorTable[n]?

/-- An address lies in a sector (R50). -/
def sectorHolds (t : FlashSector) (a : Nat) : Bool := t.base ≤ a && a ≤ t.base + t.size - 1

/-- `sector_of(a)`: the number of the sector that holds `a`; none outside NonVolatile, where the spec does not define it
(R50). -/
def sectorOf (a : Nat) : Option Nat := (Config.sectorTable.find? (fun t => sectorHolds t a)).map (·.number)

end Sys2Proof.Machine
end

