-- ==== Sys2Proof/Machine/Memory.lean ====
section
/-! DEFINITION. The flash array: one byte at every NonVolatile address (spec/10_state.md R23), held as the list of the
cells that do not hold ERASED_VALUE, by rising address. -/

namespace Sys2Proof.Machine

/-- The flash array as a list of cells. -/
abbrev Memory := List Host.Cell

/-- What an address that is not listed reads as (notes/assumptions/7.md). -/
def Memory.unlisted : Byte := Config.erasedValue

/-- The canonical form: strictly rising addresses, no cell equal to what an unlisted address reads as, only NonVolatile
addresses. -/
abbrev Memory.wf (m : Memory) : Prop :=
  m.Pairwise (fun c d => c.1 < d.1) ∧ ∀ c ∈ m, c.2 ≠ Memory.unlisted ∧ classify c.1 = .nonVolatile

/-- The byte at an address. -/
def Memory.read : Memory → Nat → Byte
  | [], _ => Memory.unlisted
  | c :: m, a => if c.1 = a then c.2 else Memory.read m a

/-- A cell in front of the list, left out if it is what an unlisted address reads as. -/
def Memory.cons (a : Nat) (b : Byte) (m : Memory) : Memory := if b = Memory.unlisted then m else (a, b) :: m

/-- Give one address a byte. -/
def Memory.write : Memory → Nat → Byte → Memory
  | [], a, b => Memory.cons a b []
  | c :: m, a, b =>
    if a < c.1 then Memory.cons a b (c :: m)
    else if a = c.1 then Memory.cons a b m
    else c :: Memory.write m a b

/-- Give the `n` addresses from `lo` on ERASED_VALUE. -/
def Memory.erase (m : Memory) (lo n : Nat) : Memory := m.filter (fun c => !(lo ≤ c.1 && c.1 < lo + n))

/-- The cells that give the `n` addresses from `lo` on the bytes `f 0`, `f 1`, …. -/
def Memory.cellsFrom (lo : Nat) (f : Nat → Byte) (n : Nat) : Memory :=
  (List.range n).filterMap (fun i => if f i = Memory.unlisted then none else some (lo + i, f i))

/-- Give the `n` addresses from `lo` on the bytes `f 0`, `f 1`, …. -/
def Memory.fill (m : Memory) (lo : Nat) (f : Nat → Byte) (n : Nat) : Memory :=
  m.filter (fun c => c.1 < lo) ++ (Memory.cellsFrom lo f n ++ m.filter (fun c => lo + n ≤ c.1))

end Sys2Proof.Machine
end

