-- ==== Sys2Proof/Machine/State.lean ====
section
/-! DEFINITION. The state of the protocol block (spec/10_state.md), plain data; the reasons a step can stop; the state
right after reset (spec/70_reset_and_hazards.md R195). -/

namespace Sys2Proof.Machine

/-- The dispatcher state (spec/10_state.md R17). -/
inductive Phase where
  | inactive
  | awaitingLength
  | awaitingFrame
  | dispatch
  | jumped (target : Word)
  | halted (reason : FatalReason)
  deriving DecidableEq, Repr

/-- A flash-port request (spec/10_state.md R27). -/
inductive PortRequest where
  | flashUnlock
  | flashRelock
  | optUnlock
  | optRelock
  | eraseSector (k : Nat)
  | massErase
  | programByte (a : Nat) (v : Byte)
  | optApply (mask : Byte) (mode : ProtMode)
  deriving DecidableEq, Repr

/-- What the flash hardware does with a request: answers, never answers (spec/60_exceptions.md R186), or is cut short by
a reset of the device that samples this enter_bootloader level (spec/70_reset_and_hazards.md R203). -/
inductive PortAnswer where
  | ok
  | fail
  | never
  | reset (enter : Bool)
  deriving DecidableEq, Repr

/-- The answers the flash port will give: a list, then one answer for ever (notes/assumptions/2.md). -/
structure PortScript where
  next : List PortAnswer
  thereafter : PortAnswer
  deriving DecidableEq, Repr

/-- The two locks (spec/10_state.md R22). -/
inductive Lock where
  | flash
  | option
  deriving DecidableEq, Repr

/-- What a command arm ends in (spec/43_dispatcher.md R152), with the error code of R180. -/
inductive ArmOutcome where
  | ok (body : List Byte)
  | validationError (e : ErrorCode)
  | operationFailure (e : ErrorCode)
  | jumpTo (a : Word)
  | fatal (r : FatalReason)
  deriving DecidableEq, Repr

/-- The point reached in a command's pseudocode, with what is left to do from there (spec/10_state.md R33). -/
inductive Point where
  /-- Before the unlock request; `body` are the requests to issue under the lock, `failure` the code of one that fails. -/
  | unlocking (command : Byte) (lock : Lock) (failure : ErrorCode) (body : List PortRequest)
  /-- Before the first of the body's requests that are left. -/
  | working (command : Byte) (lock : Lock) (failure : ErrorCode) (body : List PortRequest)
  /-- Before the relock request; the outcome is decided but for that. -/
  | relocking (command : Byte) (lock : Lock) (o : ArmOutcome)
  /-- `left` bytes from `addr` on are still to be read, `got` are read. -/
  | reading (command : Byte) (addr left : Nat) (got : List Byte)
  /-- Before the response, the jump or the halt. -/
  | responding (command : Byte) (o : ArmOutcome)
  /-- Before the NACK of a frame that is no valid command (spec/43_dispatcher.md R148, R151). -/
  | rejecting (e : ErrorCode)
  deriving DecidableEq, Repr

/-- The state. The first twelve fields are the spec's (spec/10_state.md R16, R33), the others the model's own inputs,
draw counter and observations (INVENTORY.md, State). -/
structure State where
  /-- `S.phase` (R17). -/
  phase : Phase
  /-- `S.len` (R18). -/
  len : Byte
  /-- `S.rxcount` (R18). -/
  rxcount : Nat
  /-- `S.rxbuf` (R19): `none` is the mark `unwritten`. -/
  rxbuf : Vector (Option Byte) Config.rxCap
  /-- `S.crc` (R20). -/
  crc : Word
  /-- `S.prot` (R21). -/
  prot : ProtectionStatus
  /-- `S.flash_locked` (R22). -/
  flashLocked : Bool
  /-- `S.opt_locked` (R22). -/
  optLocked : Bool
  /-- `S.flash` (R23): the cells that do not hold ERASED_VALUE, by rising address (notes/assumptions/7.md). -/
  flash : List Host.Cell
  /-- `S.pkt` (R30). -/
  pkt : Option Packet
  /-- `S.tx` (R26). -/
  tx : List Byte
  /-- The point inside `Dispatch` (R33): none before the frame is parsed, and outside `Dispatch`. -/
  point : Option Point
  /-- Input: the bytes the receive port will deliver (R25, notes/assumptions/3.md). -/
  rx : List Byte
  /-- Input: the answers of the flash port (R27, notes/assumptions/2.md). -/
  port : PortScript
  /-- Input: the resets, one entry a step: none, or a reset in place of that step, with the enter_bootloader level it
  samples; no reset after the last entry (R24, notes/assumptions/5.md). -/
  resetIn : List (Option Bool)
  /-- How many free values were drawn (notes/assumptions/4.md). -/
  draws : Nat
  /-- The code of the error that ended the last frame (spec/60_exceptions.md R180, notes/assumptions/11.md). -/
  lastError : Option ErrorCode
  /-- The flash-port requests issued since reset, in order (notes/assumptions/11.md). -/
  requests : List PortRequest
  deriving DecidableEq, Repr

/-- Why the machine stops with no next state. -/
inductive Fault where
  /-- Raised by `step` in phase Inactive, a terminal phase (spec/43_dispatcher.md R154). Safe: the block has no step. -/
  | inactive
  /-- Raised by `step` in phase Jumped, a terminal phase (R154, R155). Safe: the block has no step. -/
  | jumped (target : Word)
  /-- Raised by `step` in phase Halted: the recorded fatal fault, which no later step clears (spec/60_exceptions.md
  R184). Safe: the block has no step. -/
  | halted (reason : FatalReason)
  /-- Raised by a receive step when the host has supplied no byte: stuck, waiting (spec/10_state.md R25). Safe. -/
  | noReceiveByte
  /-- Raised by a flash-port request that is never answered: stuck in Dispatch (spec/60_exceptions.md R186). Safe. -/
  | portNeverAnswers (r : PortRequest)
  /-- Raised by a flash-port request whose precondition fails, which the block never issues (spec/10_state.md R27).
  Safe: the spec says a model must fault. -/
  | portPrecondition (r : PortRequest)
  /-- Raised by the fetch of a frame when it would read an unwritten buffer cell, which no run does (spec/10_state.md
  R19). Safe: the spec says a model must fault. -/
  | unwrittenCell
  /-- Raised by MemRead of an address of class Unknown, which is never issued (spec/10_state.md R28). Safe. -/
  | unknownAddress (a : Nat)
  deriving DecidableEq, Repr

/-- Why an instruction has no meaning. -/
inductive Refusal where
  /-- Raised by `exec` for an instruction that has no meaning in the model yet; no arm raises it. Safe. -/
  | notModelled (mnemonic : String)
  deriving DecidableEq, Repr

/-- The state right after a reset that sampled enter_bootloader = true at the first power-up
(spec/70_reset_and_hazards.md R195). Named values the spec does not give: `len`, `rxcount`, `crc` (notes/assumptions/6.md),
`flash` (7.md), `prot` (8.md), the entered bootloader (9.md), the model's own fields (2.md, 3.md, 4.md, 5.md, 11.md). -/
def State.reset : State where
  phase := .awaitingLength
  len := 0
  rxcount := 0
  rxbuf := Vector.replicate Config.rxCap none
  crc := 0
  prot := ⟨0, .none⟩
  flashLocked := true
  optLocked := true
  flash := []
  pkt := none
  tx := []
  point := none
  rx := []
  port := ⟨[], .ok⟩
  resetIn := []
  draws := 0
  lastError := none
  requests := []

end Sys2Proof.Machine
end

