-- ==== Sys2Proof/Machine/Ops.lean ====
section
/-! DEFINITION. The named operations over the state: receive, transmit, locks, flash, protection, draws, the recoverable
and the fatal exit of a command and the return to AwaitingLength, reset. -/

namespace Sys2Proof.Machine

/-- The kind of an error code (spec/60_exceptions.md R180). -/
def errorKind : ErrorCode → ErrorKind
  | .shortFrame | .oversizeFrame | .badChecksum => .framing
  | .unknownCommand | .badPayloadLength | .badAddress | .sectorRange | .countRange | .protectedSector | .badMode
  | .badMask => .validation
  | .unlockFailed | .eraseFailed | .programFailed | .applyFailed => .operationFailure
  | .relockFailed => .fatal

/-- The error code a fatal fault is recorded with (spec/60_exceptions.md R180, R184). -/
def fatalCode : FatalReason → ErrorCode
  | .relockFailed => .relockFailed

/-! ### Protection predicates (spec/10_state.md R21) -/

/-- `write_protected(k)` (R21). -/
def writeProtected (p : ProtectionStatus) (k : Nat) : Bool := p.mask.getLsbD k

/-- `read_protected(k)` (R21). -/
def readProtected (p : ProtectionStatus) (k : Nat) : Bool :=
  p.mask.getLsbD k && p.mode == .readWrite

/-- The mode code of a reply body (spec/30_encoding.md R82). -/
def modeCode : ProtMode → Byte
  | .none => 0
  | .write => 1
  | .readWrite => 2

/-! ### Setters -/

/-- Enter a dispatcher state. -/
def State.enter (s : State) (p : Phase) : State := { s with phase := p }

/-- `Tx(bs)`: append to the transmit history (spec/10_state.md R26). -/
def State.transmit (s : State) (bs : List Byte) : State := { s with tx := s.tx ++ bs }

/-- Record the error code that ended a frame, or none. -/
def State.note (s : State) (e : Option ErrorCode) : State := { s with lastError := e }

/-- Write `S.pkt` (spec/10_state.md R30). -/
def State.setPacket (s : State) (p : Option Packet) : State := { s with pkt := p }

/-- Write `S.crc` (spec/10_state.md R20). -/
def State.setCrc (s : State) (w : Word) : State := { s with crc := w }

/-- Write the flash array. -/
def State.setFlash (s : State) (m : Memory) : State := { s with flash := m }

/-- Write `S.prot`. -/
def State.setProt (s : State) (p : ProtectionStatus) : State := { s with prot := p }

/-- Write `S.flash_locked`. -/
def State.setFlashLocked (s : State) (b : Bool) : State := { s with flashLocked := b }

/-- Write `S.opt_locked`. -/
def State.setOptLocked (s : State) (b : Bool) : State := { s with optLocked := b }

/-- Stand at a point inside Dispatch, or at none (spec/10_state.md R33). -/
def State.stand (s : State) (p : Option Point) : State := { s with point := p }

/-- Count `n` free values as drawn. -/
def State.drawn (s : State) (n : Nat) : State := { s with draws := s.draws + n }

/-- The flash port's next answer. -/
def PortScript.head (p : PortScript) : PortAnswer := p.next.headD p.thereafter

/-- The script after one answer. -/
def PortScript.tail (p : PortScript) : PortScript := { p with next := p.next.tail }

/-- A request is issued: it is recorded and the port's answer to it is used up. -/
def State.issue (s : State) (r : PortRequest) : State :=
  { s with requests := s.requests ++ [r], port := s.port.tail }

/-! ### Responses and the exits of a command -/

/-- `SendAck(command, body)` (spec/41_frame.md R106). -/
def State.sendAck (s : State) (command : Byte) (body : List Byte) : State :=
  s.transmit ([Config.ackByte, command] ++ body)

/-- `SendNack()` (spec/41_frame.md R107). -/
def State.sendNack (s : State) : State := s.transmit [Config.nackByte]

/-- `ReturnToAwaitingLength` (spec/43_dispatcher.md R150): the return from every command and every recoverable error. -/
def State.returnToAwaitingLength (s : State) : State := (s.setPacket none).enter .awaitingLength

/-- `raise Nack(kind)` (spec/60_exceptions.md R182): the recoverable exit of a command. -/
def State.raiseNack (s : State) (e : ErrorCode) : State := (s.sendNack.note (some e)).returnToAwaitingLength

/-- `raise Fatal(reason)` (spec/60_exceptions.md R184): the block halts and sends nothing. -/
def State.raiseFatal (s : State) (r : FatalReason) : State := (s.note (some (fatalCode r))).enter (.halted r)

/-- `jump(a)` (spec/43_dispatcher.md R155): control leaves the block, and the jump output presents `a` unchanged. -/
def State.jump (s : State) (a : Word) : State := s.enter (.jumped a)

/-- From the outcome of an arm to its response and the next phase (spec/43_dispatcher.md R152). -/
def State.respond (s : State) (command : Byte) : ArmOutcome → State
  | .ok body => ((s.sendAck command body).note none).returnToAwaitingLength
  | .validationError e => s.raiseNack e
  | .operationFailure e => s.raiseNack e
  | .jumpTo a => ((s.sendAck command []).note none).jump a
  | .fatal r => s.raiseFatal r

/-! ### Receive (spec/43_dispatcher.md R146, R147) -/

/-- The length byte `l` arrives and `rest` stays with the transport: a frame begins (R146). -/
def State.beginFrame (s : State) (l : Byte) (rest : List Byte) : State :=
  { s with len := l, rxcount := 0, rxbuf := Vector.replicate Config.rxCap none, rx := rest, phase := .awaitingFrame }

/-- Cell `i` of the buffer takes the byte `b`; a byte past RX_CAP is discarded (R147, spec/10_state.md R19). -/
def storeCell (buf : Vector (Option Byte) Config.rxCap) (i : Nat) (b : Byte) : Vector (Option Byte) Config.rxCap :=
  buf.setIfInBounds i (some b)

/-- A frame byte `b` arrives and `rest` stays with the transport (R147). -/
def State.takeFrameByte (s : State) (b : Byte) (rest : List Byte) : State :=
  { s with rxbuf := storeCell s.rxbuf s.rxcount b, rxcount := s.rxcount + 1, rx := rest }

/-- The first `n` cells of the buffer, or none if one of them is unwritten (spec/10_state.md R19). -/
def cellsOf (buf : Vector (Option Byte) Config.rxCap) (n : Nat) : Option (List Byte) := (buf.toList.take n).mapM id

/-! ### Reset (spec/70_reset_and_hazards.md R195) -/

/-- The reset that takes the place of the next step, if one does (notes/assumptions/5.md). -/
def State.resetDue (s : State) : Option Bool := s.resetIn.head?.join

/-- The resets to come, one step later. -/
def State.stepped (s : State) : State := { s with resetIn := s.resetIn.tail }

/-- The phase a reset leaves (spec/10_state.md R17, R24). -/
def resetPhase (enter : Bool) : Phase := if enter then .awaitingLength else .inactive

/-- A reset that samples `enter`: volatile elements take their reset values, `len`, `rxcount` and `crc` are free values,
`prot` and `flash` stay (R195, R197); what the transport still holds is free (notes/assumptions/14.md). -/
def State.resetSequence (s : State) (enter : Bool) : State :=
  { s with
    phase := resetPhase enter
    len := Config.drawByte s.draws
    rxcount := (Config.drawByte (s.draws + 1)).toNat
    rxbuf := Vector.replicate Config.rxCap none
    crc := Config.drawWord (s.draws + 2)
    flashLocked := true
    optLocked := true
    pkt := none
    tx := []
    point := none
    rx := Config.heldAfterReset (s.draws + 3) s.rx
    draws := s.draws + 4
    lastError := none
    requests := [] }

end Sys2Proof.Machine
end

