-- ==== Sys2Proof/Machine/Port.lean ====
section
/-! DEFINITION. The flash port and the memory read port: one request, its answer and its effect (spec/10_state.md R27,
R28), and a sequence of requests. -/

namespace Sys2Proof.Machine

/-- The precondition of a request (R27). -/
def portReady (s : State) : PortRequest → Bool
  | .flashUnlock => s.flashLocked
  | .flashRelock => true
  | .optUnlock => s.optLocked
  | .optRelock => true
  | .eraseSector k => !s.flashLocked && k < Config.numSectors
  | .massErase => !s.flashLocked
  | .programByte a _ => !s.flashLocked && classify a == .nonVolatile
  | .optApply _ _ => !s.optLocked

/-- The protection status of a draw: any that keeps the invariant of R21. -/
def protOfDraw : Option (Fin 255 × Bool) → ProtectionStatus
  | none => ⟨0, .none⟩
  | some (m, rw) => ⟨BitVec.ofNat 8 (m.val + 1), if rw then .readWrite else .write⟩

/-- `n` addresses from `lo` on hold ERASED_VALUE (R27). -/
def State.eraseRange (s : State) (lo n : Nat) : State := s.setFlash (Memory.erase s.flash lo n)

/-- `n` addresses from `lo` on hold fresh draws (R27). -/
def State.drawRange (s : State) (lo n : Nat) : State :=
  (s.setFlash (Memory.fill s.flash lo (fun i => Config.drawByte (s.draws + i)) n)).drawn n

/-- The first address of NonVolatile. -/
def flashBase : Nat := Config.regionTable.nonVolatile.base

/-- How many addresses NonVolatile has. -/
def flashSize : Nat := Config.regionTable.nonVolatile.last + 1 - Config.regionTable.nonVolatile.base

/-- The base of sector `k`; no request names a sector that does not exist. -/
def sectorBase (k : Nat) : Nat := ((sectorFor k).map (·.base)).getD 0

/-- The size of sector `k`; 0 for one that does not exist. -/
def sectorSize (k : Nat) : Nat := ((sectorFor k).map (·.size)).getD 0

/-- The effect of a request answered `ok` (R27). -/
def State.onOk (s : State) : PortRequest → State
  | .flashUnlock => s.setFlashLocked false
  | .flashRelock => s.setFlashLocked true
  | .optUnlock => s.setOptLocked false
  | .optRelock => s.setOptLocked true
  | .eraseSector k => s.eraseRange (sectorBase k) (sectorSize k)
  | .massErase => s.eraseRange flashBase flashSize
  | .programByte a v =>
    if Memory.read s.flash a = Config.erasedValue then s.setFlash (Memory.write s.flash a v) else s.drawRange a 1
  | .optApply mask mode => s.setProt ⟨mask, mode⟩

/-- The effect of a request answered `fail` (R27), which is also what a reset during the request leaves in flash and
protection (spec/70_reset_and_hazards.md R203). -/
def State.onFail (s : State) : PortRequest → State
  | .flashUnlock => s
  | .flashRelock => s
  | .optUnlock => s
  | .optRelock => s
  | .eraseSector k => s.drawRange (sectorBase k) (sectorSize k)
  | .massErase => s.drawRange flashBase flashSize
  | .programByte a _ => s.drawRange a 1
  | .optApply _ _ => (s.setProt (protOfDraw (Config.drawProt s.draws))).drawn 1

/-- What comes of a request, or of a sequence of them. -/
inductive PortResult where
  /-- Answered: whether `ok`, and the state after. -/
  | answered (ok : Bool) (s : State)
  /-- A reset cut the request short; the state is that after the reset sequence. -/
  | reset (s : State)
  /-- The block is stuck or has broken a precondition. -/
  | stopped (f : Fault)

/-- One flash-port request: its precondition, its answer and its effect (R27). -/
def request (r : PortRequest) (s : State) : PortResult :=
  if portReady s r then
    match s.port.head with
    | .ok => .answered true ((s.issue r).onOk r)
    | .fail => .answered false ((s.issue r).onFail r)
    | .never => .stopped (.portNeverAnswers r)
    | .reset enter => .reset (((s.issue r).onFail r).resetSequence enter)
  else .stopped (.portPrecondition r)

/-- Requests in order, up to the first that is not answered `ok`. -/
def requestAll : List PortRequest → State → PortResult
  | [], s => .answered true s
  | r :: rs, s =>
    match request r s with
    | .answered true s' => requestAll rs s'
    | .answered false s' => .answered false s'
    | .reset s' => .reset s'
    | .stopped f => .stopped f

/-- `MemRead(a, 1)` (R28): the byte and the state after. -/
def memRead (a : Nat) (s : State) : Except Fault (Byte × State) :=
  match classify a with
  | .nonVolatile => .ok (Memory.read s.flash a, s)
  | .primaryRam | .secondaryRam | .backupRam => .ok (Config.drawByte s.draws, s.drawn 1)
  | .unknown => .error (.unknownAddress a)

/-- `MemRead` of the `n` addresses from `a` on, ascending (spec/44_commands.md R168). -/
def memReadRange : Nat → Nat → State → Except Fault (List Byte × State)
  | _, 0, s => .ok ([], s)
  | a, n + 1, s =>
    match memRead a s with
    | .error f => .error f
    | .ok (b, s') =>
      match memReadRange (a + 1) n s' with
      | .error f => .error f
      | .ok (bs, s'') => .ok (b :: bs, s'')

end Sys2Proof.Machine
end

