-- ==== Sys2Proof/Machine/Flash.lean ====
section
/-! DEFINITION. The Flash Manager: the gates of its operations, all evaluated before any request, and the scoped lock
discipline around the requests (spec/42_flash.md). -/

namespace Sys2Proof.Machine

/-- The unlock request of a lock. -/
def unlockRequest : Lock → PortRequest
  | .flash => .flashUnlock
  | .option => .optUnlock

/-- The relock request of a lock. -/
def relockRequest : Lock → PortRequest
  | .flash => .flashRelock
  | .option => .optRelock

/-- What comes of a Flash Manager operation that passed its gate. -/
inductive OpResult where
  /-- It returned, or raised a fatal fault. -/
  | finished (o : ArmOutcome) (s : State)
  /-- A reset cut it short. -/
  | reset (s : State)
  /-- The block is stuck or has broken a precondition. -/
  | stopped (f : Fault)

/-- The relock that ends an operation with the outcome `o`, or halts the block (R117). -/
def closeLock (lock : Lock) (o : ArmOutcome) (s : State) : OpResult :=
  match request (relockRequest lock) s with
  | .reset s' => .reset s'
  | .stopped f => .stopped f
  | .answered false s' => .finished (.fatal .relockFailed) s'
  | .answered true s' => .finished o s'

/-- The requests of an operation up to the first failure, and the relock (R117). `failure` is the code of a failing
request. -/
def underLock (lock : Lock) (failure : ErrorCode) (body : List PortRequest) (s : State) : OpResult :=
  match requestAll body s with
  | .reset s' => .reset s'
  | .stopped f => .stopped f
  | .answered ok s' => closeLock lock (if ok then .ok [] else .operationFailure failure) s'

/-- `WithFlashUnlocked(body)` and `WithOptUnlocked(body)` (R117): unlock, the body's requests, relock. -/
def withUnlocked (lock : Lock) (failure : ErrorCode) (body : List PortRequest) (s : State) : OpResult :=
  match request (unlockRequest lock) s with
  | .reset s' => .reset s'
  | .stopped f => .stopped f
  | .answered false s' => .finished (.operationFailure .unlockFailed) s'
  | .answered true s' => underLock lock failure body s'

/-- The sectors `sector .. sector+n−1` (R119). -/
def sectorSpan (sector n : Nat) : List Nat := (List.range n).map (sector + ·)

/-- The number of sectors a ranged erase covers, clamped to the last sector (R121). -/
def eraseSpan (sector count : Nat) : Nat := min count (Config.numSectors - sector)

/-- The gate of `Erase(sector, count)` and the requests it lets through (R119, R120, R122, R123). -/
def eraseGate (sector count : Byte) (prot : ProtectionStatus) : Except ErrorCode (List PortRequest) :=
  if Config.maxEraseCount < count.toNat then .error .countRange
  else if sector = Config.massEraseSentinel then
    if Config.eraseLowSector ≠ 0 then .error .sectorRange
    else if (List.range Config.numSectors).any (writeProtected prot) then .error .protectedSector
    else .ok [.massErase]
  else if (sectorFor sector.toNat).isNone then .error .sectorRange
  else if sector.toNat < Config.eraseLowSector then .error .sectorRange
  else if count.toNat < 1 then .error .countRange
  else if (sectorSpan sector.toNat (eraseSpan sector.toNat count.toNat)).any (writeProtected prot) then
    .error .protectedSector
  else .ok ((sectorSpan sector.toNat (eraseSpan sector.toNat count.toNat)).map .eraseSector)

/-- Some byte of the range lies in a sector with the property (R125, spec/44_commands.md R168). -/
def anySectorOf (p : Nat → Bool) (addr n : Nat) : Bool :=
  (List.range n).any (fun i => (sectorOf (addr + i)).any p)

/-- One program request a byte, ascending (R125). -/
def programRequests : Nat → List Byte → List PortRequest
  | _, [] => []
  | a, b :: bs => .programByte a b :: programRequests (a + 1) bs

/-- The gate of `Write(addr, data)` and the requests it lets through (R125). -/
def writeGate (addr : Nat) (data : List Byte) (prot : ProtectionStatus) : Except ErrorCode (List PortRequest) :=
  if classifyRange addr data.length ≠ .nonVolatile then .error .badAddress
  else if addr < Config.writeLowBound then .error .badAddress
  else if anySectorOf (writeProtected prot) addr data.length then .error .protectedSector
  else .ok (programRequests addr data)

/-- The mask ENABLE_RW_PROTECT stores (R127, parameter PROT_MERGE). -/
def mergedMask (old new : Byte) : Byte :=
  match Config.protMerge with
  | .or => old ||| new
  | .replace => new

/-- The gate of `ConfigureProtection(mask, mode)` and the request it lets through (R127). -/
def protectGate (mask : Byte) (mode : ProtMode) (prot : ProtectionStatus) : Except ErrorCode (List PortRequest) :=
  if mask = 0 then .error .badMask
  else if 2 ^ Config.numSectors ≤ mask.toNat then .error .badMask
  else .ok [.optApply (mergedMask prot.mask mask) mode]

/-- The request of `ConfigureProtection(·, DisableAll)` (R128). -/
def disableRequests : List PortRequest := [.optApply 0 .none]

/-- `ReadProtectionStatus()` (R129). -/
def readProtectionStatus (s : State) : ProtectionStatus := s.prot

/-- The gate of READ_MEMORY on a range (spec/44_commands.md R168). -/
def readGate (addr n : Nat) (prot : ProtectionStatus) : Except ErrorCode Unit :=
  if classifyRange addr n = .unknown then .error .badAddress
  else if classifyRange addr n = .nonVolatile ∧ anySectorOf (readProtected prot) addr n then .error .protectedSector
  else .ok ()

/-- The end of a command whose operation came to this (R152). -/
def respondTo (command : Byte) : OpResult → Host.Outcome State Fault Refusal
  | .finished o s => .next (s.respond command o)
  | .reset s => .next s
  | .stopped f => .fault f

end Sys2Proof.Machine
end

