-- ==== Sys2Proof/Machine/Operands.lean ====
section
/-! DEFINITION. The operand forms of the command payloads (spec/30_encoding.md R76 to R81). Each answers none for a
payload of another length, which its arm turns into BadPayloadLength (R87). -/

namespace Sys2Proof.Machine

/-- No operands: the payload is empty. -/
def noOperands : List Byte → Option Unit
  | [] => some ()
  | _ :: _ => none

/-- `addr:4`, little-endian (R77). -/
def addressOperand : List Byte → Option Word
  | [b0, b1, b2, b3] => some (le32 b0 b1 b2 b3)
  | _ => none

/-- Two single bytes: `sector, count` (R78) or `mask, mode` (R81). -/
def bytePair : List Byte → Option (Byte × Byte)
  | [x, y] => some (x, y)
  | _ => none

/-- `addr:4, n:1, data:n` with n ≥ 1 (R79). -/
def addressData : List Byte → Option (Word × List Byte)
  | b0 :: b1 :: b2 :: b3 :: n :: data =>
    if 1 ≤ n.toNat ∧ data.length = n.toNat then some (le32 b0 b1 b2 b3, data) else none
  | _ => none

/-- `addr:4, n:1` with n ≥ 1 (R80). -/
def addressCount : List Byte → Option (Word × Nat)
  | [b0, b1, b2, b3, n] => if 1 ≤ n.toNat then some (le32 b0 b1 b2 b3, n.toNat) else none
  | _ => none

/-- The protection mode of a mode byte: 1 is write-protect, 2 read-and-write-protect, every other byte is illegal
(R81). -/
def protModeOf (code : Byte) : Option ProtMode :=
  if code = 1 then some .write else if code = 2 then some .readWrite else none

end Sys2Proof.Machine
end

