-- ==== Sys2Proof/Machine/Points.lean ====
section
/-! DEFINITION. The points of a command's pseudocode (spec/10_state.md R33): one step from a point, and the way from a
point to the end of the command. -/

namespace Sys2Proof.Machine

/-- The point from which the requests `body` are left to issue before the lock is closed. -/
def workPoint (command : Byte) (lock : Lock) (failure : ErrorCode) : List PortRequest → Point
  | [] => .relocking command lock (.ok [])
  | r :: rs => .working command lock failure (r :: rs)

/-- The point from which `n` more bytes are read and answered. -/
def readPoint (command : Byte) (addr : Nat) (got : List Byte) : Nat → Point
  | 0 => .responding command (.ok got)
  | n + 1 => .reading command addr (n + 1) got

/-- The point of a refused command. -/
def refusePoint (command : Byte) (e : ErrorCode) : Point := .responding command (.validationError e)

/-- The first point of a command with an empty payload that answers `body`. -/
def queryPoint (command : Byte) (payload body : List Byte) : Point :=
  match noOperands payload with
  | none => refusePoint command .badPayloadLength
  | some () => .responding command (.ok body)

/-- The first point of a mutating command behind its gate (spec/42_flash.md R116). -/
def gatedPoint (command : Byte) (lock : Lock) (failure : ErrorCode) : Except ErrorCode (List PortRequest) → Point
  | .error e => refusePoint command e
  | .ok body => .unlocking command lock failure body

/-- One step inside Dispatch: one flash-port request, one memory read or one response (spec/43_dispatcher.md R145,
spec/00_scope.md R6). Answers the point after it, or none once the command has ended, and the state. -/
def tick : Point → State → Host.Outcome (Option Point × State) Fault Refusal
  | .unlocking command lock failure body, s =>
    match request (unlockRequest lock) s with
    | .answered true s' => .next (some (workPoint command lock failure body), s')
    | .answered false s' => .next (some (.responding command (.operationFailure .unlockFailed)), s')
    | .reset s' => .next (none, s')
    | .stopped f => .fault f
  | .working command lock _ [], s => .next (some (.relocking command lock (.ok [])), s)
  | .working command lock failure (r :: rs), s =>
    match request r s with
    | .answered true s' => .next (some (workPoint command lock failure rs), s')
    | .answered false s' => .next (some (.relocking command lock (.operationFailure failure)), s')
    | .reset s' => .next (none, s')
    | .stopped f => .fault f
  | .relocking command lock o, s =>
    match request (relockRequest lock) s with
    | .answered true s' => .next (some (.responding command o), s')
    | .answered false s' => .next (some (.responding command (.fatal .relockFailed)), s')
    | .reset s' => .next (none, s')
    | .stopped f => .fault f
  | .reading command _ 0 got, s => .next (some (.responding command (.ok got)), s)
  | .reading command addr (n + 1) got, s =>
    match memRead addr s with
    | .error f => .fault f
    | .ok (b, s') => .next (some (readPoint command (addr + 1) (got ++ [b]) n), s')
  | .responding command o, s => .next (none, s.respond command o)
  | .rejecting e, s => .next (none, s.raiseNack e)

/-- The command from a point to its end, all its steps taken. -/
def complete : Point → State → Host.Outcome State Fault Refusal
  | .unlocking command lock failure body, s => respondTo command (withUnlocked lock failure body s)
  | .working command lock failure body, s => respondTo command (underLock lock failure body s)
  | .relocking command lock o, s => respondTo command (closeLock lock o s)
  | .reading command addr n got, s =>
    match memReadRange addr n s with
    | .error f => .fault f
    | .ok (bs, s') => .next (s'.respond command (.ok (got ++ bs)))
  | .responding command o, s => .next (s.respond command o)
  | .rejecting e, s => .next (s.raiseNack e)

end Sys2Proof.Machine
end

