-- ==== Sys2Proof/Machine/Control.lean ====
section
/-! DEFINITION. The control transfer: JUMP_TO_ADDRESS (spec/44_commands.md R164). -/

namespace Sys2Proof.Machine

/-- JUMP_TO_ADDRESS, its checks (R164). -/
def jumpToAddressPoint (payload : List Byte) : Point :=
  match addressOperand payload with
  | none => refusePoint Config.cmdJumpToAddress .badPayloadLength
  | some a =>
    if isValidJumpTarget a.toNat then .responding Config.cmdJumpToAddress (.jumpTo a)
    else refusePoint Config.cmdJumpToAddress .badAddress

/-- JUMP_TO_ADDRESS (R164): the ACK is sent before control leaves. -/
def execJumpToAddress (payload : List Byte) (s : State) : Host.Outcome State Fault Refusal :=
  complete (jumpToAddressPoint payload) s

end Sys2Proof.Machine
end

