-- ==== Sys2Proof/Machine/FlashCommands.lean ====
section
/-! DEFINITION. The commands that change flash: ERASE_FLASH and WRITE_MEMORY (spec/44_commands.md R165, R166). -/

namespace Sys2Proof.Machine

/-- ERASE_FLASH, its checks (R165). -/
def eraseFlashPoint (payload : List Byte) (s : State) : Point :=
  match bytePair payload with
  | none => refusePoint Config.cmdEraseFlash .badPayloadLength
  | some (sector, count) => gatedPoint Config.cmdEraseFlash .flash .eraseFailed (eraseGate sector count s.prot)

/-- ERASE_FLASH (R165). -/
def execEraseFlash (payload : List Byte) (s : State) : Host.Outcome State Fault Refusal :=
  complete (eraseFlashPoint payload s) s

/-- WRITE_MEMORY, its checks (R166). -/
def writeMemoryPoint (payload : List Byte) (s : State) : Point :=
  match addressData payload with
  | none => refusePoint Config.cmdWriteMemory .badPayloadLength
  | some (addr, data) => gatedPoint Config.cmdWriteMemory .flash .programFailed (writeGate addr.toNat data s.prot)

/-- WRITE_MEMORY (R166). -/
def execWriteMemory (payload : List Byte) (s : State) : Host.Outcome State Fault Refusal :=
  complete (writeMemoryPoint payload s) s

end Sys2Proof.Machine
end

