-- ==== Sys2Proof/Machine/Protection.lean ====
section
/-! DEFINITION. The commands that change sector protection: ENABLE_RW_PROTECT and DISABLE_RW_PROTECT
(spec/44_commands.md R167, R171). -/

namespace Sys2Proof.Machine

/-- ENABLE_RW_PROTECT, its checks (R167). -/
def enableRwProtectPoint (payload : List Byte) (s : State) : Point :=
  match bytePair payload with
  | none => refusePoint Config.cmdEnableRwProtect .badPayloadLength
  | some (mask, code) =>
    match protModeOf code with
    | none => refusePoint Config.cmdEnableRwProtect .badMode
    | some mode => gatedPoint Config.cmdEnableRwProtect .option .applyFailed (protectGate mask mode s.prot)

/-- ENABLE_RW_PROTECT (R167). -/
def execEnableRwProtect (payload : List Byte) (s : State) : Host.Outcome State Fault Refusal :=
  complete (enableRwProtectPoint payload s) s

/-- DISABLE_RW_PROTECT, its checks (R171). -/
def disableRwProtectPoint (payload : List Byte) : Point :=
  match noOperands payload with
  | none => refusePoint Config.cmdDisableRwProtect .badPayloadLength
  | some () => gatedPoint Config.cmdDisableRwProtect .option .applyFailed (.ok disableRequests)

/-- DISABLE_RW_PROTECT (R171). -/
def execDisableRwProtect (payload : List Byte) (s : State) : Host.Outcome State Fault Refusal :=
  complete (disableRwProtectPoint payload) s

end Sys2Proof.Machine
end

