-- ==== Sys2Proof/Machine/Query.lean ====
section
/-! DEFINITION. The query commands: they read inputs or state and answer (spec/44_commands.md R160 to R163, R168 to
R170). Each has the point its checks lead to, and its meaning: the way from there to its end. -/

namespace Sys2Proof.Machine

/-- The command codes in the order of the table (R161). -/
def helpBody : List Byte :=
  [Config.cmdGetVersion, Config.cmdGetHelp, Config.cmdGetChipId, Config.cmdGetProtectionStatus,
   Config.cmdJumpToAddress, Config.cmdEraseFlash, Config.cmdWriteMemory, Config.cmdEnableRwProtect,
   Config.cmdReadMemory, Config.cmdReadSectorProtectionStatus, Config.cmdReadOtp, Config.cmdDisableRwProtect]

/-- GET_VERSION, its checks (R160). -/
def getVersionPoint (payload : List Byte) : Point := queryPoint Config.cmdGetVersion payload [Config.blVersion]

/-- GET_VERSION (R160). -/
def execGetVersion (payload : List Byte) (s : State) : Host.Outcome State Fault Refusal :=
  complete (getVersionPoint payload) s

/-- GET_HELP, its checks (R161). -/
def getHelpPoint (payload : List Byte) : Point := queryPoint Config.cmdGetHelp payload helpBody

/-- GET_HELP (R161). -/
def execGetHelp (payload : List Byte) (s : State) : Host.Outcome State Fault Refusal :=
  complete (getHelpPoint payload) s

/-- GET_CHIP_ID, its checks (R162). -/
def getChipIdPoint (payload : List Byte) : Point := queryPoint Config.cmdGetChipId payload (bytesLe16 Config.chipId)

/-- GET_CHIP_ID (R162). -/
def execGetChipId (payload : List Byte) (s : State) : Host.Outcome State Fault Refusal :=
  complete (getChipIdPoint payload) s

/-- GET_PROTECTION_STATUS, its checks (R163). -/
def getProtectionStatusPoint (payload : List Byte) : Point :=
  queryPoint Config.cmdGetProtectionStatus payload [Config.rdpByte]

/-- GET_PROTECTION_STATUS (R163). -/
def execGetProtectionStatus (payload : List Byte) (s : State) : Host.Outcome State Fault Refusal :=
  complete (getProtectionStatusPoint payload) s

/-- READ_SECTOR_PROTECTION_STATUS, its checks (R169). -/
def readSectorProtectionStatusPoint (payload : List Byte) (s : State) : Point :=
  queryPoint Config.cmdReadSectorProtectionStatus payload
    [(readProtectionStatus s).mask, modeCode (readProtectionStatus s).mode]

/-- READ_SECTOR_PROTECTION_STATUS (R169). -/
def execReadSectorProtectionStatus (payload : List Byte) (s : State) : Host.Outcome State Fault Refusal :=
  complete (readSectorProtectionStatusPoint payload s) s

/-- READ_OTP, its checks (R170). -/
def readOtpPoint (payload : List Byte) : Point := queryPoint Config.cmdReadOtp payload Config.otpBytes

/-- READ_OTP (R170). -/
def execReadOtp (payload : List Byte) (s : State) : Host.Outcome State Fault Refusal :=
  complete (readOtpPoint payload) s

/-- READ_MEMORY, its checks (R168). -/
def readMemoryPoint (payload : List Byte) (s : State) : Point :=
  match addressCount payload with
  | none => refusePoint Config.cmdReadMemory .badPayloadLength
  | some (addr, n) =>
    match readGate addr.toNat n s.prot with
    | .error e => refusePoint Config.cmdReadMemory e
    | .ok () => readPoint Config.cmdReadMemory addr.toNat [] n

/-- READ_MEMORY (R168). -/
def execReadMemory (payload : List Byte) (s : State) : Host.Outcome State Fault Refusal :=
  complete (readMemoryPoint payload s) s

end Sys2Proof.Machine
end

