-- ==== Sys2Proof/Machine/Dispatch.lean ====
section
/-! DEFINITION. The command match (spec/43_dispatcher.md R149): one arm per command of the closed set. -/

namespace Sys2Proof.Machine

def exec (i : Instr) (s : State) : Host.Outcome State Fault Refusal :=
  match i with
  | .getVersion payload => Sys2Proof.Machine.execGetVersion payload s
  | .getHelp payload => Sys2Proof.Machine.execGetHelp payload s
  | .getChipId payload => Sys2Proof.Machine.execGetChipId payload s
  | .getProtectionStatus payload => Sys2Proof.Machine.execGetProtectionStatus payload s
  | .jumpToAddress payload => Sys2Proof.Machine.execJumpToAddress payload s
  | .eraseFlash payload => Sys2Proof.Machine.execEraseFlash payload s
  | .writeMemory payload => Sys2Proof.Machine.execWriteMemory payload s
  | .enableRwProtect payload => Sys2Proof.Machine.execEnableRwProtect payload s
  | .readMemory payload => Sys2Proof.Machine.execReadMemory payload s
  | .readSectorProtectionStatus payload => Sys2Proof.Machine.execReadSectorProtectionStatus payload s
  | .readOtp payload => Sys2Proof.Machine.execReadOtp payload s
  | .disableRwProtect payload => Sys2Proof.Machine.execDisableRwProtect payload s

end Sys2Proof.Machine
end

