-- ==== Sys2Proof/Machine/Fetch.lean ====
section
/-! DEFINITION. The receive loop and the fetch of a command from a received frame (spec/43_dispatcher.md R146 to R148). -/

namespace Sys2Proof.Machine

/-- `step AwaitingLength` (R146): blocks while no byte is available. -/
def receiveLength (s : State) : Host.Outcome State Fault Refusal :=
  match s.rx with
  | [] => .fault .noReceiveByte
  | l :: rest => .next (s.beginFrame l rest)

/-- `step AwaitingFrame` (R147): one more byte, or the frame is complete. -/
def receiveFrame (s : State) : Host.Outcome State Fault Refusal :=
  if s.rxcount < s.len.toNat then
    match s.rx with
    | [] => .fault .noReceiveByte
    | b :: rest => .next (s.takeFrameByte b rest)
  else .next (s.enter .dispatch)

/-- What the framing check and the opcode decoder make of the received frame. -/
inductive Fetched where
  /-- A valid command, and the state with the parse record in `pkt`. -/
  | instr (i : Instr) (s : State)
  /-- A NACK, for this reason. -/
  | rejected (e : ErrorCode) (s : State)
  /-- An unwritten buffer cell would be read. -/
  | stopped (f : Fault)

/-- `S.pkt <- Parse(S.len)` once the bytes are read: the record, and the accumulator `Verify` leaves (R148,
spec/41_frame.md R100). -/
def State.parsed (s : State) (cells : List Byte) : State :=
  (s.setCrc (crcAccumulate ((packetOf cells).command :: (packetOf cells).payload))).setPacket (some (packetOf cells))

/-- Parse, framing check and opcode decoding of the frame in the buffer (R148, R149, R151). A frame of an illegal length
reads no cell (spec/41_frame.md R101, R102). -/
def fetch (s : State) : Fetched :=
  match lengthError s.len.toNat with
  | some e => .rejected e (s.setPacket none)
  | none =>
    match cellsOf s.rxbuf s.len.toNat with
    | none => .stopped .unwrittenCell
    | some cells =>
      match instrOfPacket (packetOf cells) with
      | .error e => .rejected e (s.parsed cells)
      | .ok i => .instr i (s.parsed cells)

/-- The buffer that holds the bytes `bs` from cell 0 on. -/
def bufferOf (bs : List Byte) : Vector (Option Byte) Config.rxCap :=
  Vector.ofFn (fun (j : Fin Config.rxCap) => bs[j.val]?)

/-- The state with a frame fully received and about to be dispatched. -/
def State.withFrame (s : State) : List Byte → State
  | [] => s
  | l :: bs =>
    { s with
      len := l, rxcount := l.toNat, rxbuf := bufferOf bs, phase := .dispatch, point := none, resetIn := [] }

end Sys2Proof.Machine
end

