-- ==== Sys2Proof/Machine/Progress.lean ====
section
/-! DEFINITION. The step inside Dispatch, and the step by phase (spec/43_dispatcher.md R145). -/

namespace Sys2Proof.Machine

/-- The point a command's checks lead to (spec/44_commands.md). `exec` is the way from there to the command's end. -/
def commandPoint (i : Instr) (s : State) : Point :=
  match i with
  | .getVersion p => getVersionPoint p
  | .getHelp p => getHelpPoint p
  | .getChipId p => getChipIdPoint p
  | .getProtectionStatus p => getProtectionStatusPoint p
  | .jumpToAddress p => jumpToAddressPoint p
  | .eraseFlash p => eraseFlashPoint p s
  | .writeMemory p => writeMemoryPoint p s
  | .enableRwProtect p => enableRwProtectPoint p s
  | .readMemory p => readMemoryPoint p s
  | .readSectorProtectionStatus p => readSectorProtectionStatusPoint p s
  | .readOtp p => readOtpPoint p
  | .disableRwProtect p => disableRwProtectPoint p

/-- One step from a point; the state stands at the point after it. -/
def advance (p : Point) (s : State) : Host.Outcome State Fault Refusal :=
  match tick p s with
  | .next (q, s') => .next (s'.stand q)
  | .fault f => .fault f
  | .refused r => .refused r

/-- The first step of a command (spec/43_dispatcher.md R149): its checks and its first request or read. A command with
neither ends in this step. -/
def begin (i : Instr) (s : State) : Host.Outcome State Fault Refusal :=
  match commandPoint i s with
  | .responding _ _ => exec i s
  | p => advance p s

/-- A step in Dispatch (R145, R148): parse and check a frame and take the first step of its command, or the next step
from the point reached. -/
def dispatchStep (s : State) : Host.Outcome State Fault Refusal :=
  match s.point with
  | some p => advance p (s.stand none)
  | none =>
    match fetch s with
    | .instr i s' => begin i s'
    | .rejected e s' => advance (.rejecting e) s'
    | .stopped f => .fault f

/-- The step the phase chooses (R145). -/
def phaseStep (s : State) : Host.Outcome State Fault Refusal :=
  match s.phase with
  | .inactive => .fault .inactive
  | .jumped a => .fault (.jumped a)
  | .halted r => .fault (.halted r)
  | .awaitingLength => receiveLength s
  | .awaitingFrame => receiveFrame s
  | .dispatch => dispatchStep s

end Sys2Proof.Machine
end

