-- ==== Sys2Proof/Machine/Step.lean ====
section
/-! DEFINITION. The step of the block (spec/43_dispatcher.md R145). -/

namespace Sys2Proof.Machine

/-- One step: a reset that takes its place (spec/70_reset_and_hazards.md R195), or the step the phase chooses (R145). -/
def step (s : State) : Host.Outcome State Fault Refusal :=
  match s.resetDue with
  | some enter => .next (s.stepped.resetSequence enter)
  | none => phaseStep s.stepped

/-- `s` with the frame of a table word received, so that the next step runs it (notes/assumptions/15.md). -/
def State.withFetchWord (s : State) (nbits w : Nat) : State := s.withFrame (tableFrame nbits w)

end Sys2Proof.Machine
end

