-- ==== Sys2Proof/Safety.lean ====
section
/-! DEFINITION. The invariant of every run, the stops that only wait, and the ends of a run, in the terms the statements
use. -/

namespace Sys2Proof.Machine

/-- The first `n` cells of the buffer are written; past RX_CAP there is nothing to write (spec/10_state.md R19). -/
def cellsWritten (buf : Vector (Option Byte) Config.rxCap) (n : Nat) : Prop := ∀ i b, i < n → buf[i]? = some b → b.isSome

/-- The lock is closed (spec/10_state.md R22). -/
def State.locked (s : State) : Lock → Bool
  | .flash => s.flashLocked
  | .option => s.optLocked

/-- Both locks are closed (spec/10_state.md R22). -/
def State.lockedUp (s : State) : Prop := s.flashLocked = true ∧ s.optLocked = true

/-- This lock is open and the other closed. -/
def State.onlyOpen (s : State) : Lock → Prop
  | .flash => s.flashLocked = false ∧ s.optLocked = true
  | .option => s.flashLocked = true ∧ s.optLocked = false

/-- The lock a command makes its requests under (spec/42_flash.md R117). -/
def lockOf (command : Byte) : Option Lock :=
  if command = Config.cmdEraseFlash ∨ command = Config.cmdWriteMemory then some .flash
  else if command = Config.cmdEnableRwProtect ∨ command = Config.cmdDisableRwProtect then some .option
  else none

/-- A request the block issues under the lock: what it works on exists, and what it applies is a protection status
(spec/10_state.md R27, R21). -/
def PortRequest.under (r : PortRequest) (lock : Lock) : Prop :=
  match lock, r with
  | .flash, .eraseSector k => k < Config.numSectors
  | .flash, .massErase => True
  | .flash, .programByte a _ => classify a = .nonVolatile
  | .option, .optApply m md => (ProtectionStatus.mk m md).wf = true
  | _, _ => False

/-- What holds at a point inside Dispatch: the locks, and what is left to do (spec/42_flash.md R117). -/
def Point.inv (p : Point) (s : State) : Prop :=
  match p with
  | .unlocking c lock failure body =>
    s.lockedUp ∧ lockOf c = some lock ∧ errorKind failure = .operationFailure ∧ ∀ r ∈ body, r.under lock
  | .working c lock failure body =>
    s.onlyOpen lock ∧ lockOf c = some lock ∧ errorKind failure = .operationFailure ∧ ∀ r ∈ body, r.under lock
  | .relocking c lock o =>
    s.onlyOpen lock ∧ lockOf c = some lock ∧
      (o = .ok [] ∨ ∃ e, o = .operationFailure e ∧ errorKind e = .operationFailure)
  | .reading _ a n _ => s.lockedUp ∧ ∀ i, i < n → classify (a + i) ≠ .unknown
  | .responding c o =>
    (o = .fatal .relockFailed ∧ ∃ lock, lockOf c = some lock ∧ s.onlyOpen lock) ∨
      (s.lockedUp ∧ ((∃ body, o = .ok body) ∨ ∃ e, o = .operationFailure e ∧ errorKind e = .operationFailure))
  | .rejecting _ => s.lockedUp

/-- The command a point belongs to; the NACK of a frame belongs to none. -/
def Point.command : Point → Option Byte
  | .unlocking c _ _ _ | .working c _ _ _ | .relocking c _ _ | .reading c _ _ _ | .responding c _ => some c
  | .rejecting _ => none

/-- The invariant: what the spec says holds at every point between two steps. -/
structure State.Inv (s : State) : Prop where
  /-- The flash array is in its canonical form. -/
  flash : Memory.wf s.flash
  /-- `mode == None` if and only if `mask == 0` (spec/10_state.md R21). -/
  prot : s.prot.wf = true
  /-- Outside a command only a halt leaves a lock open (spec/10_state.md R22, spec/42_flash.md R117). -/
  locks : (∀ r, s.phase ≠ .halted r) → s.point = none → s.lockedUp
  /-- A point is one of Dispatch, of the command in the parse record, and what holds there holds. -/
  point : ∀ p, s.point = some p → s.phase = .dispatch ∧ p.inv s ∧ ∃ k, s.pkt = some k ∧ p.command = some k.command
  /-- `0 ≤ S.rxcount ≤ S.len` once a length byte is received (spec/10_state.md R18). -/
  count : s.phase = .awaitingFrame → s.rxcount ≤ s.len.toNat
  /-- The bytes received so far are in the buffer (spec/10_state.md R19). -/
  cells : s.phase = .awaitingFrame → cellsWritten s.rxbuf s.rxcount
  /-- A frame reaches Dispatch complete (spec/43_dispatcher.md R147). -/
  frame : s.phase = .dispatch → s.rxcount = s.len.toNat ∧ cellsWritten s.rxbuf s.len.toNat
  /-- The parse record is well-formed (spec/41_frame.md R105). -/
  packet : ∀ p, s.pkt = some p → p.wf = true
  /-- No packet outlives its dispatch, but for one that ended the run (spec/41_frame.md R105, spec/43_dispatcher.md
  R150). -/
  consumed : (∀ a, s.phase ≠ .jumped a) → (∀ r, s.phase ≠ .halted r) → s.point = none → s.pkt = none

/-- The faults that are the spec's own lack of an enabled step: terminal phases, a blocked receive, a port that never
answers. The others are violations the spec says never happen (spec/10_state.md R19, R27, R28). -/
def Fault.isSpecStop : Fault → Bool
  | .inactive => true
  | .jumped _ => true
  | .halted _ => true
  | .noReceiveByte => true
  | .portNeverAnswers _ => true
  | .portPrecondition _ => false
  | .unwrittenCell => false
  | .unknownAddress _ => false

/-- A terminal phase (spec/43_dispatcher.md R154). -/
def Phase.isTerminal : Phase → Bool
  | .inactive => true
  | .jumped _ => true
  | .halted _ => true
  | .awaitingLength => false
  | .awaitingFrame => false
  | .dispatch => false

/-- The block waits between frames with no byte available (spec/70_reset_and_hazards.md R211). -/
def State.idle (s : State) : Prop := s.phase = .awaitingLength ∧ s.rx = []

/-- `n` steps of the block, up to the first that has no next state. -/
def run : Nat → State → Host.Outcome State Fault Refusal
  | 0, s => .next s
  | n + 1, s =>
    match step s with
    | .next s' => run n s'
    | .fault f => .fault f
    | .refused r => .refused r

/-- The flash port's `k`-th answer from here on, counting from 0. -/
def PortScript.answer (p : PortScript) (k : Nat) : PortAnswer := p.next.getD k p.thereafter

/-- The script after `k` answers. -/
def PortScript.after (p : PortScript) (k : Nat) : PortScript := ⟨p.next.drop k, p.thereafter⟩

/-- The next `n` requests are answered `ok`. -/
def State.answersOk (s : State) (n : Nat) : Prop := ∀ k, k < n → s.port.answer k = .ok

/-- The state after an ACK `A5 command body` and the return to AwaitingLength, nothing else changed
(spec/41_frame.md R106, spec/43_dispatcher.md R150). -/
def State.acked (s : State) (command : Byte) (body : List Byte) : State :=
  { s with tx := s.tx ++ 0xA5 :: command :: body, lastError := none, pkt := none, phase := .awaitingLength }

/-- The state after a NACK `7F` for the reason `e` and the return to AwaitingLength, nothing else changed
(spec/60_exceptions.md R182). -/
def State.nacked (s : State) (e : ErrorCode) : State :=
  { s with tx := s.tx ++ [0x7F], lastError := some e, pkt := none, phase := .awaitingLength }

/-- The state after these flash-port requests, each answered, but for their effects. -/
def State.requested (s : State) (rs : List PortRequest) : State :=
  { s with requests := s.requests ++ rs, port := s.port.after rs.length }

/-- The command's checks pass, and these are its requests between the unlock and the relock of its lock
(spec/42_flash.md R116, R117). -/
def operation (i : Instr) (s : State) (lock : Lock) (body : List PortRequest) : Prop :=
  match i with
  | .eraseFlash p =>
    lock = .flash ∧ ∃ sector count, bytePair p = some (sector, count) ∧ eraseGate sector count s.prot = .ok body
  | .writeMemory p =>
    lock = .flash ∧ ∃ addr data, addressData p = some (addr, data) ∧ writeGate addr.toNat data s.prot = .ok body
  | .enableRwProtect p =>
    lock = .option ∧ ∃ mask code mode, bytePair p = some (mask, code) ∧ protModeOf code = some mode ∧
      protectGate mask mode s.prot = .ok body
  | .disableRwProtect p => lock = .option ∧ p = [] ∧ body = disableRequests
  | .getVersion _ | .getHelp _ | .getChipId _ | .getProtectionStatus _ | .jumpToAddress _ | .readMemory _
  | .readSectorProtectionStatus _ | .readOtp _ => False

/-- The instruction may store to the address: ERASE_FLASH to the sectors of its span, or all of NonVolatile for a mass
erase (spec/42_flash.md R119); WRITE_MEMORY to `addr .. addr+n−1` (R125); no other instruction to any. -/
def storesTo (i : Instr) (a : Nat) : Prop :=
  match i with
  | .eraseFlash p =>
    ∃ sector count, bytePair p = some (sector, count) ∧
      ((sector = Config.massEraseSentinel ∧ classify a = .nonVolatile) ∨
       (∃ k, sectorOf a = some k ∧ sector.toNat ≤ k ∧ k < sector.toNat + eraseSpan sector.toNat count.toNat))
  | .writeMemory p =>
    ∃ addr data, addressData p = some (addr, data) ∧ addr.toNat ≤ a ∧ a < addr.toNat + data.length
  | .getVersion _ | .getHelp _ | .getChipId _ | .getProtectionStatus _ | .jumpToAddress _ | .enableRwProtect _
  | .readMemory _ | .readSectorProtectionStatus _ | .readOtp _ | .disableRwProtect _ => False

/-- The instruction changes flash (spec/44_commands.md R165, R166). -/
def changesFlash : Instr → Bool
  | .eraseFlash _ | .writeMemory _ => true
  | .getVersion _ | .getHelp _ | .getChipId _ | .getProtectionStatus _ | .jumpToAddress _ | .enableRwProtect _
  | .readMemory _ | .readSectorProtectionStatus _ | .readOtp _ | .disableRwProtect _ => false

/-- The instruction changes sector protection (spec/44_commands.md R167, R171). -/
def changesProtection : Instr → Bool
  | .enableRwProtect _ | .disableRwProtect _ => true
  | .getVersion _ | .getHelp _ | .getChipId _ | .getProtectionStatus _ | .jumpToAddress _ | .eraseFlash _
  | .writeMemory _ | .readMemory _ | .readSectorProtectionStatus _ | .readOtp _ => false

/-- No reset lands during a flash-port request. -/
def State.noResetDuringRequest (s : State) : Prop := ∀ k enter, s.port.answer k ≠ .reset enter

end Sys2Proof.Machine
end

