-- ==== Sys2Proof/Certificates/Slice0/Obligations.lean ====
section
/-! DEFINITION. The statements for the provers. A docstring names the rule of spec/ a statement
formalises; `spec decision D<n>` is a choice spec/92_eei_decisions.md marks as the spec's own (ledger row 100 + n, here
written notes/assumptions/1xx.md). -/

open Sys2Proof Sys2Proof.Machine

/-! ### Encoding and decoding -/

/-- Decoding the frame R85 gives for a well-formed instruction gives it back, at every payload the encoding admits, and
leaves the rest of the stream. Rests on spec decision D8. -/
def Obligations.DecodeOfEncodeIsIdentity : Prop :=
  ∀ (i : Instr) (rest : List Byte), i.WellFormed → decode (encode i ++ rest) = .instr i rest

/-- Whatever decodes to an instruction is exactly its R85 encoding followed by the rest, and the instruction is
well-formed. Rests on spec decision D8. -/
def Obligations.EncodeOfDecodeIsIdentity : Prop :=
  ∀ (i : Instr) (bs rest : List Byte), decode bs = .instr i rest → bs = encode i ++ rest ∧ i.WellFormed

/-- Frames written out byte by byte in the spec's vectors decode to the commands they stand for. Rests on spec decisions
D3, D8. -/
def Obligations.SpecFramesDecode : Prop :=
  decode [0x05, 0x51, 0xCB, 0x6B, 0x52, 0xBB] = .instr (.getVersion []) [] ∧
  decode [0x09, 0x55, 0x00, 0x00, 0x02, 0x08, 0xC8, 0xB6, 0x50, 0x28] =
    .instr (.jumpToAddress [0x00, 0x00, 0x02, 0x08]) [] ∧
  decode [0x07, 0x56, 0x05, 0x01, 0x0B, 0x1F, 0x74, 0x38] = .instr (.eraseFlash [0x05, 0x01]) [] ∧
  decode [0x07, 0x58, 0x20, 0x01, 0xA5, 0x3F, 0x2B, 0xF9] = .instr (.enableRwProtect [0x20, 0x01]) [] ∧
  decode [0x05, 0x51, 0xCA, 0x6B, 0x52, 0xBB] = .rejected .badChecksum [] ∧
  decode [0x05, 0x50, 0x7C, 0x76, 0x93, 0xBF] = .rejected .unknownCommand []

/-- R74: the opcode map. A command byte has an instruction exactly if it is one of 0x51 .. 0x5C, no two commands share a
code, and only a record with `checksum_ok` is decoded. Rests on spec decision D8. -/
def Obligations.OpcodeByteIsDecodedWhole : Prop :=
  (∀ (c : Byte) (p : List Byte), instrOf c p = none ↔ c.toNat < 0x51 ∨ 0x5C < c.toNat) ∧
  (∀ (c : Byte) (p : List Byte) (i : Instr), instrOf c p = some i ↔ i.code = c ∧ i.payload = p) ∧
  (∀ (p : Packet) (i : Instr), instrOfPacket p = .ok i → p.checksumOk = true)

/-- R100, R101, R102: a frame that is too short or too long is no packet, and no buffer cell is read; any other frame is
split into the command, the payload and the checksum, and the flag says whether the checksum matches. Rests on spec
decision D5. -/
def Obligations.ParseSplitsTheFrame : Prop :=
  (∀ s : State, s.len.toNat + 1 < 6 → fetch s = .rejected .shortFrame (s.setPacket none)) ∧
  (∀ s : State, 197 < s.len.toNat - 5 → fetch s = .rejected .oversizeFrame (s.setPacket none)) ∧
  (∀ (c b0 b1 b2 b3 : Byte) (p : List Byte), p.length ≤ 197 →
    parseFrame (p.length + 5) (c :: p ++ [b0, b1, b2, b3]) =
      .ok { command := c, payload := p, payloadLen := p.length, checksum := le32 b0 b1 b2 b3,
            checksumOk := crc32 (c :: p) == le32 b0 b1 b2 b3 })

/-! ### Integrity Engine -/

/-- R90: the computation starts from CRC_INIT, and each byte enters bits 7..0 and is followed by 32 shifts with the
polynomial 0x04C11DB7; the final XOR is with 0. Rests on spec decision D3. -/
def Obligations.CrcFollowsItsPseudocode : Prop :=
  crc32 [] = 0xFFFFFFFF ∧
  (∀ (data : List Byte) (b : Byte), crc32 (data ++ [b]) = crcShifts 32 (crc32 data ^^^ b.setWidth 32)) ∧
  (∀ (n : Nat) (acc : Word), crcShifts 0 acc = acc ∧ crcShifts (n + 1) acc = crcShifts n (crcShift acc)) ∧
  (∀ acc : Word, (acc.getLsbD 31 = true → crcShift acc = (acc <<< 1) ^^^ 0x04C11DB7) ∧
    (acc.getLsbD 31 = false → crcShift acc = acc <<< 1))

/-- R94: feeding each byte as a 32-bit word is the bytewise CRC-32/MPEG-2 of that word's four bytes. Rests on spec
decision D3. -/
def Obligations.CrcEqualsItsBytewiseForm : Prop :=
  ∀ data : List Byte, crc32 data = crc32Mpeg2 (data.flatMap (fun b => [0, 0, 0, b]))

/-- R95: the round trip, and that a change confined to one byte is always detected. Rests on spec decision D3. -/
def Obligations.CrcDetectsEverySingleByteChange : Prop :=
  (∀ data : List Byte, verify (crc32 data) data = true) ∧
  (∀ (pre post : List Byte) (a b : Byte), a ≠ b →
    verify (crc32 (pre ++ a :: post)) (pre ++ b :: post) = false)

/-! ### Address Classifier and sectors -/

/-- R42, R47: the classifier by the region table, on every address, those from 2^32 on among them. Rests on spec decisions
D10, D36. -/
def Obligations.ClassifyFollowsTheRegionTable : Prop :=
  ∀ a : Nat,
    (classify a = .nonVolatile ↔ 0x08000000 ≤ a ∧ a ≤ 0x0807FFFF) ∧
    (classify a = .primaryRam ↔ 0x20000000 ≤ a ∧ a ≤ 0x2001BFFF) ∧
    (classify a = .secondaryRam ↔ 0x2001C000 ≤ a ∧ a ≤ 0x2001FFFF) ∧
    (classify a = .backupRam ↔ 0x40024000 ≤ a ∧ a ≤ 0x40024FFF) ∧
    (2 ^ 32 ≤ a → classify a = .unknown)

/-- R43: a table that passes the check has non-empty ranges inside 32 bits, and no address is in two of them; the
configured table passes. -/
def Obligations.CheckedRegionTableNeverDoubleClassifies : Prop :=
  Config.regionTable.wf = true ∧
  ∀ t : RegionTable, t.wf = true →
    (∀ r ∈ [t.primaryRam, t.secondaryRam, t.nonVolatile, t.backupRam], r.base ≤ r.last ∧ r.last ≤ 0xFFFFFFFF) ∧
    (∀ a : Nat, [t.primaryRam, t.secondaryRam, t.nonVolatile, t.backupRam].countP (fun r => inRange r a) ≤ 1)

/-- R45, R46, R50: the eight sectors with their bases and sizes; every NonVolatile address is in exactly one sector, the one
`sector_of` gives; `sector_for` is none exactly past the last sector. Rests on spec decision D11. -/
def Obligations.SectorsTileNonVolatile : Prop :=
  (Config.sectorTable.map (fun x => (x.number, x.base, x.size)) =
    [(0, 0x08000000, 0x4000), (1, 0x08004000, 0x4000), (2, 0x08008000, 0x4000), (3, 0x0800C000, 0x4000),
     (4, 0x08010000, 0x10000), (5, 0x08020000, 0x20000), (6, 0x08040000, 0x20000), (7, 0x08060000, 0x20000)]) ∧
  (∀ k : Nat, k < 8 → ∃ x, sectorFor k = some x ∧ Config.sectorTable[k]? = some x ∧ sectorBase k = x.base ∧
    sectorSize k = x.size) ∧
  (∀ a : Nat, classify a = .nonVolatile → ∃ k, sectorOf a = some k ∧ k < 8 ∧
    (∀ j, j < 8 → (sectorBase j ≤ a ∧ a ≤ sectorBase j + sectorSize j - 1 ↔ j = k))) ∧
  (∀ a k : Nat, sectorOf a = some k → classify a = .nonVolatile) ∧
  (∀ n : Nat, sectorFor n = none ↔ 8 ≤ n)

/-- R51: a range has the class of its addresses if they agree and is Unknown if they differ. Rests on spec decision D35. -/
def Obligations.RangeClassIsTheCommonClass : Prop :=
  ∀ a n : Nat, 1 ≤ n →
    (∀ r, (∀ i, i < n → classify (a + i) = r) → classifyRange a n = r) ∧
    ((∃ i j, i < n ∧ j < n ∧ classify (a + i) ≠ classify (a + j)) → classifyRange a n = .unknown)

/-! ### The step relation -/

/-- When the received bytes decode to an instruction, the step parses them, makes the command's checks, and takes its first
step from the point they lead to; a command with no request and no read to make is run whole, the step being its `exec`.
The first action goes with the parse and the checks by the model's reading (notes/assumptions/1.md), and the kept
accumulator is the model's reading too (notes/assumptions/16.md). -/
def Obligations.StepRunsTheDecodedInstruction : Prop :=
  ∀ (s u : State) (cells : List Byte) (i : Instr),
    s.resetDue = none → s.phase = .dispatch → s.point = none → cellsOf s.rxbuf s.len.toNat = some cells →
    decode (s.len :: cells) = .instr i [] →
    u = { s.stepped with crc := crcAccumulate (i.code :: i.payload), pkt := some (packetOf cells) } →
    step s = advance (commandPoint i u) u ∧ (∀ c o, commandPoint i u = .responding c o → step s = exec i u)

/-- R146: the length byte, any value, or no step while no byte is there. -/
def Obligations.LengthByteBeginsAFrame : Prop :=
  ∀ s : State, s.resetDue = none → s.phase = .awaitingLength →
    (∀ l rest, s.rx = l :: rest → step s = .next
      { s.stepped with
        len := l, rxcount := 0, rxbuf := Vector.replicate Config.rxCap none, phase := .awaitingFrame, rx := rest }) ∧
    (s.rx = [] → step s = .fault .noReceiveByte)

/-- R147: one more frame byte, stored below RX_CAP and discarded past it, or the move to Dispatch. Rests on spec decision
D6. -/
def Obligations.FrameByteIsStoredOrDiscarded : Prop :=
  ∀ s : State, s.resetDue = none → s.phase = .awaitingFrame →
    (∀ b rest, s.rxcount < s.len.toNat → s.rx = b :: rest → ∃ buf,
      step s = .next { s.stepped with rxbuf := buf, rxcount := s.rxcount + 1, rx := rest } ∧
      (∀ j : Nat, j < 202 → buf[j]? = if j = s.rxcount then some (some b) else s.rxbuf[j]?) ∧
      (202 ≤ s.rxcount → buf = s.rxbuf)) ∧
    (s.rxcount < s.len.toNat → s.rx = [] → step s = .fault .noReceiveByte) ∧
    (s.rxcount = s.len.toNat → step s = .next { s.stepped with phase := .dispatch })

/-- From AwaitingLength with a whole frame at the receive port, legal length or not, the block takes exactly its bytes and
reaches Dispatch, with the bytes of a frame of legal length in the buffer. Rests on spec decision D6. -/
def Obligations.WholeFrameIsReceived : Prop :=
  ∀ (s : State) (l : Byte) (bs rest : List Byte),
    s.resetIn = [] → s.phase = .awaitingLength → s.rx = l :: (bs ++ rest) → bs.length = l.toNat →
    ∃ buf, run (bs.length + 2) s =
        .next { s with len := l, rxcount := l.toNat, rxbuf := buf, rx := rest, phase := .dispatch } ∧
      (bs.length ≤ 202 → cellsOf buf bs.length = some bs)

/-- A well-formed instruction whose frame the host sends to a block in AwaitingLength is received whole and then run: the
steps after its reception reach the end its `exec` gives, or the step that stops it. The kept accumulator is the model's
reading (notes/assumptions/16.md). -/
def Obligations.SentInstructionIsRun : Prop :=
  ∀ (s : State) (i : Instr) (rest : List Byte),
    s.resetIn = [] → s.phase = .awaitingLength → s.point = none → i.WellFormed → s.rx = encode i ++ rest →
    ∃ u, run (i.payload.length + 7) s = .next u ∧ u.phase = .dispatch ∧ u.rx = rest ∧ u.flash = s.flash ∧
      u.prot = s.prot ∧ u.flashLocked = s.flashLocked ∧ u.optLocked = s.optLocked ∧ u.tx = s.tx ∧ u.port = s.port ∧
      ∃ p v n, p.command = i.code ∧ p.payload = i.payload ∧ p.checksumOk = true ∧
        v = { u with crc := crcAccumulate (i.code :: i.payload), pkt := some p } ∧
        (∀ t, exec i v = .next t → run n u = .next t) ∧
        (∀ f, exec i v = .fault f → ∃ w, run n u = .next w ∧ step w = .fault f)

/-- R148: a frame that does not parse, or whose checksum does not match, is answered `7F`, and the block awaits the next
length byte; nothing else but the accumulator and the recorded code changes. The value the accumulator keeps is the
model's reading (notes/assumptions/16.md). -/
def Obligations.FramingErrorIsNacked : Prop :=
  ∀ s : State, s.resetDue = none → s.phase = .dispatch → s.point = none →
    (∀ e, lengthError s.len.toNat = some e → step s = .next (s.stepped.nacked e)) ∧
    (∀ cells, lengthError s.len.toNat = none → cellsOf s.rxbuf s.len.toNat = some cells →
      (packetOf cells).checksumOk = false →
      step s = .next { s.stepped.nacked .badChecksum with
        crc := crcAccumulate ((packetOf cells).command :: (packetOf cells).payload) })

/-- R151: a valid frame with a command byte outside the table is answered `7F`, with no other action. The code bounds rest
on spec decision D8, and the value the accumulator keeps is the model's reading (notes/assumptions/16.md). -/
def Obligations.UnknownCommandIsNacked : Prop :=
  ∀ (s : State) (cells : List Byte), s.resetDue = none → s.phase = .dispatch → s.point = none →
    lengthError s.len.toNat = none →
    cellsOf s.rxbuf s.len.toNat = some cells → (packetOf cells).checksumOk = true →
    ((packetOf cells).command.toNat < 0x51 ∨ 0x5C < (packetOf cells).command.toNat) →
    step s = .next { s.stepped.nacked .unknownCommand with
      crc := crcAccumulate ((packetOf cells).command :: (packetOf cells).payload) }

/-- R35: a terminal phase has no step but a reset. -/
def Obligations.TerminalPhaseHasNoStep : Prop :=
  ∀ s : State, s.resetDue = none →
    (s.phase = .inactive → step s = .fault .inactive) ∧
    (∀ a, s.phase = .jumped a → step s = .fault (.jumped a)) ∧
    (∀ r, s.phase = .halted r → step s = .fault (.halted r))

/-- R195, R197: what a reset leaves, in whatever phase it lands and at whatever point of a command, between two of its
requests among them: flash and protection exactly as they were. The values of `len`, `rxcount` and `crc` after it are
free, so nothing is said of them. Rests on spec decision D32. -/
def Obligations.ResetSequenceLeavesResetValues : Prop :=
  ∀ (s : State) (enter : Bool), s.resetDue = some enter → ∃ t, step s = .next t ∧
    t.phase = (if enter then .awaitingLength else .inactive) ∧
    (∀ j : Nat, j < 202 → t.rxbuf[j]? = some none) ∧
    t.flashLocked = true ∧ t.optLocked = true ∧ t.pkt = none ∧ t.tx = [] ∧ t.point = none ∧ t.lastError = none ∧
    t.prot = s.prot ∧ t.flash = s.flash ∧ t.resetIn = s.resetIn.tail

/-! ### The queries -/

/-- R160, R161, R162, R163, R170: with an empty payload the command answers its body, with any other payload `7F`. Rests
on spec decisions D7, D20, D21, D22, D23, D24. -/
def Obligations.IdentityQueriesAnswer : Prop :=
  ∀ s : State,
    exec (.getVersion []) s = .next (s.acked 0x51 [Config.blVersion]) ∧
    exec (.getHelp []) s = .next
      (s.acked 0x52 [0x51, 0x52, 0x53, 0x54, 0x55, 0x56, 0x57, 0x58, 0x59, 0x5A, 0x5B, 0x5C]) ∧
    exec (.getChipId []) s = .next
      (s.acked 0x53 [Config.chipId.extractLsb' 0 8, Config.chipId.extractLsb' 8 8]) ∧
    exec (.getProtectionStatus []) s = .next (s.acked 0x54 [Config.rdpByte]) ∧
    exec (.readOtp []) s = .next (s.acked 0x5B Config.otpBytes) ∧
    (∀ p : List Byte, p ≠ [] →
      exec (.getVersion p) s = .next (s.nacked .badPayloadLength) ∧
      exec (.getHelp p) s = .next (s.nacked .badPayloadLength) ∧
      exec (.getChipId p) s = .next (s.nacked .badPayloadLength) ∧
      exec (.getProtectionStatus p) s = .next (s.nacked .badPayloadLength) ∧
      exec (.readOtp p) s = .next (s.nacked .badPayloadLength))

/-- R169, R129: the reply is the stored mask and the mode code, and nothing is written but the response. Rests on spec
decision D25. -/
def Obligations.SectorProtectionStatusIsReported : Prop :=
  ∀ s : State,
    (s.prot.mode = .none →
      exec (.readSectorProtectionStatus []) s = .next (s.acked 0x5A [s.prot.mask, 0])) ∧
    (s.prot.mode = .write →
      exec (.readSectorProtectionStatus []) s = .next (s.acked 0x5A [s.prot.mask, 1])) ∧
    (s.prot.mode = .readWrite →
      exec (.readSectorProtectionStatus []) s = .next (s.acked 0x5A [s.prot.mask, 2])) ∧
    (∀ p : List Byte, p ≠ [] →
      exec (.readSectorProtectionStatus p) s = .next (s.nacked .badPayloadLength))

/-- R168 on flash: the bytes the flash holds, unless one of them is in a read-protected sector. Rests on spec decisions
D19, D40. -/
def Obligations.ReadMemoryOfFlash : Prop :=
  ∀ (s : State) (b0 b1 b2 b3 n : Byte), 1 ≤ n.toNat →
    (∀ i, i < n.toNat → classify ((le32 b0 b1 b2 b3).toNat + i) = .nonVolatile) →
    ((∀ i k, i < n.toNat → sectorOf ((le32 b0 b1 b2 b3).toNat + i) = some k →
        ¬(s.prot.mask.getLsbD k = true ∧ s.prot.mode = .readWrite)) →
      exec (.readMemory [b0, b1, b2, b3, n]) s = .next (s.acked 0x59
        ((List.range n.toNat).map (fun i => Memory.read s.flash ((le32 b0 b1 b2 b3).toNat + i))))) ∧
    ((∃ i k, i < n.toNat ∧ sectorOf ((le32 b0 b1 b2 b3).toNat + i) = some k ∧
        s.prot.mask.getLsbD k = true ∧ s.prot.mode = .readWrite) →
      exec (.readMemory [b0, b1, b2, b3, n]) s = .next (s.nacked .protectedSector))

/-- R168 on RAM: each byte is a draw of the memory read port, whatever it is, and the draws are counted. Rests on spec
decision D19. -/
def Obligations.ReadMemoryOfRam : Prop :=
  ∀ (s : State) (b0 b1 b2 b3 n : Byte) (r : MemoryRegion), 1 ≤ n.toNat → r ≠ .nonVolatile → r ≠ .unknown →
    (∀ i, i < n.toNat → classify ((le32 b0 b1 b2 b3).toNat + i) = r) →
    exec (.readMemory [b0, b1, b2, b3, n]) s = .next
      ({ s with draws := s.draws + n.toNat }.acked 0x59
        ((List.range n.toNat).map (fun i => Config.drawByte (s.draws + i))))

/-- R168, refusals: a payload that is not five bytes, a count of 0, and a range that is not wholly in one region. Rests on
spec decisions D19, D37. -/
def Obligations.ReadMemoryRefusals : Prop :=
  ∀ s : State,
    (∀ p : List Byte, p.length ≠ 5 → exec (.readMemory p) s = .next (s.nacked .badPayloadLength)) ∧
    (∀ b0 b1 b2 b3 : Byte, exec (.readMemory [b0, b1, b2, b3, 0]) s = .next (s.nacked .badPayloadLength)) ∧
    (∀ b0 b1 b2 b3 n : Byte, 1 ≤ n.toNat → classifyRange (le32 b0 b1 b2 b3).toNat n.toNat = .unknown →
      exec (.readMemory [b0, b1, b2, b3, n]) s = .next (s.nacked .badAddress))

/-! ### The jump -/

/-- R164, R48, R155: the ACK first, then the jump with the address unchanged, for every address of a named region; `7F`
for an Unknown address and for a payload that is not four bytes. Rests on spec decisions D26, D37. -/
def Obligations.JumpLeavesForAValidTarget : Prop :=
  ∀ s : State,
    (∀ b0 b1 b2 b3 : Byte, classify (le32 b0 b1 b2 b3).toNat ≠ .unknown →
      exec (.jumpToAddress [b0, b1, b2, b3]) s = .next
        { s with tx := s.tx ++ [0xA5, 0x55], lastError := none, phase := .jumped (le32 b0 b1 b2 b3) }) ∧
    (∀ b0 b1 b2 b3 : Byte, classify (le32 b0 b1 b2 b3).toNat = .unknown →
      exec (.jumpToAddress [b0, b1, b2, b3]) s = .next (s.nacked .badAddress)) ∧
    (∀ p : List Byte, p.length ≠ 4 → exec (.jumpToAddress p) s = .next (s.nacked .badPayloadLength))

/-- From a state that meets the invariant no step enters Jumped but the dispatch of a JUMP_TO_ADDRESS whose target classifies
in a named region; the target is the little-endian address of its payload. -/
def Obligations.OnlyAValidatedJumpLeaves : Prop :=
  ∀ (s t : State) (a : Word), s.Inv → step s = .next t → t.phase = .jumped a →
    s.phase = .dispatch ∧ s.point = none ∧
      ∃ b0 b1 b2 b3 u, fetch s.stepped = .instr (.jumpToAddress [b0, b1, b2, b3]) u ∧
        a = le32 b0 b1 b2 b3 ∧ classify a.toNat ≠ .unknown

/-! ### The flash port -/

/-- R27: the precondition of each request, and its effect on each answer, on an array in its canonical form. Rests on spec
decisions D16, D30. -/
def Obligations.PortRequestEffects : Prop :=
  ∀ (s : State) (r : PortRequest),
    ((r = .flashUnlock → (portReady s r = true ↔ s.flashLocked = true)) ∧
      (r = .optUnlock → (portReady s r = true ↔ s.optLocked = true)) ∧
      (r = .flashRelock ∨ r = .optRelock → portReady s r = true) ∧
      (∀ k, r = .eraseSector k → (portReady s r = true ↔ s.flashLocked = false ∧ k < 8)) ∧
      (r = .massErase → (portReady s r = true ↔ s.flashLocked = false)) ∧
      (∀ a v, r = .programByte a v → (portReady s r = true ↔ s.flashLocked = false ∧ classify a = .nonVolatile)) ∧
      (∀ m md, r = .optApply m md → (portReady s r = true ↔ s.optLocked = false))) ∧
    (portReady s r = false → request r s = .stopped (.portPrecondition r)) ∧
    (portReady s r = true → s.port.head = .never → request r s = .stopped (.portNeverAnswers r)) ∧
    (portReady s r = true → s.port.head = .ok → ∃ t, request r s = .answered true t ∧
      (r = .flashUnlock → t = { s.requested [r] with flashLocked := false }) ∧
      (r = .flashRelock → t = { s.requested [r] with flashLocked := true }) ∧
      (r = .optUnlock → t = { s.requested [r] with optLocked := false }) ∧
      (r = .optRelock → t = { s.requested [r] with optLocked := true }) ∧
      (∀ m md, r = .optApply m md → t = { s.requested [r] with prot := ⟨m, md⟩ }) ∧
      (∀ k, r = .eraseSector k → t = { s.requested [r] with flash := t.flash } ∧
        ∀ a, Memory.read t.flash a =
          if sectorBase k ≤ a ∧ a < sectorBase k + sectorSize k then 0xFF else Memory.read s.flash a) ∧
      (r = .massErase → t = { s.requested [r] with flash := t.flash } ∧
        ∀ a, Memory.read t.flash a =
          if flashBase ≤ a ∧ a < flashBase + flashSize then 0xFF else Memory.read s.flash a) ∧
      (∀ a v, r = .programByte a v → Memory.wf s.flash →
        t = { s.requested [r] with flash := t.flash, draws := t.draws } ∧
        Memory.read t.flash a =
          (if Memory.read s.flash a = 0xFF then v else Config.drawByte s.draws) ∧
        ∀ x, x ≠ a → Memory.read t.flash x = Memory.read s.flash x)) ∧
    (portReady s r = true → s.port.head = .fail → ∃ t, request r s = .answered false t ∧
      (r = .flashUnlock ∨ r = .flashRelock ∨ r = .optUnlock ∨ r = .optRelock → t = s.requested [r]) ∧
      (∀ m md, r = .optApply m md → t = { s.requested [r] with prot := t.prot, draws := s.draws + 1 } ∧
        t.prot.wf = true) ∧
      (∀ k, r = .eraseSector k → t = { s.requested [r] with flash := t.flash, draws := s.draws + sectorSize k } ∧
        ∀ a, Memory.read t.flash a =
          if sectorBase k ≤ a ∧ a < sectorBase k + sectorSize k then Config.drawByte (s.draws + (a - sectorBase k))
          else Memory.read s.flash a) ∧
      (r = .massErase → t = { s.requested [r] with flash := t.flash, draws := s.draws + flashSize } ∧
        ∀ a, Memory.read t.flash a =
          if flashBase ≤ a ∧ a < flashBase + flashSize then Config.drawByte (s.draws + (a - flashBase))
          else Memory.read s.flash a) ∧
      (∀ a v, r = .programByte a v → t = { s.requested [r] with flash := t.flash, draws := s.draws + 1 } ∧
        ∀ x, Memory.read t.flash x = if x = a then Config.drawByte s.draws else Memory.read s.flash x))

/-- R203: a reset during a request leaves draws where the request was working, nothing else of flash and protection
changed, and the block in its reset state. That a reset during an unlock or a relock leaves flash and protection alone
is the model's reading (notes/assumptions/17.md). Rests on spec decision D31. -/
def Obligations.ResetDuringARequestLeavesDraws : Prop :=
  ∀ (s : State) (r : PortRequest) (enter : Bool), portReady s r = true → s.port.head = .reset enter →
    ∃ t, request r s = .reset t ∧
      t.phase = (if enter then .awaitingLength else .inactive) ∧ t.flashLocked = true ∧ t.optLocked = true ∧
      t.pkt = none ∧ t.tx = [] ∧ t.point = none ∧ (∀ j : Nat, j < 202 → t.rxbuf[j]? = some none) ∧
      ((∀ m md, r ≠ .optApply m md) → t.prot = s.prot) ∧ (s.prot.wf = true → t.prot.wf = true) ∧
      (∀ k, r = .eraseSector k → ∀ a, Memory.read t.flash a =
        if sectorBase k ≤ a ∧ a < sectorBase k + sectorSize k then Config.drawByte (s.draws + (a - sectorBase k))
        else Memory.read s.flash a) ∧
      (r = .massErase → ∀ a, Memory.read t.flash a =
        if flashBase ≤ a ∧ a < flashBase + flashSize then Config.drawByte (s.draws + (a - flashBase))
        else Memory.read s.flash a) ∧
      (∀ a v, r = .programByte a v → ∀ x, Memory.read t.flash x =
        if x = a then Config.drawByte s.draws else Memory.read s.flash x) ∧
      ((∀ k, r ≠ .eraseSector k) → r ≠ .massErase → (∀ a v, r ≠ .programByte a v) → t.flash = s.flash)

/-- R28: a byte of flash as the flash holds it with nothing changed, and a draw for RAM. For an Unknown address, for which
it is never issued, the model answers a fault, which is the model's reading (notes/assumptions/13.md). Rests on spec decision D19. -/
def Obligations.MemReadByRegion : Prop :=
  ∀ (s : State) (a : Nat),
    (classify a = .nonVolatile → memRead a s = .ok (Memory.read s.flash a, s)) ∧
    (classify a = .primaryRam ∨ classify a = .secondaryRam ∨ classify a = .backupRam →
      memRead a s = .ok (Config.drawByte s.draws, { s with draws := s.draws + 1 })) ∧
    (classify a = .unknown → memRead a s = .error (.unknownAddress a))

/-! ### Erase -/

/-- R119, R120, R165, the refusals: in the order of the checks, a count above 8 for either form, a protected sector
anywhere for a mass erase, a sector that does not exist, a count of 0, a protected sector among those the clamped
range covers, a payload that is not two bytes. Nothing but the response happens. Rests on spec decisions D12, D13,
D37, D40. -/
def Obligations.EraseRefusals : Prop :=
  ∀ (s : State) (sector count : Byte),
    (8 < count.toNat → exec (.eraseFlash [sector, count]) s = .next (s.nacked .countRange)) ∧
    (count.toNat ≤ 8 → sector = 0xFF → (∃ k, k < 8 ∧ s.prot.mask.getLsbD k = true) →
      exec (.eraseFlash [sector, count]) s = .next (s.nacked .protectedSector)) ∧
    (count.toNat ≤ 8 → sector ≠ 0xFF → 8 ≤ sector.toNat →
      exec (.eraseFlash [sector, count]) s = .next (s.nacked .sectorRange)) ∧
    (count.toNat = 0 → sector.toNat < 8 → exec (.eraseFlash [sector, count]) s = .next (s.nacked .countRange)) ∧
    (1 ≤ count.toNat → count.toNat ≤ 8 → sector.toNat < 8 →
      (∃ k, sector.toNat ≤ k ∧ k < sector.toNat + min count.toNat (8 - sector.toNat) ∧
        s.prot.mask.getLsbD k = true) →
      exec (.eraseFlash [sector, count]) s = .next (s.nacked .protectedSector)) ∧
    (∀ p : List Byte, p.length ≠ 2 → exec (.eraseFlash p) s = .next (s.nacked .badPayloadLength))

/-- R119, R121: a ranged erase whose requests are all answered `ok` erases exactly the sectors of the clamped range, in
ascending order, between an unlock and a relock, and is answered `A5 56`. The empty body, the table of 8 sectors, the
order and the erased value 0xFF rest on spec decisions D7, D11, D30, D42. -/
def Obligations.EraseErasesTheClampedRange : Prop :=
  ∀ (s : State) (sector count : Byte) (n : Nat),
    sector.toNat < 8 → 1 ≤ count.toNat → count.toNat ≤ 8 → n = min count.toNat (8 - sector.toNat) →
    (∀ k, sector.toNat ≤ k → k < sector.toNat + n → s.prot.mask.getLsbD k = false) →
    s.flashLocked = true → s.answersOk (n + 2) →
    ∃ m, exec (.eraseFlash [sector, count]) s = .next ((({ s with flash := m }.requested
        (PortRequest.flashUnlock :: (List.range n).map (fun i => PortRequest.eraseSector (sector.toNat + i)) ++
          [PortRequest.flashRelock])).acked 0x56 [])) ∧
      (∀ a k, sectorOf a = some k → sector.toNat ≤ k → k < sector.toNat + n → Memory.read m a = 0xFF) ∧
      (∀ a, (∀ k, sectorOf a = some k → ¬(sector.toNat ≤ k ∧ k < sector.toNat + n)) →
        Memory.read m a = Memory.read s.flash a)

/-- R122: a mass erase is one request; answered `ok` it erases every byte of NonVolatile, leaves protection alone and is
answered `A5 56`. Rests on spec decision D13. -/
def Obligations.MassEraseErasesEverything : Prop :=
  ∀ (s : State) (count : Byte), count.toNat ≤ 8 → (∀ k, k < 8 → s.prot.mask.getLsbD k = false) →
    s.flashLocked = true → s.answersOk 3 →
    ∃ m, exec (.eraseFlash [0xFF, count]) s = .next
        (({ s with flash := m }.requested [.flashUnlock, .massErase, .flashRelock]).acked 0x56 []) ∧
      (∀ a, classify a = .nonVolatile → Memory.read m a = 0xFF) ∧
      (∀ a, classify a ≠ .nonVolatile → Memory.read m a = Memory.read s.flash a)

/-- R124: when the erase of sector `sector + j` fails, the sectors before it are erased, its bytes are draws, those after
it are as before, and the request for it is the last before the relock; when a mass erase fails, every NonVolatile
byte is a draw. The lock is closed and the answer is `7F`. Rests on spec decision D30. -/
def Obligations.EraseFailureStopsAtTheSector : Prop :=
  ∀ (s : State) (sector count : Byte), count.toNat ≤ 8 → s.flashLocked = true → s.port.answer 0 = .ok →
    (∀ n j : Nat, sector.toNat < 8 → 1 ≤ count.toNat → n = min count.toNat (8 - sector.toNat) → j < n →
      (∀ k, sector.toNat ≤ k → k < sector.toNat + n → s.prot.mask.getLsbD k = false) →
      s.answersOk (j + 1) → s.port.answer (j + 1) = .fail → s.port.answer (j + 2) = .ok →
      ∃ m, exec (.eraseFlash [sector, count]) s = .next
          (({ s with flash := m, draws := s.draws + sectorSize (sector.toNat + j) }.requested
            (PortRequest.flashUnlock ::
              (List.range (j + 1)).map (fun i => PortRequest.eraseSector (sector.toNat + i)) ++
              [PortRequest.flashRelock])).nacked .eraseFailed) ∧
        (∀ a k, sectorOf a = some k → sector.toNat ≤ k → k < sector.toNat + j → Memory.read m a = 0xFF) ∧
        (∀ i, i < sectorSize (sector.toNat + j) →
          Memory.read m (sectorBase (sector.toNat + j) + i) = Config.drawByte (s.draws + i)) ∧
        (∀ a, (∀ k, sectorOf a = some k → ¬(sector.toNat ≤ k ∧ k ≤ sector.toNat + j)) →
          Memory.read m a = Memory.read s.flash a)) ∧
    (sector = 0xFF → (∀ k, k < 8 → s.prot.mask.getLsbD k = false) →
      s.port.answer 1 = .fail → s.port.answer 2 = .ok →
      ∃ m, exec (.eraseFlash [sector, count]) s = .next
          (({ s with flash := m, draws := s.draws + flashSize }.requested
            [.flashUnlock, .massErase, .flashRelock]).nacked .eraseFailed) ∧
        (∀ i, i < flashSize → Memory.read m (flashBase + i) = Config.drawByte (s.draws + i)) ∧
        (∀ a, classify a ≠ .nonVolatile → Memory.read m a = Memory.read s.flash a))

/-! ### Write -/

/-- R125, R166, the refusals: a byte outside NonVolatile, a byte in a write-protected sector, a count that is 0 or not the
number of data bytes, a payload shorter than five bytes. Nothing but the response happens. Rests on spec decisions
D14, D15. -/
def Obligations.WriteRefusals : Prop :=
  ∀ (s : State) (b0 b1 b2 b3 n : Byte) (data : List Byte),
    (1 ≤ n.toNat → data.length = n.toNat →
      (∃ i, i < data.length ∧ classify ((le32 b0 b1 b2 b3).toNat + i) ≠ .nonVolatile) →
      exec (.writeMemory (b0 :: b1 :: b2 :: b3 :: n :: data)) s = .next (s.nacked .badAddress)) ∧
    (1 ≤ n.toNat → data.length = n.toNat →
      (∀ i, i < data.length → classify ((le32 b0 b1 b2 b3).toNat + i) = .nonVolatile) →
      (∃ i k, i < data.length ∧ sectorOf ((le32 b0 b1 b2 b3).toNat + i) = some k ∧
        s.prot.mask.getLsbD k = true) →
      exec (.writeMemory (b0 :: b1 :: b2 :: b3 :: n :: data)) s = .next (s.nacked .protectedSector)) ∧
    (n.toNat = 0 ∨ data.length ≠ n.toNat →
      exec (.writeMemory (b0 :: b1 :: b2 :: b3 :: n :: data)) s = .next (s.nacked .badPayloadLength)) ∧
    (∀ p : List Byte, p.length < 5 → exec (.writeMemory p) s = .next (s.nacked .badPayloadLength))

/-- R125: a write whose requests are all answered `ok` programs its bytes in ascending order between an unlock and a
relock and is answered `A5 57`. A byte whose old value was 0xFF holds its new value, and nothing outside the range
changes; of a byte whose old value was another nothing is said, since it holds a draw (R202). Rests on spec decisions
D14, D16. -/
def Obligations.WriteProgramsItsBytes : Prop :=
  ∀ (s : State) (b0 b1 b2 b3 n : Byte) (data : List Byte) (addr : Nat),
    addr = (le32 b0 b1 b2 b3).toNat → 1 ≤ n.toNat → data.length = n.toNat →
    (∀ i, i < data.length → classify (addr + i) = .nonVolatile) →
    (∀ i k, i < data.length → sectorOf (addr + i) = some k → s.prot.mask.getLsbD k = false) →
    s.flashLocked = true → Memory.wf s.flash → s.answersOk (data.length + 2) →
    ∃ m d, exec (.writeMemory (b0 :: b1 :: b2 :: b3 :: n :: data)) s = .next
        (({ s with flash := m, draws := d }.requested
          (PortRequest.flashUnlock :: programRequests addr data ++ [PortRequest.flashRelock])).acked 0x57 []) ∧
      (∀ i b, data[i]? = some b → Memory.read s.flash (addr + i) = 0xFF → Memory.read m (addr + i) = b) ∧
      (∀ a, ¬(addr ≤ a ∧ a < addr + data.length) → Memory.read m a = Memory.read s.flash a)

/-- R126: when the program request of byte `j` fails, the bytes before it keep their new values, byte `j` is a draw, the
bytes after it are as before; the lock is closed and the answer is `7F`. The target bytes hold 0xFF beforehand, so
that each earlier byte has a new value to keep. Rests on spec decision D16. -/
def Obligations.WriteFailureKeepsEarlierBytes : Prop :=
  ∀ (s : State) (b0 b1 b2 b3 n : Byte) (data : List Byte) (addr j : Nat),
    addr = (le32 b0 b1 b2 b3).toNat → data.length = n.toNat → j < data.length →
    (∀ i, i < data.length → classify (addr + i) = .nonVolatile) →
    (∀ i k, i < data.length → sectorOf (addr + i) = some k → s.prot.mask.getLsbD k = false) →
    (∀ i, i < j → Memory.read s.flash (addr + i) = 0xFF) →
    s.flashLocked = true → Memory.wf s.flash → s.answersOk (j + 1) → s.port.answer (j + 1) = .fail →
    s.port.answer (j + 2) = .ok →
    ∃ m, exec (.writeMemory (b0 :: b1 :: b2 :: b3 :: n :: data)) s = .next
        (({ s with flash := m, draws := s.draws + 1 }.requested
          (PortRequest.flashUnlock :: (programRequests addr data).take (j + 1) ++ [PortRequest.flashRelock])).nacked .programFailed) ∧
      (∀ i b, i < j → data[i]? = some b → Memory.read m (addr + i) = b) ∧
      Memory.read m (addr + j) = Config.drawByte s.draws ∧
      (∀ a, ¬(addr ≤ a ∧ a ≤ addr + j) → Memory.read m a = Memory.read s.flash a)

/-! ### Protection -/

/-- R127, R167: enabling protection merges the mask, gives the whole mask the new mode, between an unlock and a relock of
the option interface, and is answered `A5 58`. Rests on spec decisions D17, D18. -/
def Obligations.EnableProtectionMergesTheMask : Prop :=
  ∀ (s : State) (mask : Byte), mask ≠ 0 → s.optLocked = true → s.answersOk 3 →
    exec (.enableRwProtect [mask, 1]) s = .next
      (({ s with prot := ⟨s.prot.mask ||| mask, .write⟩ }.requested
        [.optUnlock, .optApply (s.prot.mask ||| mask) .write, .optRelock]).acked 0x58 []) ∧
    exec (.enableRwProtect [mask, 2]) s = .next
      (({ s with prot := ⟨s.prot.mask ||| mask, .readWrite⟩ }.requested
        [.optUnlock, .optApply (s.prot.mask ||| mask) .readWrite, .optRelock]).acked 0x58 [])

/-- R127, R167, the refusals: an empty mask, a mode byte other than 1 and 2, a payload that is not two bytes. Rests on
spec decisions D18, D37. -/
def Obligations.EnableProtectionRefusals : Prop :=
  ∀ s : State,
    (∀ mode : Byte, mode = 1 ∨ mode = 2 → exec (.enableRwProtect [0, mode]) s = .next (s.nacked .badMask)) ∧
    (∀ mask mode : Byte, mode ≠ 1 → mode ≠ 2 →
      exec (.enableRwProtect [mask, mode]) s = .next (s.nacked .badMode)) ∧
    (∀ p : List Byte, p.length ≠ 2 → exec (.enableRwProtect p) s = .next (s.nacked .badPayloadLength))

/-- R128, R171: disabling protection applies the empty status, whatever was stored, between an unlock and a relock, and is
answered `A5 5C`; any payload byte is refused. Rests on spec decision D17. -/
def Obligations.DisableProtectionClearsIt : Prop :=
  ∀ s : State,
    (s.optLocked = true → s.answersOk 3 →
      exec (.disableRwProtect []) s = .next
        (({ s with prot := ⟨0, .none⟩ }.requested [.optUnlock, .optApply 0 .none, .optRelock]).acked 0x5C [])) ∧
    (∀ p : List Byte, p ≠ [] → exec (.disableRwProtect p) s = .next (s.nacked .badPayloadLength))

/-- A failed apply: the answer is `7F`, the lock is closed, and the status is a draw that keeps the invariant of R21.
Rests on spec decision D17. -/
def Obligations.ApplyFailureLeavesALegalDraw : Prop :=
  ∀ (s : State), s.optLocked = true → s.port.answer 0 = .ok → s.port.answer 1 = .fail → s.port.answer 2 = .ok →
    (∃ p : ProtectionStatus, p.wf = true ∧
      exec (.disableRwProtect []) s = .next
        (({ s with prot := p, draws := s.draws + 1 }.requested
          [.optUnlock, .optApply 0 .none, .optRelock]).nacked .applyFailed)) ∧
    (∀ (mask code : Byte) (mode : ProtMode), mask ≠ 0 → protModeOf code = some mode →
      ∃ p : ProtectionStatus, p.wf = true ∧
        exec (.enableRwProtect [mask, code]) s = .next
          (({ s with prot := p, draws := s.draws + 1 }.requested
            [.optUnlock, .optApply (s.prot.mask ||| mask) mode, .optRelock]).nacked .applyFailed))

/-! ### The lock discipline and its failures -/

/-- R117: an unlock answered `fail` ends the command with `7F`, the lock closed and no other request issued. Rests on spec
decision D29. -/
def Obligations.UnlockFailureIsNacked : Prop :=
  ∀ (s : State) (body : List PortRequest), s.port.head = .fail →
    (∀ sector count : Byte, s.flashLocked = true → eraseGate sector count s.prot = .ok body →
      exec (.eraseFlash [sector, count]) s = .next ((s.requested [.flashUnlock]).nacked .unlockFailed)) ∧
    (∀ (p : List Byte) (addr : Word) (data : List Byte), s.flashLocked = true →
      addressData p = some (addr, data) → writeGate addr.toNat data s.prot = .ok body →
      exec (.writeMemory p) s = .next ((s.requested [.flashUnlock]).nacked .unlockFailed)) ∧
    (∀ (mask code : Byte) (mode : ProtMode), s.optLocked = true → mask ≠ 0 → protModeOf code = some mode →
      exec (.enableRwProtect [mask, code]) s = .next ((s.requested [.optUnlock]).nacked .unlockFailed)) ∧
    (s.optLocked = true →
      exec (.disableRwProtect []) s = .next ((s.requested [.optUnlock]).nacked .unlockFailed))

/-- R184, R117: a relock answered `fail` after a body whose requests were all answered `ok` halts the block, for each of the
four commands that take a lock: no response, RelockFailed recorded, the lock left open. And whenever a command halts the
block, that is what it leaves; that the parse record stays is the model's reading (notes/assumptions/18.md). Rests on
spec decision D28. -/
def Obligations.RelockFailureHaltsWithoutResponse : Prop :=
  (∀ (i : Instr) (s : State) (lock : Lock) (body : List PortRequest), operation i s lock body → s.locked lock = true →
    s.answersOk (body.length + 1) → s.port.answer (body.length + 1) = .fail →
    ∃ t, exec i s = .next t ∧ t.phase = .halted .relockFailed ∧ t.tx = s.tx ∧ t.lastError = some .relockFailed ∧
      t.locked lock = false ∧
      t.requests = s.requests ++ (unlockRequest lock :: body ++ [relockRequest lock])) ∧
  (∀ (i : Instr) (s t : State) (r : FatalReason), exec i s = .next t → t.phase = .halted r →
    t.tx = s.tx ∧ t.rx = s.rx ∧ t.pkt = s.pkt ∧ t.lastError = some .relockFailed ∧
    ((changesFlash i = true ∧ t.flashLocked = false ∧ t.requests.getLast? = some .flashRelock) ∨
     (changesProtection i = true ∧ t.optLocked = false ∧ t.requests.getLast? = some .optRelock)))

/-- R187: a relock failure overrides an earlier failure of the same command, for each of the four commands that take a
lock: when request `j` of the body fails, the relock comes next, and when it fails too there is no NACK and the block
halts with the lock open. For DISABLE_RW_PROTECT the whole state is given, with and without the earlier failure. Rests on
spec decisions D28, D34. -/
def Obligations.RelockFailureOverridesEarlierFailure : Prop :=
  (∀ (i : Instr) (s : State) (lock : Lock) (body : List PortRequest) (j : Nat),
    operation i s lock body → s.locked lock = true → j < body.length →
    s.answersOk (j + 1) → s.port.answer (j + 1) = .fail → s.port.answer (j + 2) = .fail →
    ∃ t, exec i s = .next t ∧ t.phase = .halted .relockFailed ∧ t.tx = s.tx ∧ t.lastError = some .relockFailed ∧
      t.locked lock = false ∧
      t.requests = s.requests ++ (unlockRequest lock :: body.take (j + 1) ++ [relockRequest lock])) ∧
  ∀ (s : State), s.optLocked = true → s.port.answer 0 = .ok → s.port.answer 2 = .fail →
    (s.port.answer 1 = .ok →
      exec (.disableRwProtect []) s = .next
        { s.requested [.optUnlock, .optApply 0 .none, .optRelock] with
          prot := ⟨0, .none⟩, optLocked := false, lastError := some .relockFailed, phase := .halted .relockFailed }) ∧
    (s.port.answer 1 = .fail → ∃ p : ProtectionStatus, p.wf = true ∧
      exec (.disableRwProtect []) s = .next
        { s.requested [.optUnlock, .optApply 0 .none, .optRelock] with
          prot := p, draws := s.draws + 1, optLocked := false, lastError := some .relockFailed,
          phase := .halted .relockFailed })

/-- R186: a request that is never answered leaves no step, for each of the four commands that take a lock: whichever of the
unlock, the body's requests and the relock it is, and the relock that follows a failed one. In a block that stands before
such a request the step stops and nothing before it is lost. Rests on spec decision D28. -/
def Obligations.UnansweredRequestIsStuck : Prop :=
  (∀ (i : Instr) (s : State) (lock : Lock) (body : List PortRequest), operation i s lock body → s.locked lock = true →
    (∀ (j : Nat) (r : PortRequest), (unlockRequest lock :: body ++ [relockRequest lock])[j]? = some r →
      s.answersOk j → s.port.answer j = .never → exec i s = .fault (.portNeverAnswers r)) ∧
    (∀ j : Nat, j < body.length → s.answersOk (j + 1) → s.port.answer (j + 1) = .fail →
      s.port.answer (j + 2) = .never → exec i s = .fault (.portNeverAnswers (relockRequest lock)))) ∧
  (∀ (s : State) (c : Byte) (lock : Lock) (failure : ErrorCode) (r : PortRequest) (rs : List PortRequest)
    (o : ArmOutcome), s.resetDue = none → s.phase = .dispatch → s.port.head = .never →
    (s.point = some (.working c lock failure (r :: rs)) → portReady s r = true →
      step s = .fault (.portNeverAnswers r)) ∧
    (s.point = some (.relocking c lock o) → step s = .fault (.portNeverAnswers (relockRequest lock))))

/-- R117 (b): whenever a command returns with both locks closed before it, both are closed after it, unless the block
halts. -/
def Obligations.LocksAreClosedOnReturn : Prop :=
  ∀ (i : Instr) (s t : State), s.flashLocked = true → s.optLocked = true → exec i s = .next t →
    (∀ r, t.phase ≠ .halted r) → t.flashLocked = true ∧ t.optLocked = true

/-! ### Frames and whole-machine rules -/

/-- Every byte of flash an instruction does not store to is unchanged, whatever the port answers and even if a reset cuts
the command short. The store addresses are those of `storesTo`: the sectors of the erase span, or the data range. -/
def Obligations.FlashFrame : Prop :=
  ∀ (i : Instr) (s t : State) (a : Nat), exec i s = .next t → ¬ storesTo i a →
    Memory.read t.flash a = Memory.read s.flash a

/-- The register frame of the queries, READ_MEMORY and the jump: only the response, the phase, the packet and the recorded
code change, and for READ_MEMORY the draw counter. -/
def Obligations.QueryAndJumpFrame : Prop :=
  ∀ (i : Instr) (s t : State), changesFlash i = false → changesProtection i = false → exec i s = .next t →
    t.flash = s.flash ∧ t.prot = s.prot ∧ t.flashLocked = s.flashLocked ∧ t.optLocked = s.optLocked ∧
    t.len = s.len ∧ t.rxcount = s.rxcount ∧ t.rxbuf = s.rxbuf ∧ t.crc = s.crc ∧ t.rx = s.rx ∧ t.port = s.port ∧
    t.resetIn = s.resetIn ∧ t.point = s.point ∧ t.requests = s.requests ∧ ((∀ p, i ≠ .readMemory p) → t.draws = s.draws)

/-- The register frame of the flash commands: protection never changes; unless a reset cuts the command short, neither do
the option lock, the receive path and the accumulator. -/
def Obligations.FlashCommandFrame : Prop :=
  ∀ (i : Instr) (s t : State), changesFlash i = true → exec i s = .next t →
    t.prot = s.prot ∧
    (s.noResetDuringRequest →
      t.optLocked = s.optLocked ∧ t.len = s.len ∧ t.rxcount = s.rxcount ∧ t.rxbuf = s.rxbuf ∧ t.crc = s.crc ∧
      t.rx = s.rx ∧ t.resetIn = s.resetIn ∧ t.point = s.point)

/-- The register frame of the protection commands: flash never changes; unless a reset cuts the command short, neither do
the flash lock, the receive path and the accumulator. -/
def Obligations.ProtectionCommandFrame : Prop :=
  ∀ (i : Instr) (s t : State), changesProtection i = true → exec i s = .next t →
    t.flash = s.flash ∧
    (s.noResetDuringRequest →
      t.flashLocked = s.flashLocked ∧ t.len = s.len ∧ t.rxcount = s.rxcount ∧ t.rxbuf = s.rxbuf ∧ t.crc = s.crc ∧
      t.rx = s.rx ∧ t.resetIn = s.resetIn ∧ t.point = s.point)

/-- R116: a command that ends in a validation error has issued no flash-port request and changed neither flash, nor
protection, nor a lock. Rests on spec decision D34. -/
def Obligations.ValidationErrorTakesNoAction : Prop :=
  ∀ (i : Instr) (s t : State) (e : ErrorCode), exec i s = .next t → t.lastError = some e →
    errorKind e = .validation →
    t.flash = s.flash ∧ t.prot = s.prot ∧ t.flashLocked = s.flashLocked ∧ t.optLocked = s.optLocked ∧
    t.requests = s.requests ∧ t.port = s.port ∧ t.tx = s.tx ++ [0x7F]

/-- R118: from a state that meets the invariant, no step changes flash but a request under the flash lock of ERASE_FLASH or
WRITE_MEMORY, and none changes protection but a request under the option lock of ENABLE_RW_PROTECT or
DISABLE_RW_PROTECT. The command codes rest on spec decision D8. -/
def Obligations.OnlyTheFlashManagerWrites : Prop :=
  ∀ s t : State, s.Inv → step s = .next t →
    (t.flash ≠ s.flash → s.phase = .dispatch ∧
      (∃ c failure r rs, s.point = some (.working c .flash failure (r :: rs))) ∧
      ∃ k, s.pkt = some k ∧ (k.command = 0x56 ∨ k.command = 0x57)) ∧
    (t.prot ≠ s.prot → s.phase = .dispatch ∧
      (∃ c failure r rs, s.point = some (.working c .option failure (r :: rs))) ∧
      ∃ k, s.pkt = some k ∧ (k.command = 0x58 ∨ k.command = 0x5C))

/-- R153: the steps of every frame that is dispatched come to an end with exactly one response, `7F` or an ACK that names its
command, and those of one whose dispatch halts the block with none; only a request that is never answered keeps them
from the end, with nothing sent. -/
def Obligations.ExactlyOneResponse : Prop :=
  ∀ s : State, s.Inv → s.resetIn = [] → s.noResetDuringRequest → s.phase = .dispatch → s.point = none →
    ∃ n,
      (∃ t, run n s = .next t ∧ t.phase ≠ .dispatch ∧
        (((∃ r, t.phase = .halted r) ∧ t.tx = s.tx) ∨
         ((∀ r, t.phase ≠ .halted r) ∧
          (t.tx = s.tx ++ [0x7F] ∨
           ∃ i u body, fetch s = .instr i u ∧ t.tx = s.tx ++ 0xA5 :: i.code :: body)))) ∨
      (∃ v r, run n s = .next v ∧ v.phase = .dispatch ∧ v.tx = s.tx ∧ step v = .fault (.portNeverAnswers r))

/-- R145, R156, R6: a step takes at most one receive byte, and only while a frame is received; it issues at most one
flash-port request, only in Dispatch, and then sends nothing; a step that leaves the block in Dispatch sends nothing, and
so does one outside Dispatch. Rests on spec decision D1. -/
def Obligations.OneActionAStep : Prop :=
  ∀ s t : State, s.resetDue = none → s.noResetDuringRequest → step s = .next t →
    (t.rx = s.rx ∨ ∃ b, s.rx = b :: t.rx ∧ (s.phase = .awaitingLength ∨ s.phase = .awaitingFrame)) ∧
    (t.requests = s.requests ∨ (s.phase = .dispatch ∧ ∃ r, t.requests = s.requests ++ [r] ∧ t.tx = s.tx)) ∧
    (s.phase ≠ .dispatch → t.tx = s.tx) ∧ (t.phase = .dispatch → t.tx = s.tx)

/-! ### Headlines -/

/-- The reset state meets the invariant. -/
def Obligations.ResetMeetsInvariant : Prop := State.reset.Inv

/-- Every step keeps the invariant: the canonical flash array, the protection invariant of R21, the locks of R22 (closed
outside a command, and inside it as its point says), what is left to do at a point, the received cells of R19, the
packet of R105. -/
def Obligations.StepKeepsInvariant : Prop := ∀ s t : State, s.Inv → step s = .next t → t.Inv

/-- R19, R27, R28: in a state that meets the invariant a step never reads an unwritten cell, never issues a request whose
precondition fails, never reads an Unknown address and refuses nothing: it stops only where the spec gives no step. -/
def Obligations.InvariantStatesStopOnlyWhereTheSpecDoes : Prop :=
  ∀ s : State, s.Inv → (∃ t, step s = .next t) ∨ ∃ f, step s = .fault f ∧ f.isSpecStop = true

/-- R145: the steps of a command, one request, one memory read or one response at a time, end exactly where `exec` says: in
the same state, or at a block that stands in Dispatch, with nothing sent, where the step stops for the same reason. The
kept accumulator is the model's reading (notes/assumptions/16.md). Rests on spec decision D1. -/
def Obligations.StepsReachTheEndOfTheCommand : Prop :=
  ∀ (s u : State) (cells : List Byte) (i : Instr),
    s.resetIn = [] → s.phase = .dispatch → s.point = none → cellsOf s.rxbuf s.len.toNat = some cells →
    decode (s.len :: cells) = .instr i [] →
    u = { s with crc := crcAccumulate (i.code :: i.payload), pkt := some (packetOf cells) } →
    ∃ n,
      (∀ t, exec i u = .next t → run n s = .next t) ∧
      (∀ f, exec i u = .fault f → ∃ v, run n s = .next v ∧ v.phase = .dispatch ∧ v.tx = s.tx ∧ step v = .fault f) ∧
      (∀ r, exec i u ≠ .refused r)

/-- The reset state has the values R195 gives, in the launch in which the bootloader is entered, which is the model's
choice (notes/assumptions/9.md). Nothing is said of `len`, `rxcount`, `crc`, the flash contents and the protection, whose
values are the model's choices too (notes/assumptions/6.md to 8.md). -/
def Obligations.ResetStateHasItsValues : Prop :=
  State.reset.phase = .awaitingLength ∧ (∀ j : Nat, j < 202 → State.reset.rxbuf[j]? = some none) ∧
  State.reset.flashLocked = true ∧ State.reset.optLocked = true ∧ State.reset.pkt = none ∧ State.reset.tx = [] ∧
  State.reset.point = none
end

