-- ==== Sys2Proof/Laws/Bytes.lean ====
section
/-! SUPPORT. Byte order: assembling and taking apart words are inverse. -/

namespace Sys2Proof.Machine

@[simp] theorem byteOf_toNat (k : Nat) (w : Word) : (byteOf k w).toNat = w.toNat / 2 ^ (8 * k) % 256 := by
  simp [byteOf]

theorem le32_toNat (b0 b1 b2 b3 : Byte) :
    (le32 b0 b1 b2 b3).toNat = b0.toNat + b1.toNat * 2 ^ 8 + b2.toNat * 2 ^ 16 + b3.toNat * 2 ^ 24 := by
  have h0 := b0.isLt
  have h1 := b1.isLt
  have h2 := b2.isLt
  have h3 := b3.isLt
  rw [le32, BitVec.toNat_ofNat, Nat.mod_eq_of_lt (by omega)]

@[simp] theorem bytesLe32_length (w : Word) : (bytesLe32 w).length = 4 := rfl

@[simp] theorem bytesLe16_length (v : BitVec 16) : (bytesLe16 v).length = 2 := rfl

/-- `le32` undoes `bytes_le32` (spec/00_scope.md R10). -/
@[simp] theorem le32Of_bytesLe32 (w : Word) : le32Of (bytesLe32 w) = w := by
  apply BitVec.eq_of_toNat_eq
  have h := w.isLt
  simp only [le32Of, bytesLe32, List.getD_cons_zero, List.getD_cons_succ, le32_toNat, byteOf_toNat]
  omega

/-- `bytes_le32` undoes `le32` (spec/00_scope.md R10). -/
@[simp] theorem bytesLe32_le32 (b0 b1 b2 b3 : Byte) : bytesLe32 (le32 b0 b1 b2 b3) = [b0, b1, b2, b3] := by
  have h0 := b0.isLt
  have h1 := b1.isLt
  have h2 := b2.isLt
  have h3 := b3.isLt
  simp only [bytesLe32, List.cons.injEq, and_true]
  refine ⟨?_, ?_, ?_, ?_⟩ <;> apply BitVec.eq_of_toNat_eq <;> rw [byteOf_toNat, le32_toNat] <;> omega

/-- Four bytes are taken apart as they were put together. -/
theorem bytesLe32_le32Of {bs : List Byte} (h : bs.length = 4) : bytesLe32 (le32Of bs) = bs := by
  match bs, h with
  | [b0, b1, b2, b3], _ => simp [le32Of]

/-- The two bytes of a 16-bit value are bits 7..0, then bits 15..8. -/
theorem bytesLe16_eq (v : BitVec 16) : bytesLe16 v = [v.extractLsb' 0 8, v.extractLsb' 8 8] := by
  simp only [bytesLe16, List.cons.injEq, and_true]
  constructor <;> apply BitVec.eq_of_toNat_eq <;> simp [Nat.shiftRight_eq_div_pow]

end Sys2Proof.Machine
end

