-- ==== Sys2Proof/Laws/Classifier.lean ====
section
/-! SUPPORT. The classifier and the sector table as arithmetic, and that the configuration is a legal one. -/

namespace Sys2Proof.Machine

/-- The configured region table meets spec/20_memory.md R43: a table that does not makes this theorem fail. -/
theorem regionTable_wf : Config.regionTable.wf = true := by decide

/-- The configured sector table meets spec/20_memory.md R46: a table that does not makes this theorem fail. -/
theorem sectorTable_wf :
    sectorTableWf Config.regionTable.nonVolatile Config.numSectors Config.sectorTable = true := by decide

theorem inRange_iff (r : Range) (a : Nat) : inRange r a = true ↔ r.base ≤ a ∧ a ≤ r.last := by
  simp [inRange]

/-- The classifier as a chain of comparisons (R42, R47). -/
theorem classify_eq (a : Nat) :
    classify a =
      if 0x20000000 ≤ a ∧ a ≤ 0x2001BFFF then .primaryRam
      else if 0x2001C000 ≤ a ∧ a ≤ 0x2001FFFF then .secondaryRam
      else if 0x08000000 ≤ a ∧ a ≤ 0x0807FFFF then .nonVolatile
      else if 0x40024000 ≤ a ∧ a ≤ 0x40024FFF then .backupRam
      else .unknown := by
  simp only [classify, classifyIn, inRange_iff, Config.regionTable]

theorem classify_nonVolatile_iff (a : Nat) : classify a = .nonVolatile ↔ 0x08000000 ≤ a ∧ a ≤ 0x0807FFFF := by
  rw [classify_eq]
  split_ifs <;> simp <;> omega

theorem classify_unknown_iff (a : Nat) :
    classify a = .unknown ↔
      ¬(0x20000000 ≤ a ∧ a ≤ 0x2001FFFF) ∧ ¬(0x08000000 ≤ a ∧ a ≤ 0x0807FFFF) ∧
        ¬(0x40024000 ≤ a ∧ a ≤ 0x40024FFF) := by
  rw [classify_eq]
  split_ifs <;> simp <;> omega

/-- Every address a word can name that classifies is below 2^32. -/
theorem classify_lt {a : Nat} (h : classify a ≠ .unknown) : a < 2 ^ 32 := by
  rw [Ne, classify_unknown_iff] at h
  omega

/-- A range classifies as a region exactly if each of its addresses does (R51). -/
theorem classifyRange_eq_iff {a n : Nat} {r : MemoryRegion} (hn : 1 ≤ n) (hr : r ≠ .unknown) :
    classifyRange a n = r ↔ ∀ i, i < n → classify (a + i) = r := by
  unfold classifyRange
  simp only [List.all_eq_true, List.mem_range, beq_iff_eq]
  constructor
  · intro h i hi
    split at h
    · rename_i hall
      rw [hall i hi, h]
    · exact absurd h.symm hr
  · intro h
    have h0 : classify a = r := h 0 (by omega)
    rw [if_pos fun i hi => by rw [h i hi, h0], h0]

/-- A range that is not Unknown classifies as its first address does (R51). -/
theorem classifyRange_addr {a n : Nat} (h : classifyRange a n ≠ .unknown) {i : Nat} (hi : i < n) :
    classify (a + i) = classifyRange a n :=
  (classifyRange_eq_iff (by omega) h).1 rfl i hi

/-- The sector numbers, one by one. -/
theorem lt_numSectors_cases {k : Nat} (h : k < Config.numSectors) :
    k = 0 ∨ k = 1 ∨ k = 2 ∨ k = 3 ∨ k = 4 ∨ k = 5 ∨ k = 6 ∨ k = 7 := by
  simp only [Config.numSectors] at h
  omega

/-- `sector_for` is none exactly past the last sector (R50). -/
theorem sectorFor_isNone_iff (k : Nat) : (sectorFor k).isNone = true ↔ Config.numSectors ≤ k := by
  simp [sectorFor, Config.sectorTable, Config.numSectors]

/-- Every address of a sector is NonVolatile (R46). -/
theorem classify_sector {k i : Nat} (hk : k < Config.numSectors) (hi : i < sectorSize k) :
    classify (sectorBase k + i) = .nonVolatile := by
  rw [classify_nonVolatile_iff]
  rcases lt_numSectors_cases hk with rfl | rfl | rfl | rfl | rfl | rfl | rfl | rfl <;>
    simp only [sectorSize, sectorBase, sectorFor, Config.sectorTable, List.getElem?_cons_zero,
      List.getElem?_cons_succ, Option.map_some, Option.getD_some] at hi ⊢ <;> omega

/-- Every address of the whole flash array is NonVolatile. -/
theorem classify_flash {i : Nat} (hi : i < flashSize) : classify (flashBase + i) = .nonVolatile := by
  rw [classify_nonVolatile_iff]
  simp only [flashSize, flashBase, Config.regionTable] at hi ⊢
  omega

theorem sectorHolds_iff {t : FlashSector} (ht : 1 ≤ t.size) (a : Nat) :
    sectorHolds t a = true ↔ t.base ≤ a ∧ a < t.base + t.size := by
  simp only [sectorHolds, Bool.and_eq_true, decide_eq_true_eq]
  omega

/-- The sector `sector_of` finds holds the address (R50). -/
theorem sectorOf_some (a k : Nat) (h : sectorOf a = some k) :
    k < Config.numSectors ∧ sectorBase k ≤ a ∧ a < sectorBase k + sectorSize k := by
  obtain ⟨t, ht, rfl⟩ := Option.map_eq_some_iff.1 h
  have hm := List.mem_of_find?_eq_some ht
  have hh := List.find?_some ht
  have key : ∀ t ∈ Config.sectorTable, 1 ≤ t.size ∧ t.number < Config.numSectors ∧ sectorBase t.number = t.base ∧ sectorSize t.number = t.size := by decide
  obtain ⟨h1, h2, h3, h4⟩ := key t hm
  rw [h3, h4]
  exact ⟨h2, (sectorHolds_iff h1 a).1 hh⟩

/-- No two sectors share an address (R46). -/
theorem sectors_disjoint : ∀ j k : Fin Config.numSectors, j ≠ k →
    sectorBase j + sectorSize j ≤ sectorBase k ∨ sectorBase k + sectorSize k ≤ sectorBase j := by decide

/-- A sector that holds the address is found (R50). -/
theorem sectorOf_of_mem (a k : Nat) (h : k < Config.numSectors ∧ sectorBase k ≤ a ∧ a < sectorBase k + sectorSize k) :
    sectorOf a = some k := by
  obtain ⟨hk, hlo, hhi⟩ := h
  cases hs : sectorOf a with
  | some j =>
    obtain ⟨hj, hjlo, hjhi⟩ := sectorOf_some a j hs
    by_contra hne
    have := sectors_disjoint ⟨j, hj⟩ ⟨k, hk⟩ (fun h => hne (congrArg some (Fin.val_eq_of_eq h)))
    dsimp only at this
    omega
  | none =>
    have key : ∀ k : Fin Config.numSectors, ∃ t ∈ Config.sectorTable, 1 ≤ t.size ∧ sectorBase k = t.base ∧
        sectorSize k = t.size := by decide
    obtain ⟨t, ht, h1, h2, h3⟩ := key ⟨k, hk⟩
    have := List.find?_eq_none.1 (Option.map_eq_none_iff.1 hs) t ht
    dsimp only at h2 h3
    rw [sectorHolds_iff h1, ← h2, ← h3] at this
    exact absurd ⟨hlo, hhi⟩ this

/-- `sector_of` finds the sector whose range holds the address (R50). -/
theorem sectorOf_eq_some_iff (a k : Nat) :
    sectorOf a = some k ↔ k < Config.numSectors ∧ sectorBase k ≤ a ∧ a < sectorBase k + sectorSize k :=
  ⟨sectorOf_some a k, sectorOf_of_mem a k⟩

/-- Every NonVolatile address is in a sector (R46). -/
theorem sectorOf_isSome {a : Nat} (h : classify a = .nonVolatile) : ∃ k, sectorOf a = some k := by
  rw [classify_nonVolatile_iff] at h
  have hk : ∃ k, k < Config.numSectors ∧ sectorBase k ≤ a ∧ a < sectorBase k + sectorSize k := by
    by_cases h0 : a < 0x08004000
    · exact ⟨0, by decide, by simpa [sectorBase, sectorFor, Config.sectorTable] using h.1, by
        simpa [sectorBase, sectorSize, sectorFor, Config.sectorTable] using h0⟩
    by_cases h1 : a < 0x08008000
    · exact ⟨1, by decide, by simpa [sectorBase, sectorFor, Config.sectorTable] using h0, by
        simpa [sectorBase, sectorSize, sectorFor, Config.sectorTable] using h1⟩
    by_cases h2 : a < 0x0800C000
    · exact ⟨2, by decide, by simpa [sectorBase, sectorFor, Config.sectorTable] using h1, by
        simpa [sectorBase, sectorSize, sectorFor, Config.sectorTable] using h2⟩
    by_cases h3 : a < 0x08010000
    · exact ⟨3, by decide, by simpa [sectorBase, sectorFor, Config.sectorTable] using h2, by
        simpa [sectorBase, sectorSize, sectorFor, Config.sectorTable] using h3⟩
    by_cases h4 : a < 0x08020000
    · exact ⟨4, by decide, by simpa [sectorBase, sectorFor, Config.sectorTable] using h3, by
        simpa [sectorBase, sectorSize, sectorFor, Config.sectorTable] using h4⟩
    by_cases h5 : a < 0x08040000
    · exact ⟨5, by decide, by simpa [sectorBase, sectorFor, Config.sectorTable] using h4, by
        simpa [sectorBase, sectorSize, sectorFor, Config.sectorTable] using h5⟩
    by_cases h6 : a < 0x08060000
    · exact ⟨6, by decide, by simpa [sectorBase, sectorFor, Config.sectorTable] using h5, by
        simpa [sectorBase, sectorSize, sectorFor, Config.sectorTable] using h6⟩
    · exact ⟨7, by decide, by simpa [sectorBase, sectorFor, Config.sectorTable] using h6, by
        simp [sectorBase, sectorSize, sectorFor, Config.sectorTable]; omega⟩
  obtain ⟨k, hk⟩ := hk
  exact ⟨k, (sectorOf_eq_some_iff a k).2 hk⟩

end Sys2Proof.Machine
end

