-- ==== Sys2Proof/Laws/Memory.lean ====
section
/-! SUPPORT. The flash array: what a read gives after each operation, and that each keeps the canonical form. -/

namespace Sys2Proof.Machine

theorem Memory.wf_nil : Memory.wf [] := by simp [Memory.wf]

/-- A well-formed tail stays well-formed. -/
theorem Memory.wf_tail {c : Host.Cell} {m : Memory} (h : Memory.wf (c :: m)) : Memory.wf m :=
  ⟨h.1.of_cons, fun d hd => h.2 d (List.mem_cons_of_mem _ hd)⟩

/-- Below every listed address nothing is listed. -/
theorem Memory.read_of_lt {m : Memory} {a : Nat} (h : ∀ c ∈ m, a < c.1) : Memory.read m a = Memory.unlisted := by
  induction m with
  | nil => rfl
  | cons c m ih =>
    have hc := h c (by simp)
    rw [Memory.read, if_neg (by omega), ih fun d hd => h d (List.mem_cons_of_mem _ hd)]

theorem Memory.lt_of_mem_tail {c : Host.Cell} {m : Memory} (h : Memory.wf (c :: m)) :
    ∀ d ∈ m, c.1 < d.1 := fun d hd => (List.pairwise_cons.1 h.1).1 d hd

theorem Memory.read_cons (a x : Nat) (b : Byte) (m : Memory) (h : ∀ c ∈ m, a < c.1) :
    Memory.read (Memory.cons a b m) x = if x = a then b else Memory.read m x := by
  unfold Memory.cons
  split
  · rename_i hb
    split
    · rename_i hx
      rw [hx, hb, Memory.read_of_lt h]
    · rfl
  · simp only [Memory.read, eq_comm]

/-- Read after write: the byte written there, the old byte elsewhere. -/
theorem Memory.read_write {m : Memory} (h : Memory.wf m) (a x : Nat) (b : Byte) :
    Memory.read (Memory.write m a b) x = if x = a then b else Memory.read m x := by
  induction m with
  | nil => exact Memory.read_cons a x b [] (by simp)
  | cons c m ih =>
    have ht := Memory.lt_of_mem_tail h
    rw [Memory.write]
    split
    · rename_i hlt
      exact Memory.read_cons a x b _ fun d hd => by
        rcases List.mem_cons.1 hd with rfl | hd
        · exact hlt
        · exact lt_trans hlt (ht d hd)
    · split
      · rename_i heq
        subst heq
        rw [Memory.read_cons _ _ _ _ ht]
        by_cases hx : x = c.1
        · simp [hx]
        · simp [hx, Memory.read, Ne.symm hx]
      · rename_i hne
        rw [Memory.read, ih (Memory.wf_tail h), Memory.read]
        by_cases hx : c.1 = x
        · have : x ≠ a := by omega
          simp [hx, this]
        · simp [hx]

/-- Every address listed after a write was listed before or is the one written. -/
theorem Memory.mem_write {m : Memory} {a : Nat} {b : Byte} {c : Host.Cell} (h : c ∈ Memory.write m a b) :
    c ∈ m ∨ (c = (a, b) ∧ b ≠ Memory.unlisted) := by
  induction m with
  | nil =>
    simp only [Memory.write, Memory.cons] at h
    split at h <;> simp_all
  | cons d m ih =>
    simp only [Memory.write, Memory.cons] at h
    split at h
    · split at h <;> simp_all
      rcases h with rfl | rfl | h <;> simp_all
    · split at h
      · split at h <;> simp_all
        rcases h with rfl | h <;> simp_all
      · rcases List.mem_cons.1 h with rfl | h
        · simp
        · rcases ih h with h | h
          · exact .inl (List.mem_cons_of_mem _ h)
          · exact .inr h

theorem Memory.wf_cons {m : Memory} {a : Nat} {b : Byte} (h : Memory.wf m) (hlt : ∀ c ∈ m, a < c.1)
    (ha : classify a = .nonVolatile) : Memory.wf (Memory.cons a b m) := by
  unfold Memory.cons
  split
  · exact h
  · rename_i hb
    refine ⟨List.pairwise_cons.2 ⟨hlt, h.1⟩, fun c hc => ?_⟩
    rcases List.mem_cons.1 hc with rfl | hc
    · exact ⟨hb, ha⟩
    · exact h.2 c hc

/-- A write of a NonVolatile address keeps the canonical form. -/
theorem Memory.wf_write {m : Memory} {a : Nat} {b : Byte} (h : Memory.wf m) (ha : classify a = .nonVolatile) :
    Memory.wf (Memory.write m a b) := by
  induction m with
  | nil => exact Memory.wf_cons Memory.wf_nil (by simp) ha
  | cons c m ih =>
    have ht := Memory.lt_of_mem_tail h
    rw [Memory.write]
    split
    · rename_i hlt
      exact Memory.wf_cons h (fun d hd => by
        rcases List.mem_cons.1 hd with rfl | hd
        · exact hlt
        · exact lt_trans hlt (ht d hd)) ha
    · split
      · rename_i heq
        exact Memory.wf_cons (Memory.wf_tail h) (fun d hd => heq ▸ ht d hd) ha
      · rename_i hnlt hne
        have hm := ih (Memory.wf_tail h)
        refine ⟨List.pairwise_cons.2 ⟨fun d hd => ?_, hm.1⟩, fun d hd => ?_⟩
        · rcases Memory.mem_write hd with hd | ⟨rfl, -⟩
          · exact ht d hd
          · show c.1 < a
            omega
        · rcases List.mem_cons.1 hd with rfl | hd
          · exact h.2 d (by simp)
          · exact hm.2 d hd

/-- Reading a list of cells kept by their address. -/
theorem Memory.read_filter (m : Memory) (p : Nat → Bool) (x : Nat) :
    Memory.read (m.filter (fun c => p c.1)) x = if p x then Memory.read m x else Memory.unlisted := by
  induction m with
  | nil => simp [Memory.read]
  | cons c m ih =>
    rw [List.filter_cons]
    by_cases hx : c.1 = x
    · subst hx
      cases hp : p c.1 <;> simp [Memory.read, ih, hp]
    · cases hp : p c.1 <;> simp [Memory.read, ih, hx]

/-- Read after erase: ERASED_VALUE in the range, the old byte elsewhere. -/
theorem Memory.read_erase (m : Memory) (lo n x : Nat) :
    Memory.read (Memory.erase m lo n) x = if lo ≤ x ∧ x < lo + n then Config.erasedValue else Memory.read m x := by
  rw [Memory.erase, Memory.read_filter m (fun a => !(lo ≤ a && a < lo + n))]
  by_cases h : lo ≤ x ∧ x < lo + n
  · simp [h.1, h.2, Memory.unlisted]
  · rw [if_neg h, if_pos (by simp; omega)]

/-- An erase keeps the canonical form. -/
theorem Memory.wf_erase {m : Memory} (h : Memory.wf m) (lo n : Nat) : Memory.wf (Memory.erase m lo n) :=
  ⟨h.1.filter _, fun c hc => h.2 c (List.mem_of_mem_filter hc)⟩

theorem Memory.read_append_left {m k : Memory} {x : Nat} (h : ∀ c ∈ k, c.1 ≠ x) :
    Memory.read (m ++ k) x = Memory.read m x := by
  induction m with
  | nil =>
    induction k with
    | nil => rfl
    | cons c k ih =>
      simpa [Memory.read, h c (by simp)] using ih fun d hd => h d (List.mem_cons_of_mem _ hd)
  | cons c m ih => simp [Memory.read, ih]

theorem Memory.read_append_right {m k : Memory} {x : Nat} (h : ∀ c ∈ m, c.1 ≠ x) :
    Memory.read (m ++ k) x = Memory.read k x := by
  induction m with
  | nil => rfl
  | cons c m ih =>
    simpa [Memory.read, h c (by simp)] using ih fun d hd => h d (List.mem_cons_of_mem _ hd)

theorem Memory.cellsFrom_succ (lo : Nat) (f : Nat → Byte) (n : Nat) :
    Memory.cellsFrom lo f (n + 1) =
      Memory.cellsFrom lo f n ++ if f n = Memory.unlisted then [] else [(lo + n, f n)] := by
  simp only [Memory.cellsFrom, List.range_succ, List.filterMap_append]
  split <;> simp_all

/-- What the cells of a fill are. -/
theorem Memory.mem_cellsFrom {lo : Nat} {f : Nat → Byte} {n : Nat} {c : Host.Cell} :
    c ∈ Memory.cellsFrom lo f n ↔ ∃ i, i < n ∧ f i ≠ Memory.unlisted ∧ c = (lo + i, f i) := by
  simp only [Memory.cellsFrom, List.mem_filterMap, List.mem_range]
  constructor
  · rintro ⟨i, hi, h⟩
    split at h <;> simp_all
    exact ⟨i, hi, by assumption, h.symm⟩
  · rintro ⟨i, hi, hf, rfl⟩
    exact ⟨i, hi, by simp [hf]⟩

theorem Memory.read_cellsFrom {lo : Nat} {f : Nat → Byte} {n x : Nat} (h : lo ≤ x ∧ x < lo + n) :
    Memory.read (Memory.cellsFrom lo f n) x = f (x - lo) := by
  induction n with
  | zero => omega
  | succ n ih =>
    rw [Memory.cellsFrom_succ]
    by_cases hx : x = lo + n
    · subst hx
      rw [Memory.read_append_right fun c hc => by
        obtain ⟨i, hi, -, rfl⟩ := Memory.mem_cellsFrom.1 hc
        show lo + i ≠ lo + n
        omega, Nat.add_sub_cancel_left]
      split <;> simp_all [Memory.read]
    · rw [Memory.read_append_left fun c hc => by
        split at hc
        · cases hc
        · obtain rfl := List.mem_singleton.1 hc
          exact fun h' => hx h'.symm, ih ⟨h.1, by omega⟩]

/-- Read after fill: the byte given to the address in the range, the old byte elsewhere. -/
theorem Memory.read_fill (m : Memory) (lo : Nat) (f : Nat → Byte) (n x : Nat) :
    Memory.read (Memory.fill m lo f n) x = if lo ≤ x ∧ x < lo + n then f (x - lo) else Memory.read m x := by
  have hmid : ∀ c ∈ Memory.cellsFrom lo f n, lo ≤ c.1 ∧ c.1 < lo + n := fun c hc => by
    obtain ⟨i, hi, -, rfl⟩ := Memory.mem_cellsFrom.1 hc
    exact ⟨Nat.le_add_right .., Nat.add_lt_add_left hi _⟩
  have hlow : ∀ c ∈ m.filter (fun c => c.1 < lo), c.1 < lo := fun c hc => by simpa using (List.mem_filter.1 hc).2
  have hhigh : ∀ c ∈ m.filter (fun c => lo + n ≤ c.1), lo + n ≤ c.1 := fun c hc => by
    simpa using (List.mem_filter.1 hc).2
  unfold Memory.fill
  by_cases h1 : x < lo
  · rw [if_neg (by omega), Memory.read_append_left fun c hc => by
      rcases List.mem_append.1 hc with hc | hc
      · have := hmid c hc
        omega
      · have := hhigh c hc
        omega, Memory.read_filter m (fun a => a < lo), if_pos (by simpa using h1)]
  · rw [Memory.read_append_right fun c hc => by
      have := hlow c hc
      omega]
    by_cases h2 : x < lo + n
    · rw [if_pos (by omega), Memory.read_append_left fun c hc => by
        have := hhigh c hc
        omega, Memory.read_cellsFrom (by omega)]
    · rw [if_neg (by omega), Memory.read_append_right fun c hc => by
        have := hmid c hc
        omega, Memory.read_filter m (fun a => lo + n ≤ a), if_pos (by simpa using h2)]

/-- A fill of NonVolatile addresses keeps the canonical form. -/
theorem Memory.wf_fill {m : Memory} (h : Memory.wf m) (lo : Nat) (f : Nat → Byte) (n : Nat)
    (ha : ∀ i, i < n → classify (lo + i) = .nonVolatile) : Memory.wf (Memory.fill m lo f n) := by
  have hmid : ∀ c ∈ Memory.cellsFrom lo f n,
      (lo ≤ c.1 ∧ c.1 < lo + n) ∧ c.2 ≠ Memory.unlisted ∧ classify c.1 = .nonVolatile := fun c hc => by
    obtain ⟨i, hi, hf, rfl⟩ := Memory.mem_cellsFrom.1 hc
    exact ⟨⟨Nat.le_add_right .., Nat.add_lt_add_left hi _⟩, hf, ha i hi⟩
  have hsorted : (Memory.cellsFrom lo f n).Pairwise (fun c d => c.1 < d.1) := by
    clear hmid ha
    induction n with
    | zero => simp [Memory.cellsFrom]
    | succ n ih =>
      rw [Memory.cellsFrom_succ]
      refine List.pairwise_append.2 ⟨ih, by split <;> simp, fun c hc d hd => ?_⟩
      obtain ⟨i, hi, -, rfl⟩ := Memory.mem_cellsFrom.1 hc
      split at hd
      · cases hd
      · obtain rfl := List.mem_singleton.1 hd
        exact Nat.add_lt_add_left hi _
  constructor
  · refine List.pairwise_append.2 ⟨h.1.filter _, List.pairwise_append.2 ⟨hsorted, h.1.filter _, ?_⟩, ?_⟩
    · intro c hc d hd
      have h1 := (hmid c hc).1
      have h2 : lo + n ≤ d.1 := by simpa using (List.mem_filter.1 hd).2
      omega
    · intro c hc d hd
      have h1 : c.1 < lo := by simpa using (List.mem_filter.1 hc).2
      rcases List.mem_append.1 hd with hd | hd
      · have := (hmid d hd).1
        omega
      · have : lo + n ≤ d.1 := by simpa using (List.mem_filter.1 hd).2
        omega
  · intro c hc
    rcases List.mem_append.1 hc with hc | hc
    · exact h.2 c (List.mem_of_mem_filter hc)
    · rcases List.mem_append.1 hc with hc | hc
      · exact (hmid c hc).2
      · exact h.2 c (List.mem_of_mem_filter hc)

/-- A cell in front answers for its own address only. -/
theorem Memory.read_memcons_ne {m : Memory} {a x : Nat} (b : Byte) (h : x ≠ a) :
    Memory.read (Memory.cons a b m) x = Memory.read m x := by
  unfold Memory.cons
  split
  · rfl
  · rw [Memory.read, if_neg (fun h' => h h'.symm)]

/-- A write leaves every other address alone, on any list of cells. -/
theorem Memory.read_write_ne (m : Memory) {a x : Nat} (b : Byte) (h : x ≠ a) :
    Memory.read (Memory.write m a b) x = Memory.read m x := by
  induction m with
  | nil => exact Memory.read_memcons_ne b h
  | cons c m ih =>
    rw [Memory.write]
    split
    · exact Memory.read_memcons_ne b h
    · split
      · rename_i hc
        rw [Memory.read_memcons_ne b h, Memory.read, if_neg (fun h' => h (h'.symm.trans hc.symm))]
      · rw [Memory.read, Memory.read, ih]

end Sys2Proof.Machine
end

