-- ==== Sys2Proof/Laws/State.lean ====
section
/-! SUPPORT. One lemma per field per update of the state, so that no proof unfolds a record update. -/

namespace Sys2Proof.Machine

/-! ### enter -/

@[simp] theorem State.enter_phase (s : State) (p : Phase) : (s.enter p).phase = p := rfl
@[simp] theorem State.enter_len (s : State) (p : Phase) : (s.enter p).len = s.len := rfl
@[simp] theorem State.enter_rxcount (s : State) (p : Phase) : (s.enter p).rxcount = s.rxcount := rfl
@[simp] theorem State.enter_rxbuf (s : State) (p : Phase) : (s.enter p).rxbuf = s.rxbuf := rfl
@[simp] theorem State.enter_crc (s : State) (p : Phase) : (s.enter p).crc = s.crc := rfl
@[simp] theorem State.enter_prot (s : State) (p : Phase) : (s.enter p).prot = s.prot := rfl
@[simp] theorem State.enter_flashLocked (s : State) (p : Phase) : (s.enter p).flashLocked = s.flashLocked := rfl
@[simp] theorem State.enter_optLocked (s : State) (p : Phase) : (s.enter p).optLocked = s.optLocked := rfl
@[simp] theorem State.enter_flash (s : State) (p : Phase) : (s.enter p).flash = s.flash := rfl
@[simp] theorem State.enter_pkt (s : State) (p : Phase) : (s.enter p).pkt = s.pkt := rfl
@[simp] theorem State.enter_tx (s : State) (p : Phase) : (s.enter p).tx = s.tx := rfl
@[simp] theorem State.enter_point (s : State) (p : Phase) : (s.enter p).point = s.point := rfl
@[simp] theorem State.enter_rx (s : State) (p : Phase) : (s.enter p).rx = s.rx := rfl
@[simp] theorem State.enter_port (s : State) (p : Phase) : (s.enter p).port = s.port := rfl
@[simp] theorem State.enter_resetIn (s : State) (p : Phase) : (s.enter p).resetIn = s.resetIn := rfl
@[simp] theorem State.enter_draws (s : State) (p : Phase) : (s.enter p).draws = s.draws := rfl
@[simp] theorem State.enter_lastError (s : State) (p : Phase) : (s.enter p).lastError = s.lastError := rfl
@[simp] theorem State.enter_requests (s : State) (p : Phase) : (s.enter p).requests = s.requests := rfl

/-! ### transmit -/

@[simp] theorem State.transmit_phase (s : State) (bs : List Byte) : (s.transmit bs).phase = s.phase := rfl
@[simp] theorem State.transmit_len (s : State) (bs : List Byte) : (s.transmit bs).len = s.len := rfl
@[simp] theorem State.transmit_rxcount (s : State) (bs : List Byte) : (s.transmit bs).rxcount = s.rxcount := rfl
@[simp] theorem State.transmit_rxbuf (s : State) (bs : List Byte) : (s.transmit bs).rxbuf = s.rxbuf := rfl
@[simp] theorem State.transmit_crc (s : State) (bs : List Byte) : (s.transmit bs).crc = s.crc := rfl
@[simp] theorem State.transmit_prot (s : State) (bs : List Byte) : (s.transmit bs).prot = s.prot := rfl
@[simp] theorem State.transmit_flashLocked (s : State) (bs : List Byte) : (s.transmit bs).flashLocked = s.flashLocked := rfl
@[simp] theorem State.transmit_optLocked (s : State) (bs : List Byte) : (s.transmit bs).optLocked = s.optLocked := rfl
@[simp] theorem State.transmit_flash (s : State) (bs : List Byte) : (s.transmit bs).flash = s.flash := rfl
@[simp] theorem State.transmit_pkt (s : State) (bs : List Byte) : (s.transmit bs).pkt = s.pkt := rfl
@[simp] theorem State.transmit_tx (s : State) (bs : List Byte) : (s.transmit bs).tx = s.tx ++ bs := rfl
@[simp] theorem State.transmit_point (s : State) (bs : List Byte) : (s.transmit bs).point = s.point := rfl
@[simp] theorem State.transmit_rx (s : State) (bs : List Byte) : (s.transmit bs).rx = s.rx := rfl
@[simp] theorem State.transmit_port (s : State) (bs : List Byte) : (s.transmit bs).port = s.port := rfl
@[simp] theorem State.transmit_resetIn (s : State) (bs : List Byte) : (s.transmit bs).resetIn = s.resetIn := rfl
@[simp] theorem State.transmit_draws (s : State) (bs : List Byte) : (s.transmit bs).draws = s.draws := rfl
@[simp] theorem State.transmit_lastError (s : State) (bs : List Byte) : (s.transmit bs).lastError = s.lastError := rfl
@[simp] theorem State.transmit_requests (s : State) (bs : List Byte) : (s.transmit bs).requests = s.requests := rfl

/-! ### note -/

@[simp] theorem State.note_phase (s : State) (e : Option ErrorCode) : (s.note e).phase = s.phase := rfl
@[simp] theorem State.note_len (s : State) (e : Option ErrorCode) : (s.note e).len = s.len := rfl
@[simp] theorem State.note_rxcount (s : State) (e : Option ErrorCode) : (s.note e).rxcount = s.rxcount := rfl
@[simp] theorem State.note_rxbuf (s : State) (e : Option ErrorCode) : (s.note e).rxbuf = s.rxbuf := rfl
@[simp] theorem State.note_crc (s : State) (e : Option ErrorCode) : (s.note e).crc = s.crc := rfl
@[simp] theorem State.note_prot (s : State) (e : Option ErrorCode) : (s.note e).prot = s.prot := rfl
@[simp] theorem State.note_flashLocked (s : State) (e : Option ErrorCode) : (s.note e).flashLocked = s.flashLocked := rfl
@[simp] theorem State.note_optLocked (s : State) (e : Option ErrorCode) : (s.note e).optLocked = s.optLocked := rfl
@[simp] theorem State.note_flash (s : State) (e : Option ErrorCode) : (s.note e).flash = s.flash := rfl
@[simp] theorem State.note_pkt (s : State) (e : Option ErrorCode) : (s.note e).pkt = s.pkt := rfl
@[simp] theorem State.note_tx (s : State) (e : Option ErrorCode) : (s.note e).tx = s.tx := rfl
@[simp] theorem State.note_point (s : State) (e : Option ErrorCode) : (s.note e).point = s.point := rfl
@[simp] theorem State.note_rx (s : State) (e : Option ErrorCode) : (s.note e).rx = s.rx := rfl
@[simp] theorem State.note_port (s : State) (e : Option ErrorCode) : (s.note e).port = s.port := rfl
@[simp] theorem State.note_resetIn (s : State) (e : Option ErrorCode) : (s.note e).resetIn = s.resetIn := rfl
@[simp] theorem State.note_draws (s : State) (e : Option ErrorCode) : (s.note e).draws = s.draws := rfl
@[simp] theorem State.note_lastError (s : State) (e : Option ErrorCode) : (s.note e).lastError = e := rfl
@[simp] theorem State.note_requests (s : State) (e : Option ErrorCode) : (s.note e).requests = s.requests := rfl

/-! ### setPacket -/

@[simp] theorem State.setPacket_phase (s : State) (p : Option Packet) : (s.setPacket p).phase = s.phase := rfl
@[simp] theorem State.setPacket_len (s : State) (p : Option Packet) : (s.setPacket p).len = s.len := rfl
@[simp] theorem State.setPacket_rxcount (s : State) (p : Option Packet) : (s.setPacket p).rxcount = s.rxcount := rfl
@[simp] theorem State.setPacket_rxbuf (s : State) (p : Option Packet) : (s.setPacket p).rxbuf = s.rxbuf := rfl
@[simp] theorem State.setPacket_crc (s : State) (p : Option Packet) : (s.setPacket p).crc = s.crc := rfl
@[simp] theorem State.setPacket_prot (s : State) (p : Option Packet) : (s.setPacket p).prot = s.prot := rfl
@[simp] theorem State.setPacket_flashLocked (s : State) (p : Option Packet) : (s.setPacket p).flashLocked = s.flashLocked := rfl
@[simp] theorem State.setPacket_optLocked (s : State) (p : Option Packet) : (s.setPacket p).optLocked = s.optLocked := rfl
@[simp] theorem State.setPacket_flash (s : State) (p : Option Packet) : (s.setPacket p).flash = s.flash := rfl
@[simp] theorem State.setPacket_pkt (s : State) (p : Option Packet) : (s.setPacket p).pkt = p := rfl
@[simp] theorem State.setPacket_tx (s : State) (p : Option Packet) : (s.setPacket p).tx = s.tx := rfl
@[simp] theorem State.setPacket_point (s : State) (p : Option Packet) : (s.setPacket p).point = s.point := rfl
@[simp] theorem State.setPacket_rx (s : State) (p : Option Packet) : (s.setPacket p).rx = s.rx := rfl
@[simp] theorem State.setPacket_port (s : State) (p : Option Packet) : (s.setPacket p).port = s.port := rfl
@[simp] theorem State.setPacket_resetIn (s : State) (p : Option Packet) : (s.setPacket p).resetIn = s.resetIn := rfl
@[simp] theorem State.setPacket_draws (s : State) (p : Option Packet) : (s.setPacket p).draws = s.draws := rfl
@[simp] theorem State.setPacket_lastError (s : State) (p : Option Packet) : (s.setPacket p).lastError = s.lastError := rfl
@[simp] theorem State.setPacket_requests (s : State) (p : Option Packet) : (s.setPacket p).requests = s.requests := rfl

/-! ### setCrc -/

@[simp] theorem State.setCrc_phase (s : State) (w : Word) : (s.setCrc w).phase = s.phase := rfl
@[simp] theorem State.setCrc_len (s : State) (w : Word) : (s.setCrc w).len = s.len := rfl
@[simp] theorem State.setCrc_rxcount (s : State) (w : Word) : (s.setCrc w).rxcount = s.rxcount := rfl
@[simp] theorem State.setCrc_rxbuf (s : State) (w : Word) : (s.setCrc w).rxbuf = s.rxbuf := rfl
@[simp] theorem State.setCrc_crc (s : State) (w : Word) : (s.setCrc w).crc = w := rfl
@[simp] theorem State.setCrc_prot (s : State) (w : Word) : (s.setCrc w).prot = s.prot := rfl
@[simp] theorem State.setCrc_flashLocked (s : State) (w : Word) : (s.setCrc w).flashLocked = s.flashLocked := rfl
@[simp] theorem State.setCrc_optLocked (s : State) (w : Word) : (s.setCrc w).optLocked = s.optLocked := rfl
@[simp] theorem State.setCrc_flash (s : State) (w : Word) : (s.setCrc w).flash = s.flash := rfl
@[simp] theorem State.setCrc_pkt (s : State) (w : Word) : (s.setCrc w).pkt = s.pkt := rfl
@[simp] theorem State.setCrc_tx (s : State) (w : Word) : (s.setCrc w).tx = s.tx := rfl
@[simp] theorem State.setCrc_point (s : State) (w : Word) : (s.setCrc w).point = s.point := rfl
@[simp] theorem State.setCrc_rx (s : State) (w : Word) : (s.setCrc w).rx = s.rx := rfl
@[simp] theorem State.setCrc_port (s : State) (w : Word) : (s.setCrc w).port = s.port := rfl
@[simp] theorem State.setCrc_resetIn (s : State) (w : Word) : (s.setCrc w).resetIn = s.resetIn := rfl
@[simp] theorem State.setCrc_draws (s : State) (w : Word) : (s.setCrc w).draws = s.draws := rfl
@[simp] theorem State.setCrc_lastError (s : State) (w : Word) : (s.setCrc w).lastError = s.lastError := rfl
@[simp] theorem State.setCrc_requests (s : State) (w : Word) : (s.setCrc w).requests = s.requests := rfl

/-! ### setFlash -/

@[simp] theorem State.setFlash_phase (s : State) (m : Memory) : (s.setFlash m).phase = s.phase := rfl
@[simp] theorem State.setFlash_len (s : State) (m : Memory) : (s.setFlash m).len = s.len := rfl
@[simp] theorem State.setFlash_rxcount (s : State) (m : Memory) : (s.setFlash m).rxcount = s.rxcount := rfl
@[simp] theorem State.setFlash_rxbuf (s : State) (m : Memory) : (s.setFlash m).rxbuf = s.rxbuf := rfl
@[simp] theorem State.setFlash_crc (s : State) (m : Memory) : (s.setFlash m).crc = s.crc := rfl
@[simp] theorem State.setFlash_prot (s : State) (m : Memory) : (s.setFlash m).prot = s.prot := rfl
@[simp] theorem State.setFlash_flashLocked (s : State) (m : Memory) : (s.setFlash m).flashLocked = s.flashLocked := rfl
@[simp] theorem State.setFlash_optLocked (s : State) (m : Memory) : (s.setFlash m).optLocked = s.optLocked := rfl
@[simp] theorem State.setFlash_flash (s : State) (m : Memory) : (s.setFlash m).flash = m := rfl
@[simp] theorem State.setFlash_pkt (s : State) (m : Memory) : (s.setFlash m).pkt = s.pkt := rfl
@[simp] theorem State.setFlash_tx (s : State) (m : Memory) : (s.setFlash m).tx = s.tx := rfl
@[simp] theorem State.setFlash_point (s : State) (m : Memory) : (s.setFlash m).point = s.point := rfl
@[simp] theorem State.setFlash_rx (s : State) (m : Memory) : (s.setFlash m).rx = s.rx := rfl
@[simp] theorem State.setFlash_port (s : State) (m : Memory) : (s.setFlash m).port = s.port := rfl
@[simp] theorem State.setFlash_resetIn (s : State) (m : Memory) : (s.setFlash m).resetIn = s.resetIn := rfl
@[simp] theorem State.setFlash_draws (s : State) (m : Memory) : (s.setFlash m).draws = s.draws := rfl
@[simp] theorem State.setFlash_lastError (s : State) (m : Memory) : (s.setFlash m).lastError = s.lastError := rfl
@[simp] theorem State.setFlash_requests (s : State) (m : Memory) : (s.setFlash m).requests = s.requests := rfl

/-! ### setProt -/

@[simp] theorem State.setProt_phase (s : State) (p : ProtectionStatus) : (s.setProt p).phase = s.phase := rfl
@[simp] theorem State.setProt_len (s : State) (p : ProtectionStatus) : (s.setProt p).len = s.len := rfl
@[simp] theorem State.setProt_rxcount (s : State) (p : ProtectionStatus) : (s.setProt p).rxcount = s.rxcount := rfl
@[simp] theorem State.setProt_rxbuf (s : State) (p : ProtectionStatus) : (s.setProt p).rxbuf = s.rxbuf := rfl
@[simp] theorem State.setProt_crc (s : State) (p : ProtectionStatus) : (s.setProt p).crc = s.crc := rfl
@[simp] theorem State.setProt_prot (s : State) (p : ProtectionStatus) : (s.setProt p).prot = p := rfl
@[simp] theorem State.setProt_flashLocked (s : State) (p : ProtectionStatus) : (s.setProt p).flashLocked = s.flashLocked := rfl
@[simp] theorem State.setProt_optLocked (s : State) (p : ProtectionStatus) : (s.setProt p).optLocked = s.optLocked := rfl
@[simp] theorem State.setProt_flash (s : State) (p : ProtectionStatus) : (s.setProt p).flash = s.flash := rfl
@[simp] theorem State.setProt_pkt (s : State) (p : ProtectionStatus) : (s.setProt p).pkt = s.pkt := rfl
@[simp] theorem State.setProt_tx (s : State) (p : ProtectionStatus) : (s.setProt p).tx = s.tx := rfl
@[simp] theorem State.setProt_point (s : State) (p : ProtectionStatus) : (s.setProt p).point = s.point := rfl
@[simp] theorem State.setProt_rx (s : State) (p : ProtectionStatus) : (s.setProt p).rx = s.rx := rfl
@[simp] theorem State.setProt_port (s : State) (p : ProtectionStatus) : (s.setProt p).port = s.port := rfl
@[simp] theorem State.setProt_resetIn (s : State) (p : ProtectionStatus) : (s.setProt p).resetIn = s.resetIn := rfl
@[simp] theorem State.setProt_draws (s : State) (p : ProtectionStatus) : (s.setProt p).draws = s.draws := rfl
@[simp] theorem State.setProt_lastError (s : State) (p : ProtectionStatus) : (s.setProt p).lastError = s.lastError := rfl
@[simp] theorem State.setProt_requests (s : State) (p : ProtectionStatus) : (s.setProt p).requests = s.requests := rfl

/-! ### setFlashLocked -/

@[simp] theorem State.setFlashLocked_phase (s : State) (b : Bool) : (s.setFlashLocked b).phase = s.phase := rfl
@[simp] theorem State.setFlashLocked_len (s : State) (b : Bool) : (s.setFlashLocked b).len = s.len := rfl
@[simp] theorem State.setFlashLocked_rxcount (s : State) (b : Bool) : (s.setFlashLocked b).rxcount = s.rxcount := rfl
@[simp] theorem State.setFlashLocked_rxbuf (s : State) (b : Bool) : (s.setFlashLocked b).rxbuf = s.rxbuf := rfl
@[simp] theorem State.setFlashLocked_crc (s : State) (b : Bool) : (s.setFlashLocked b).crc = s.crc := rfl
@[simp] theorem State.setFlashLocked_prot (s : State) (b : Bool) : (s.setFlashLocked b).prot = s.prot := rfl
@[simp] theorem State.setFlashLocked_flashLocked (s : State) (b : Bool) : (s.setFlashLocked b).flashLocked = b := rfl
@[simp] theorem State.setFlashLocked_optLocked (s : State) (b : Bool) : (s.setFlashLocked b).optLocked = s.optLocked := rfl
@[simp] theorem State.setFlashLocked_flash (s : State) (b : Bool) : (s.setFlashLocked b).flash = s.flash := rfl
@[simp] theorem State.setFlashLocked_pkt (s : State) (b : Bool) : (s.setFlashLocked b).pkt = s.pkt := rfl
@[simp] theorem State.setFlashLocked_tx (s : State) (b : Bool) : (s.setFlashLocked b).tx = s.tx := rfl
@[simp] theorem State.setFlashLocked_point (s : State) (b : Bool) : (s.setFlashLocked b).point = s.point := rfl
@[simp] theorem State.setFlashLocked_rx (s : State) (b : Bool) : (s.setFlashLocked b).rx = s.rx := rfl
@[simp] theorem State.setFlashLocked_port (s : State) (b : Bool) : (s.setFlashLocked b).port = s.port := rfl
@[simp] theorem State.setFlashLocked_resetIn (s : State) (b : Bool) : (s.setFlashLocked b).resetIn = s.resetIn := rfl
@[simp] theorem State.setFlashLocked_draws (s : State) (b : Bool) : (s.setFlashLocked b).draws = s.draws := rfl
@[simp] theorem State.setFlashLocked_lastError (s : State) (b : Bool) : (s.setFlashLocked b).lastError = s.lastError := rfl
@[simp] theorem State.setFlashLocked_requests (s : State) (b : Bool) : (s.setFlashLocked b).requests = s.requests := rfl

/-! ### setOptLocked -/

@[simp] theorem State.setOptLocked_phase (s : State) (b : Bool) : (s.setOptLocked b).phase = s.phase := rfl
@[simp] theorem State.setOptLocked_len (s : State) (b : Bool) : (s.setOptLocked b).len = s.len := rfl
@[simp] theorem State.setOptLocked_rxcount (s : State) (b : Bool) : (s.setOptLocked b).rxcount = s.rxcount := rfl
@[simp] theorem State.setOptLocked_rxbuf (s : State) (b : Bool) : (s.setOptLocked b).rxbuf = s.rxbuf := rfl
@[simp] theorem State.setOptLocked_crc (s : State) (b : Bool) : (s.setOptLocked b).crc = s.crc := rfl
@[simp] theorem State.setOptLocked_prot (s : State) (b : Bool) : (s.setOptLocked b).prot = s.prot := rfl
@[simp] theorem State.setOptLocked_flashLocked (s : State) (b : Bool) : (s.setOptLocked b).flashLocked = s.flashLocked := rfl
@[simp] theorem State.setOptLocked_optLocked (s : State) (b : Bool) : (s.setOptLocked b).optLocked = b := rfl
@[simp] theorem State.setOptLocked_flash (s : State) (b : Bool) : (s.setOptLocked b).flash = s.flash := rfl
@[simp] theorem State.setOptLocked_pkt (s : State) (b : Bool) : (s.setOptLocked b).pkt = s.pkt := rfl
@[simp] theorem State.setOptLocked_tx (s : State) (b : Bool) : (s.setOptLocked b).tx = s.tx := rfl
@[simp] theorem State.setOptLocked_point (s : State) (b : Bool) : (s.setOptLocked b).point = s.point := rfl
@[simp] theorem State.setOptLocked_rx (s : State) (b : Bool) : (s.setOptLocked b).rx = s.rx := rfl
@[simp] theorem State.setOptLocked_port (s : State) (b : Bool) : (s.setOptLocked b).port = s.port := rfl
@[simp] theorem State.setOptLocked_resetIn (s : State) (b : Bool) : (s.setOptLocked b).resetIn = s.resetIn := rfl
@[simp] theorem State.setOptLocked_draws (s : State) (b : Bool) : (s.setOptLocked b).draws = s.draws := rfl
@[simp] theorem State.setOptLocked_lastError (s : State) (b : Bool) : (s.setOptLocked b).lastError = s.lastError := rfl
@[simp] theorem State.setOptLocked_requests (s : State) (b : Bool) : (s.setOptLocked b).requests = s.requests := rfl

/-! ### drawn -/

@[simp] theorem State.drawn_phase (s : State) (n : Nat) : (s.drawn n).phase = s.phase := rfl
@[simp] theorem State.drawn_len (s : State) (n : Nat) : (s.drawn n).len = s.len := rfl
@[simp] theorem State.drawn_rxcount (s : State) (n : Nat) : (s.drawn n).rxcount = s.rxcount := rfl
@[simp] theorem State.drawn_rxbuf (s : State) (n : Nat) : (s.drawn n).rxbuf = s.rxbuf := rfl
@[simp] theorem State.drawn_crc (s : State) (n : Nat) : (s.drawn n).crc = s.crc := rfl
@[simp] theorem State.drawn_prot (s : State) (n : Nat) : (s.drawn n).prot = s.prot := rfl
@[simp] theorem State.drawn_flashLocked (s : State) (n : Nat) : (s.drawn n).flashLocked = s.flashLocked := rfl
@[simp] theorem State.drawn_optLocked (s : State) (n : Nat) : (s.drawn n).optLocked = s.optLocked := rfl
@[simp] theorem State.drawn_flash (s : State) (n : Nat) : (s.drawn n).flash = s.flash := rfl
@[simp] theorem State.drawn_pkt (s : State) (n : Nat) : (s.drawn n).pkt = s.pkt := rfl
@[simp] theorem State.drawn_tx (s : State) (n : Nat) : (s.drawn n).tx = s.tx := rfl
@[simp] theorem State.drawn_point (s : State) (n : Nat) : (s.drawn n).point = s.point := rfl
@[simp] theorem State.drawn_rx (s : State) (n : Nat) : (s.drawn n).rx = s.rx := rfl
@[simp] theorem State.drawn_port (s : State) (n : Nat) : (s.drawn n).port = s.port := rfl
@[simp] theorem State.drawn_resetIn (s : State) (n : Nat) : (s.drawn n).resetIn = s.resetIn := rfl
@[simp] theorem State.drawn_draws (s : State) (n : Nat) : (s.drawn n).draws = s.draws + n := rfl
@[simp] theorem State.drawn_lastError (s : State) (n : Nat) : (s.drawn n).lastError = s.lastError := rfl
@[simp] theorem State.drawn_requests (s : State) (n : Nat) : (s.drawn n).requests = s.requests := rfl

/-! ### issue -/

@[simp] theorem State.issue_phase (s : State) (r : PortRequest) : (s.issue r).phase = s.phase := rfl
@[simp] theorem State.issue_len (s : State) (r : PortRequest) : (s.issue r).len = s.len := rfl
@[simp] theorem State.issue_rxcount (s : State) (r : PortRequest) : (s.issue r).rxcount = s.rxcount := rfl
@[simp] theorem State.issue_rxbuf (s : State) (r : PortRequest) : (s.issue r).rxbuf = s.rxbuf := rfl
@[simp] theorem State.issue_crc (s : State) (r : PortRequest) : (s.issue r).crc = s.crc := rfl
@[simp] theorem State.issue_prot (s : State) (r : PortRequest) : (s.issue r).prot = s.prot := rfl
@[simp] theorem State.issue_flashLocked (s : State) (r : PortRequest) : (s.issue r).flashLocked = s.flashLocked := rfl
@[simp] theorem State.issue_optLocked (s : State) (r : PortRequest) : (s.issue r).optLocked = s.optLocked := rfl
@[simp] theorem State.issue_flash (s : State) (r : PortRequest) : (s.issue r).flash = s.flash := rfl
@[simp] theorem State.issue_pkt (s : State) (r : PortRequest) : (s.issue r).pkt = s.pkt := rfl
@[simp] theorem State.issue_tx (s : State) (r : PortRequest) : (s.issue r).tx = s.tx := rfl
@[simp] theorem State.issue_point (s : State) (r : PortRequest) : (s.issue r).point = s.point := rfl
@[simp] theorem State.issue_rx (s : State) (r : PortRequest) : (s.issue r).rx = s.rx := rfl
@[simp] theorem State.issue_port (s : State) (r : PortRequest) : (s.issue r).port = s.port.tail := rfl
@[simp] theorem State.issue_resetIn (s : State) (r : PortRequest) : (s.issue r).resetIn = s.resetIn := rfl
@[simp] theorem State.issue_draws (s : State) (r : PortRequest) : (s.issue r).draws = s.draws := rfl
@[simp] theorem State.issue_lastError (s : State) (r : PortRequest) : (s.issue r).lastError = s.lastError := rfl
@[simp] theorem State.issue_requests (s : State) (r : PortRequest) : (s.issue r).requests = s.requests ++ [r] := rfl

/-! ### beginFrame -/

@[simp] theorem State.beginFrame_phase (s : State) (l : Byte) (rest : List Byte) : (s.beginFrame l rest).phase = .awaitingFrame := rfl
@[simp] theorem State.beginFrame_len (s : State) (l : Byte) (rest : List Byte) : (s.beginFrame l rest).len = l := rfl
@[simp] theorem State.beginFrame_rxcount (s : State) (l : Byte) (rest : List Byte) : (s.beginFrame l rest).rxcount = 0 := rfl
@[simp] theorem State.beginFrame_rxbuf (s : State) (l : Byte) (rest : List Byte) : (s.beginFrame l rest).rxbuf = Vector.replicate Config.rxCap none := rfl
@[simp] theorem State.beginFrame_crc (s : State) (l : Byte) (rest : List Byte) : (s.beginFrame l rest).crc = s.crc := rfl
@[simp] theorem State.beginFrame_prot (s : State) (l : Byte) (rest : List Byte) : (s.beginFrame l rest).prot = s.prot := rfl
@[simp] theorem State.beginFrame_flashLocked (s : State) (l : Byte) (rest : List Byte) : (s.beginFrame l rest).flashLocked = s.flashLocked := rfl
@[simp] theorem State.beginFrame_optLocked (s : State) (l : Byte) (rest : List Byte) : (s.beginFrame l rest).optLocked = s.optLocked := rfl
@[simp] theorem State.beginFrame_flash (s : State) (l : Byte) (rest : List Byte) : (s.beginFrame l rest).flash = s.flash := rfl
@[simp] theorem State.beginFrame_pkt (s : State) (l : Byte) (rest : List Byte) : (s.beginFrame l rest).pkt = s.pkt := rfl
@[simp] theorem State.beginFrame_tx (s : State) (l : Byte) (rest : List Byte) : (s.beginFrame l rest).tx = s.tx := rfl
@[simp] theorem State.beginFrame_point (s : State) (l : Byte) (rest : List Byte) : (s.beginFrame l rest).point = s.point := rfl
@[simp] theorem State.beginFrame_rx (s : State) (l : Byte) (rest : List Byte) : (s.beginFrame l rest).rx = rest := rfl
@[simp] theorem State.beginFrame_port (s : State) (l : Byte) (rest : List Byte) : (s.beginFrame l rest).port = s.port := rfl
@[simp] theorem State.beginFrame_resetIn (s : State) (l : Byte) (rest : List Byte) : (s.beginFrame l rest).resetIn = s.resetIn := rfl
@[simp] theorem State.beginFrame_draws (s : State) (l : Byte) (rest : List Byte) : (s.beginFrame l rest).draws = s.draws := rfl
@[simp] theorem State.beginFrame_lastError (s : State) (l : Byte) (rest : List Byte) : (s.beginFrame l rest).lastError = s.lastError := rfl
@[simp] theorem State.beginFrame_requests (s : State) (l : Byte) (rest : List Byte) : (s.beginFrame l rest).requests = s.requests := rfl

/-! ### takeFrameByte -/

@[simp] theorem State.takeFrameByte_phase (s : State) (b : Byte) (rest : List Byte) : (s.takeFrameByte b rest).phase = s.phase := rfl
@[simp] theorem State.takeFrameByte_len (s : State) (b : Byte) (rest : List Byte) : (s.takeFrameByte b rest).len = s.len := rfl
@[simp] theorem State.takeFrameByte_rxcount (s : State) (b : Byte) (rest : List Byte) : (s.takeFrameByte b rest).rxcount = s.rxcount + 1 := rfl
@[simp] theorem State.takeFrameByte_rxbuf (s : State) (b : Byte) (rest : List Byte) : (s.takeFrameByte b rest).rxbuf = storeCell s.rxbuf s.rxcount b := rfl
@[simp] theorem State.takeFrameByte_crc (s : State) (b : Byte) (rest : List Byte) : (s.takeFrameByte b rest).crc = s.crc := rfl
@[simp] theorem State.takeFrameByte_prot (s : State) (b : Byte) (rest : List Byte) : (s.takeFrameByte b rest).prot = s.prot := rfl
@[simp] theorem State.takeFrameByte_flashLocked (s : State) (b : Byte) (rest : List Byte) : (s.takeFrameByte b rest).flashLocked = s.flashLocked := rfl
@[simp] theorem State.takeFrameByte_optLocked (s : State) (b : Byte) (rest : List Byte) : (s.takeFrameByte b rest).optLocked = s.optLocked := rfl
@[simp] theorem State.takeFrameByte_flash (s : State) (b : Byte) (rest : List Byte) : (s.takeFrameByte b rest).flash = s.flash := rfl
@[simp] theorem State.takeFrameByte_pkt (s : State) (b : Byte) (rest : List Byte) : (s.takeFrameByte b rest).pkt = s.pkt := rfl
@[simp] theorem State.takeFrameByte_tx (s : State) (b : Byte) (rest : List Byte) : (s.takeFrameByte b rest).tx = s.tx := rfl
@[simp] theorem State.takeFrameByte_point (s : State) (b : Byte) (rest : List Byte) : (s.takeFrameByte b rest).point = s.point := rfl
@[simp] theorem State.takeFrameByte_rx (s : State) (b : Byte) (rest : List Byte) : (s.takeFrameByte b rest).rx = rest := rfl
@[simp] theorem State.takeFrameByte_port (s : State) (b : Byte) (rest : List Byte) : (s.takeFrameByte b rest).port = s.port := rfl
@[simp] theorem State.takeFrameByte_resetIn (s : State) (b : Byte) (rest : List Byte) : (s.takeFrameByte b rest).resetIn = s.resetIn := rfl
@[simp] theorem State.takeFrameByte_draws (s : State) (b : Byte) (rest : List Byte) : (s.takeFrameByte b rest).draws = s.draws := rfl
@[simp] theorem State.takeFrameByte_lastError (s : State) (b : Byte) (rest : List Byte) : (s.takeFrameByte b rest).lastError = s.lastError := rfl
@[simp] theorem State.takeFrameByte_requests (s : State) (b : Byte) (rest : List Byte) : (s.takeFrameByte b rest).requests = s.requests := rfl

/-! ### resetSequence -/

@[simp] theorem State.resetSequence_phase (s : State) (e : Bool) : (s.resetSequence e).phase = resetPhase e := rfl
@[simp] theorem State.resetSequence_len (s : State) (e : Bool) : (s.resetSequence e).len = Config.drawByte s.draws := rfl
@[simp] theorem State.resetSequence_rxcount (s : State) (e : Bool) : (s.resetSequence e).rxcount = (Config.drawByte (s.draws + 1)).toNat := rfl
@[simp] theorem State.resetSequence_rxbuf (s : State) (e : Bool) : (s.resetSequence e).rxbuf = Vector.replicate Config.rxCap none := rfl
@[simp] theorem State.resetSequence_crc (s : State) (e : Bool) : (s.resetSequence e).crc = Config.drawWord (s.draws + 2) := rfl
@[simp] theorem State.resetSequence_prot (s : State) (e : Bool) : (s.resetSequence e).prot = s.prot := rfl
@[simp] theorem State.resetSequence_flashLocked (s : State) (e : Bool) : (s.resetSequence e).flashLocked = true := rfl
@[simp] theorem State.resetSequence_optLocked (s : State) (e : Bool) : (s.resetSequence e).optLocked = true := rfl
@[simp] theorem State.resetSequence_flash (s : State) (e : Bool) : (s.resetSequence e).flash = s.flash := rfl
@[simp] theorem State.resetSequence_pkt (s : State) (e : Bool) : (s.resetSequence e).pkt = none := rfl
@[simp] theorem State.resetSequence_tx (s : State) (e : Bool) : (s.resetSequence e).tx = [] := rfl
@[simp] theorem State.resetSequence_point (s : State) (e : Bool) : (s.resetSequence e).point = none := rfl
@[simp] theorem State.resetSequence_rx (s : State) (e : Bool) : (s.resetSequence e).rx = Config.heldAfterReset (s.draws + 3) s.rx := rfl
@[simp] theorem State.resetSequence_port (s : State) (e : Bool) : (s.resetSequence e).port = s.port := rfl
@[simp] theorem State.resetSequence_resetIn (s : State) (e : Bool) : (s.resetSequence e).resetIn = s.resetIn := rfl
@[simp] theorem State.resetSequence_draws (s : State) (e : Bool) : (s.resetSequence e).draws = s.draws + 4 := rfl
@[simp] theorem State.resetSequence_lastError (s : State) (e : Bool) : (s.resetSequence e).lastError = none := rfl
@[simp] theorem State.resetSequence_requests (s : State) (e : Bool) : (s.resetSequence e).requests = [] := rfl

/-! ### sendAck -/

@[simp] theorem State.sendAck_phase (s : State) (c : Byte) (body : List Byte) : (s.sendAck c body).phase = s.phase := rfl
@[simp] theorem State.sendAck_len (s : State) (c : Byte) (body : List Byte) : (s.sendAck c body).len = s.len := rfl
@[simp] theorem State.sendAck_rxcount (s : State) (c : Byte) (body : List Byte) : (s.sendAck c body).rxcount = s.rxcount := rfl
@[simp] theorem State.sendAck_rxbuf (s : State) (c : Byte) (body : List Byte) : (s.sendAck c body).rxbuf = s.rxbuf := rfl
@[simp] theorem State.sendAck_crc (s : State) (c : Byte) (body : List Byte) : (s.sendAck c body).crc = s.crc := rfl
@[simp] theorem State.sendAck_prot (s : State) (c : Byte) (body : List Byte) : (s.sendAck c body).prot = s.prot := rfl
@[simp] theorem State.sendAck_flashLocked (s : State) (c : Byte) (body : List Byte) : (s.sendAck c body).flashLocked = s.flashLocked := rfl
@[simp] theorem State.sendAck_optLocked (s : State) (c : Byte) (body : List Byte) : (s.sendAck c body).optLocked = s.optLocked := rfl
@[simp] theorem State.sendAck_flash (s : State) (c : Byte) (body : List Byte) : (s.sendAck c body).flash = s.flash := rfl
@[simp] theorem State.sendAck_pkt (s : State) (c : Byte) (body : List Byte) : (s.sendAck c body).pkt = s.pkt := rfl
@[simp] theorem State.sendAck_tx (s : State) (c : Byte) (body : List Byte) : (s.sendAck c body).tx = s.tx ++ ([Config.ackByte, c] ++ body) := rfl
@[simp] theorem State.sendAck_point (s : State) (c : Byte) (body : List Byte) : (s.sendAck c body).point = s.point := rfl
@[simp] theorem State.sendAck_rx (s : State) (c : Byte) (body : List Byte) : (s.sendAck c body).rx = s.rx := rfl
@[simp] theorem State.sendAck_port (s : State) (c : Byte) (body : List Byte) : (s.sendAck c body).port = s.port := rfl
@[simp] theorem State.sendAck_resetIn (s : State) (c : Byte) (body : List Byte) : (s.sendAck c body).resetIn = s.resetIn := rfl
@[simp] theorem State.sendAck_draws (s : State) (c : Byte) (body : List Byte) : (s.sendAck c body).draws = s.draws := rfl
@[simp] theorem State.sendAck_lastError (s : State) (c : Byte) (body : List Byte) : (s.sendAck c body).lastError = s.lastError := rfl
@[simp] theorem State.sendAck_requests (s : State) (c : Byte) (body : List Byte) : (s.sendAck c body).requests = s.requests := rfl

/-! ### sendNack -/

@[simp] theorem State.sendNack_phase (s : State) : s.sendNack.phase = s.phase := rfl
@[simp] theorem State.sendNack_len (s : State) : s.sendNack.len = s.len := rfl
@[simp] theorem State.sendNack_rxcount (s : State) : s.sendNack.rxcount = s.rxcount := rfl
@[simp] theorem State.sendNack_rxbuf (s : State) : s.sendNack.rxbuf = s.rxbuf := rfl
@[simp] theorem State.sendNack_crc (s : State) : s.sendNack.crc = s.crc := rfl
@[simp] theorem State.sendNack_prot (s : State) : s.sendNack.prot = s.prot := rfl
@[simp] theorem State.sendNack_flashLocked (s : State) : s.sendNack.flashLocked = s.flashLocked := rfl
@[simp] theorem State.sendNack_optLocked (s : State) : s.sendNack.optLocked = s.optLocked := rfl
@[simp] theorem State.sendNack_flash (s : State) : s.sendNack.flash = s.flash := rfl
@[simp] theorem State.sendNack_pkt (s : State) : s.sendNack.pkt = s.pkt := rfl
@[simp] theorem State.sendNack_tx (s : State) : s.sendNack.tx = s.tx ++ [Config.nackByte] := rfl
@[simp] theorem State.sendNack_point (s : State) : s.sendNack.point = s.point := rfl
@[simp] theorem State.sendNack_rx (s : State) : s.sendNack.rx = s.rx := rfl
@[simp] theorem State.sendNack_port (s : State) : s.sendNack.port = s.port := rfl
@[simp] theorem State.sendNack_resetIn (s : State) : s.sendNack.resetIn = s.resetIn := rfl
@[simp] theorem State.sendNack_draws (s : State) : s.sendNack.draws = s.draws := rfl
@[simp] theorem State.sendNack_lastError (s : State) : s.sendNack.lastError = s.lastError := rfl
@[simp] theorem State.sendNack_requests (s : State) : s.sendNack.requests = s.requests := rfl

/-! ### returnToAwaitingLength -/

@[simp] theorem State.returnToAwaitingLength_phase (s : State) : s.returnToAwaitingLength.phase = .awaitingLength := rfl
@[simp] theorem State.returnToAwaitingLength_len (s : State) : s.returnToAwaitingLength.len = s.len := rfl
@[simp] theorem State.returnToAwaitingLength_rxcount (s : State) : s.returnToAwaitingLength.rxcount = s.rxcount := rfl
@[simp] theorem State.returnToAwaitingLength_rxbuf (s : State) : s.returnToAwaitingLength.rxbuf = s.rxbuf := rfl
@[simp] theorem State.returnToAwaitingLength_crc (s : State) : s.returnToAwaitingLength.crc = s.crc := rfl
@[simp] theorem State.returnToAwaitingLength_prot (s : State) : s.returnToAwaitingLength.prot = s.prot := rfl
@[simp] theorem State.returnToAwaitingLength_flashLocked (s : State) : s.returnToAwaitingLength.flashLocked = s.flashLocked := rfl
@[simp] theorem State.returnToAwaitingLength_optLocked (s : State) : s.returnToAwaitingLength.optLocked = s.optLocked := rfl
@[simp] theorem State.returnToAwaitingLength_flash (s : State) : s.returnToAwaitingLength.flash = s.flash := rfl
@[simp] theorem State.returnToAwaitingLength_pkt (s : State) : s.returnToAwaitingLength.pkt = none := rfl
@[simp] theorem State.returnToAwaitingLength_tx (s : State) : s.returnToAwaitingLength.tx = s.tx := rfl
@[simp] theorem State.returnToAwaitingLength_point (s : State) : s.returnToAwaitingLength.point = s.point := rfl
@[simp] theorem State.returnToAwaitingLength_rx (s : State) : s.returnToAwaitingLength.rx = s.rx := rfl
@[simp] theorem State.returnToAwaitingLength_port (s : State) : s.returnToAwaitingLength.port = s.port := rfl
@[simp] theorem State.returnToAwaitingLength_resetIn (s : State) : s.returnToAwaitingLength.resetIn = s.resetIn := rfl
@[simp] theorem State.returnToAwaitingLength_draws (s : State) : s.returnToAwaitingLength.draws = s.draws := rfl
@[simp] theorem State.returnToAwaitingLength_lastError (s : State) : s.returnToAwaitingLength.lastError = s.lastError := rfl
@[simp] theorem State.returnToAwaitingLength_requests (s : State) : s.returnToAwaitingLength.requests = s.requests := rfl

/-! ### raiseNack -/

@[simp] theorem State.raiseNack_phase (s : State) (e : ErrorCode) : (s.raiseNack e).phase = .awaitingLength := rfl
@[simp] theorem State.raiseNack_len (s : State) (e : ErrorCode) : (s.raiseNack e).len = s.len := rfl
@[simp] theorem State.raiseNack_rxcount (s : State) (e : ErrorCode) : (s.raiseNack e).rxcount = s.rxcount := rfl
@[simp] theorem State.raiseNack_rxbuf (s : State) (e : ErrorCode) : (s.raiseNack e).rxbuf = s.rxbuf := rfl
@[simp] theorem State.raiseNack_crc (s : State) (e : ErrorCode) : (s.raiseNack e).crc = s.crc := rfl
@[simp] theorem State.raiseNack_prot (s : State) (e : ErrorCode) : (s.raiseNack e).prot = s.prot := rfl
@[simp] theorem State.raiseNack_flashLocked (s : State) (e : ErrorCode) : (s.raiseNack e).flashLocked = s.flashLocked := rfl
@[simp] theorem State.raiseNack_optLocked (s : State) (e : ErrorCode) : (s.raiseNack e).optLocked = s.optLocked := rfl
@[simp] theorem State.raiseNack_flash (s : State) (e : ErrorCode) : (s.raiseNack e).flash = s.flash := rfl
@[simp] theorem State.raiseNack_pkt (s : State) (e : ErrorCode) : (s.raiseNack e).pkt = none := rfl
@[simp] theorem State.raiseNack_tx (s : State) (e : ErrorCode) : (s.raiseNack e).tx = s.tx ++ [Config.nackByte] := rfl
@[simp] theorem State.raiseNack_point (s : State) (e : ErrorCode) : (s.raiseNack e).point = s.point := rfl
@[simp] theorem State.raiseNack_rx (s : State) (e : ErrorCode) : (s.raiseNack e).rx = s.rx := rfl
@[simp] theorem State.raiseNack_port (s : State) (e : ErrorCode) : (s.raiseNack e).port = s.port := rfl
@[simp] theorem State.raiseNack_resetIn (s : State) (e : ErrorCode) : (s.raiseNack e).resetIn = s.resetIn := rfl
@[simp] theorem State.raiseNack_draws (s : State) (e : ErrorCode) : (s.raiseNack e).draws = s.draws := rfl
@[simp] theorem State.raiseNack_lastError (s : State) (e : ErrorCode) : (s.raiseNack e).lastError = some e := rfl
@[simp] theorem State.raiseNack_requests (s : State) (e : ErrorCode) : (s.raiseNack e).requests = s.requests := rfl

/-! ### raiseFatal -/

@[simp] theorem State.raiseFatal_phase (s : State) (r : FatalReason) : (s.raiseFatal r).phase = .halted r := rfl
@[simp] theorem State.raiseFatal_len (s : State) (r : FatalReason) : (s.raiseFatal r).len = s.len := rfl
@[simp] theorem State.raiseFatal_rxcount (s : State) (r : FatalReason) : (s.raiseFatal r).rxcount = s.rxcount := rfl
@[simp] theorem State.raiseFatal_rxbuf (s : State) (r : FatalReason) : (s.raiseFatal r).rxbuf = s.rxbuf := rfl
@[simp] theorem State.raiseFatal_crc (s : State) (r : FatalReason) : (s.raiseFatal r).crc = s.crc := rfl
@[simp] theorem State.raiseFatal_prot (s : State) (r : FatalReason) : (s.raiseFatal r).prot = s.prot := rfl
@[simp] theorem State.raiseFatal_flashLocked (s : State) (r : FatalReason) : (s.raiseFatal r).flashLocked = s.flashLocked := rfl
@[simp] theorem State.raiseFatal_optLocked (s : State) (r : FatalReason) : (s.raiseFatal r).optLocked = s.optLocked := rfl
@[simp] theorem State.raiseFatal_flash (s : State) (r : FatalReason) : (s.raiseFatal r).flash = s.flash := rfl
@[simp] theorem State.raiseFatal_pkt (s : State) (r : FatalReason) : (s.raiseFatal r).pkt = s.pkt := rfl
@[simp] theorem State.raiseFatal_tx (s : State) (r : FatalReason) : (s.raiseFatal r).tx = s.tx := rfl
@[simp] theorem State.raiseFatal_point (s : State) (r : FatalReason) : (s.raiseFatal r).point = s.point := rfl
@[simp] theorem State.raiseFatal_rx (s : State) (r : FatalReason) : (s.raiseFatal r).rx = s.rx := rfl
@[simp] theorem State.raiseFatal_port (s : State) (r : FatalReason) : (s.raiseFatal r).port = s.port := rfl
@[simp] theorem State.raiseFatal_resetIn (s : State) (r : FatalReason) : (s.raiseFatal r).resetIn = s.resetIn := rfl
@[simp] theorem State.raiseFatal_draws (s : State) (r : FatalReason) : (s.raiseFatal r).draws = s.draws := rfl
@[simp] theorem State.raiseFatal_lastError (s : State) (r : FatalReason) : (s.raiseFatal r).lastError = some (fatalCode r) := rfl
@[simp] theorem State.raiseFatal_requests (s : State) (r : FatalReason) : (s.raiseFatal r).requests = s.requests := rfl

/-! ### jump -/

@[simp] theorem State.jump_phase (s : State) (a : Word) : (s.jump a).phase = .jumped a := rfl
@[simp] theorem State.jump_len (s : State) (a : Word) : (s.jump a).len = s.len := rfl
@[simp] theorem State.jump_rxcount (s : State) (a : Word) : (s.jump a).rxcount = s.rxcount := rfl
@[simp] theorem State.jump_rxbuf (s : State) (a : Word) : (s.jump a).rxbuf = s.rxbuf := rfl
@[simp] theorem State.jump_crc (s : State) (a : Word) : (s.jump a).crc = s.crc := rfl
@[simp] theorem State.jump_prot (s : State) (a : Word) : (s.jump a).prot = s.prot := rfl
@[simp] theorem State.jump_flashLocked (s : State) (a : Word) : (s.jump a).flashLocked = s.flashLocked := rfl
@[simp] theorem State.jump_optLocked (s : State) (a : Word) : (s.jump a).optLocked = s.optLocked := rfl
@[simp] theorem State.jump_flash (s : State) (a : Word) : (s.jump a).flash = s.flash := rfl
@[simp] theorem State.jump_pkt (s : State) (a : Word) : (s.jump a).pkt = s.pkt := rfl
@[simp] theorem State.jump_tx (s : State) (a : Word) : (s.jump a).tx = s.tx := rfl
@[simp] theorem State.jump_point (s : State) (a : Word) : (s.jump a).point = s.point := rfl
@[simp] theorem State.jump_rx (s : State) (a : Word) : (s.jump a).rx = s.rx := rfl
@[simp] theorem State.jump_port (s : State) (a : Word) : (s.jump a).port = s.port := rfl
@[simp] theorem State.jump_resetIn (s : State) (a : Word) : (s.jump a).resetIn = s.resetIn := rfl
@[simp] theorem State.jump_draws (s : State) (a : Word) : (s.jump a).draws = s.draws := rfl
@[simp] theorem State.jump_lastError (s : State) (a : Word) : (s.jump a).lastError = s.lastError := rfl
@[simp] theorem State.jump_requests (s : State) (a : Word) : (s.jump a).requests = s.requests := rfl

/-! ### eraseRange -/

@[simp] theorem State.eraseRange_phase (s : State) (lo n : Nat) : (s.eraseRange lo n).phase = s.phase := rfl
@[simp] theorem State.eraseRange_len (s : State) (lo n : Nat) : (s.eraseRange lo n).len = s.len := rfl
@[simp] theorem State.eraseRange_rxcount (s : State) (lo n : Nat) : (s.eraseRange lo n).rxcount = s.rxcount := rfl
@[simp] theorem State.eraseRange_rxbuf (s : State) (lo n : Nat) : (s.eraseRange lo n).rxbuf = s.rxbuf := rfl
@[simp] theorem State.eraseRange_crc (s : State) (lo n : Nat) : (s.eraseRange lo n).crc = s.crc := rfl
@[simp] theorem State.eraseRange_prot (s : State) (lo n : Nat) : (s.eraseRange lo n).prot = s.prot := rfl
@[simp] theorem State.eraseRange_flashLocked (s : State) (lo n : Nat) : (s.eraseRange lo n).flashLocked = s.flashLocked := rfl
@[simp] theorem State.eraseRange_optLocked (s : State) (lo n : Nat) : (s.eraseRange lo n).optLocked = s.optLocked := rfl
@[simp] theorem State.eraseRange_flash (s : State) (lo n : Nat) : (s.eraseRange lo n).flash = Memory.erase s.flash lo n := rfl
@[simp] theorem State.eraseRange_pkt (s : State) (lo n : Nat) : (s.eraseRange lo n).pkt = s.pkt := rfl
@[simp] theorem State.eraseRange_tx (s : State) (lo n : Nat) : (s.eraseRange lo n).tx = s.tx := rfl
@[simp] theorem State.eraseRange_point (s : State) (lo n : Nat) : (s.eraseRange lo n).point = s.point := rfl
@[simp] theorem State.eraseRange_rx (s : State) (lo n : Nat) : (s.eraseRange lo n).rx = s.rx := rfl
@[simp] theorem State.eraseRange_port (s : State) (lo n : Nat) : (s.eraseRange lo n).port = s.port := rfl
@[simp] theorem State.eraseRange_resetIn (s : State) (lo n : Nat) : (s.eraseRange lo n).resetIn = s.resetIn := rfl
@[simp] theorem State.eraseRange_draws (s : State) (lo n : Nat) : (s.eraseRange lo n).draws = s.draws := rfl
@[simp] theorem State.eraseRange_lastError (s : State) (lo n : Nat) : (s.eraseRange lo n).lastError = s.lastError := rfl
@[simp] theorem State.eraseRange_requests (s : State) (lo n : Nat) : (s.eraseRange lo n).requests = s.requests := rfl

/-! ### drawRange -/

@[simp] theorem State.drawRange_phase (s : State) (lo n : Nat) : (s.drawRange lo n).phase = s.phase := rfl
@[simp] theorem State.drawRange_len (s : State) (lo n : Nat) : (s.drawRange lo n).len = s.len := rfl
@[simp] theorem State.drawRange_rxcount (s : State) (lo n : Nat) : (s.drawRange lo n).rxcount = s.rxcount := rfl
@[simp] theorem State.drawRange_rxbuf (s : State) (lo n : Nat) : (s.drawRange lo n).rxbuf = s.rxbuf := rfl
@[simp] theorem State.drawRange_crc (s : State) (lo n : Nat) : (s.drawRange lo n).crc = s.crc := rfl
@[simp] theorem State.drawRange_prot (s : State) (lo n : Nat) : (s.drawRange lo n).prot = s.prot := rfl
@[simp] theorem State.drawRange_flashLocked (s : State) (lo n : Nat) : (s.drawRange lo n).flashLocked = s.flashLocked := rfl
@[simp] theorem State.drawRange_optLocked (s : State) (lo n : Nat) : (s.drawRange lo n).optLocked = s.optLocked := rfl
@[simp] theorem State.drawRange_flash (s : State) (lo n : Nat) : (s.drawRange lo n).flash = Memory.fill s.flash lo (fun i => Config.drawByte (s.draws + i)) n := rfl
@[simp] theorem State.drawRange_pkt (s : State) (lo n : Nat) : (s.drawRange lo n).pkt = s.pkt := rfl
@[simp] theorem State.drawRange_tx (s : State) (lo n : Nat) : (s.drawRange lo n).tx = s.tx := rfl
@[simp] theorem State.drawRange_point (s : State) (lo n : Nat) : (s.drawRange lo n).point = s.point := rfl
@[simp] theorem State.drawRange_rx (s : State) (lo n : Nat) : (s.drawRange lo n).rx = s.rx := rfl
@[simp] theorem State.drawRange_port (s : State) (lo n : Nat) : (s.drawRange lo n).port = s.port := rfl
@[simp] theorem State.drawRange_resetIn (s : State) (lo n : Nat) : (s.drawRange lo n).resetIn = s.resetIn := rfl
@[simp] theorem State.drawRange_draws (s : State) (lo n : Nat) : (s.drawRange lo n).draws = s.draws + n := rfl
@[simp] theorem State.drawRange_lastError (s : State) (lo n : Nat) : (s.drawRange lo n).lastError = s.lastError := rfl
@[simp] theorem State.drawRange_requests (s : State) (lo n : Nat) : (s.drawRange lo n).requests = s.requests := rfl

/-! ### parsed -/

@[simp] theorem State.parsed_phase (s : State) (cells : List Byte) : (s.parsed cells).phase = s.phase := rfl
@[simp] theorem State.parsed_len (s : State) (cells : List Byte) : (s.parsed cells).len = s.len := rfl
@[simp] theorem State.parsed_rxcount (s : State) (cells : List Byte) : (s.parsed cells).rxcount = s.rxcount := rfl
@[simp] theorem State.parsed_rxbuf (s : State) (cells : List Byte) : (s.parsed cells).rxbuf = s.rxbuf := rfl
@[simp] theorem State.parsed_crc (s : State) (cells : List Byte) : (s.parsed cells).crc = crcAccumulate ((packetOf cells).command :: (packetOf cells).payload) := rfl
@[simp] theorem State.parsed_prot (s : State) (cells : List Byte) : (s.parsed cells).prot = s.prot := rfl
@[simp] theorem State.parsed_flashLocked (s : State) (cells : List Byte) : (s.parsed cells).flashLocked = s.flashLocked := rfl
@[simp] theorem State.parsed_optLocked (s : State) (cells : List Byte) : (s.parsed cells).optLocked = s.optLocked := rfl
@[simp] theorem State.parsed_flash (s : State) (cells : List Byte) : (s.parsed cells).flash = s.flash := rfl
@[simp] theorem State.parsed_pkt (s : State) (cells : List Byte) : (s.parsed cells).pkt = some (packetOf cells) := rfl
@[simp] theorem State.parsed_tx (s : State) (cells : List Byte) : (s.parsed cells).tx = s.tx := rfl
@[simp] theorem State.parsed_point (s : State) (cells : List Byte) : (s.parsed cells).point = s.point := rfl
@[simp] theorem State.parsed_rx (s : State) (cells : List Byte) : (s.parsed cells).rx = s.rx := rfl
@[simp] theorem State.parsed_port (s : State) (cells : List Byte) : (s.parsed cells).port = s.port := rfl
@[simp] theorem State.parsed_resetIn (s : State) (cells : List Byte) : (s.parsed cells).resetIn = s.resetIn := rfl
@[simp] theorem State.parsed_draws (s : State) (cells : List Byte) : (s.parsed cells).draws = s.draws := rfl
@[simp] theorem State.parsed_lastError (s : State) (cells : List Byte) : (s.parsed cells).lastError = s.lastError := rfl
@[simp] theorem State.parsed_requests (s : State) (cells : List Byte) : (s.parsed cells).requests = s.requests := rfl

/-! ### stand -/

@[simp] theorem State.stand_phase (s : State) (p : Option Point) : (s.stand p).phase = s.phase := rfl
@[simp] theorem State.stand_len (s : State) (p : Option Point) : (s.stand p).len = s.len := rfl
@[simp] theorem State.stand_rxcount (s : State) (p : Option Point) : (s.stand p).rxcount = s.rxcount := rfl
@[simp] theorem State.stand_rxbuf (s : State) (p : Option Point) : (s.stand p).rxbuf = s.rxbuf := rfl
@[simp] theorem State.stand_crc (s : State) (p : Option Point) : (s.stand p).crc = s.crc := rfl
@[simp] theorem State.stand_prot (s : State) (p : Option Point) : (s.stand p).prot = s.prot := rfl
@[simp] theorem State.stand_flashLocked (s : State) (p : Option Point) : (s.stand p).flashLocked = s.flashLocked := rfl
@[simp] theorem State.stand_optLocked (s : State) (p : Option Point) : (s.stand p).optLocked = s.optLocked := rfl
@[simp] theorem State.stand_flash (s : State) (p : Option Point) : (s.stand p).flash = s.flash := rfl
@[simp] theorem State.stand_pkt (s : State) (p : Option Point) : (s.stand p).pkt = s.pkt := rfl
@[simp] theorem State.stand_tx (s : State) (p : Option Point) : (s.stand p).tx = s.tx := rfl
@[simp] theorem State.stand_point (s : State) (p : Option Point) : (s.stand p).point = p := rfl
@[simp] theorem State.stand_rx (s : State) (p : Option Point) : (s.stand p).rx = s.rx := rfl
@[simp] theorem State.stand_port (s : State) (p : Option Point) : (s.stand p).port = s.port := rfl
@[simp] theorem State.stand_resetIn (s : State) (p : Option Point) : (s.stand p).resetIn = s.resetIn := rfl
@[simp] theorem State.stand_draws (s : State) (p : Option Point) : (s.stand p).draws = s.draws := rfl
@[simp] theorem State.stand_lastError (s : State) (p : Option Point) : (s.stand p).lastError = s.lastError := rfl
@[simp] theorem State.stand_requests (s : State) (p : Option Point) : (s.stand p).requests = s.requests := rfl

/-! ### stepped -/

@[simp] theorem State.stepped_phase (s : State) : s.stepped.phase = s.phase := rfl
@[simp] theorem State.stepped_len (s : State) : s.stepped.len = s.len := rfl
@[simp] theorem State.stepped_rxcount (s : State) : s.stepped.rxcount = s.rxcount := rfl
@[simp] theorem State.stepped_rxbuf (s : State) : s.stepped.rxbuf = s.rxbuf := rfl
@[simp] theorem State.stepped_crc (s : State) : s.stepped.crc = s.crc := rfl
@[simp] theorem State.stepped_prot (s : State) : s.stepped.prot = s.prot := rfl
@[simp] theorem State.stepped_flashLocked (s : State) : s.stepped.flashLocked = s.flashLocked := rfl
@[simp] theorem State.stepped_optLocked (s : State) : s.stepped.optLocked = s.optLocked := rfl
@[simp] theorem State.stepped_flash (s : State) : s.stepped.flash = s.flash := rfl
@[simp] theorem State.stepped_pkt (s : State) : s.stepped.pkt = s.pkt := rfl
@[simp] theorem State.stepped_tx (s : State) : s.stepped.tx = s.tx := rfl
@[simp] theorem State.stepped_point (s : State) : s.stepped.point = s.point := rfl
@[simp] theorem State.stepped_rx (s : State) : s.stepped.rx = s.rx := rfl
@[simp] theorem State.stepped_port (s : State) : s.stepped.port = s.port := rfl
@[simp] theorem State.stepped_resetIn (s : State) : s.stepped.resetIn = s.resetIn.tail := rfl
@[simp] theorem State.stepped_draws (s : State) : s.stepped.draws = s.draws := rfl
@[simp] theorem State.stepped_lastError (s : State) : s.stepped.lastError = s.lastError := rfl
@[simp] theorem State.stepped_requests (s : State) : s.stepped.requests = s.requests := rfl

/-! ### respond: what every response leaves alone -/

@[simp] theorem State.respond_len (s : State) (c : Byte) (o : ArmOutcome) : (s.respond c o).len = s.len := by
  cases o <;> rfl
@[simp] theorem State.respond_rxcount (s : State) (c : Byte) (o : ArmOutcome) : (s.respond c o).rxcount = s.rxcount := by
  cases o <;> rfl
@[simp] theorem State.respond_rxbuf (s : State) (c : Byte) (o : ArmOutcome) : (s.respond c o).rxbuf = s.rxbuf := by
  cases o <;> rfl
@[simp] theorem State.respond_crc (s : State) (c : Byte) (o : ArmOutcome) : (s.respond c o).crc = s.crc := by
  cases o <;> rfl
@[simp] theorem State.respond_prot (s : State) (c : Byte) (o : ArmOutcome) : (s.respond c o).prot = s.prot := by
  cases o <;> rfl
@[simp] theorem State.respond_flashLocked (s : State) (c : Byte) (o : ArmOutcome) : (s.respond c o).flashLocked = s.flashLocked := by
  cases o <;> rfl
@[simp] theorem State.respond_optLocked (s : State) (c : Byte) (o : ArmOutcome) : (s.respond c o).optLocked = s.optLocked := by
  cases o <;> rfl
@[simp] theorem State.respond_flash (s : State) (c : Byte) (o : ArmOutcome) : (s.respond c o).flash = s.flash := by
  cases o <;> rfl
@[simp] theorem State.respond_point (s : State) (c : Byte) (o : ArmOutcome) : (s.respond c o).point = s.point := by
  cases o <;> rfl
@[simp] theorem State.respond_rx (s : State) (c : Byte) (o : ArmOutcome) : (s.respond c o).rx = s.rx := by
  cases o <;> rfl
@[simp] theorem State.respond_port (s : State) (c : Byte) (o : ArmOutcome) : (s.respond c o).port = s.port := by
  cases o <;> rfl
@[simp] theorem State.respond_resetIn (s : State) (c : Byte) (o : ArmOutcome) : (s.respond c o).resetIn = s.resetIn := by
  cases o <;> rfl
@[simp] theorem State.respond_draws (s : State) (c : Byte) (o : ArmOutcome) : (s.respond c o).draws = s.draws := by
  cases o <;> rfl
@[simp] theorem State.respond_requests (s : State) (c : Byte) (o : ArmOutcome) : (s.respond c o).requests = s.requests := by
  cases o <;> rfl

end Sys2Proof.Machine
end

