-- ==== Sys2Proof/Laws/Port.lean ====
section
/-! SUPPORT. The flash port and the memory read port: everything a request, a sequence of requests, an operation under
its lock and a memory read can do. -/

namespace Sys2Proof.Machine

/-! ### The port script -/

@[simp] theorem PortScript.answer_zero (p : PortScript) : p.answer 0 = p.head := by
  rcases p with ⟨_ | ⟨a, as⟩, d⟩ <;> rfl

@[simp] theorem PortScript.answer_tail (p : PortScript) (k : Nat) : p.tail.answer k = p.answer (k + 1) := by
  rcases p with ⟨_ | ⟨a, as⟩, d⟩ <;> rfl

@[simp] theorem PortScript.after_zero (p : PortScript) : p.after 0 = p := rfl

@[simp] theorem PortScript.after_tail (p : PortScript) (k : Nat) : p.tail.after k = p.after (k + 1) := by
  rcases p with ⟨_ | ⟨a, as⟩, d⟩ <;> simp [PortScript.after, PortScript.tail]

theorem PortScript.tail_after (p : PortScript) (k : Nat) : (p.after k).tail = p.after (k + 1) := by
  simp [PortScript.after, PortScript.tail, List.tail_drop]

theorem PortScript.answer_after (p : PortScript) (k j : Nat) : (p.after k).answer j = p.answer (k + j) := by
  simp [PortScript.after, PortScript.answer, List.getD_eq_getElem?_getD]

@[simp] theorem PortScript.head_after (p : PortScript) (k : Nat) : (p.after k).head = p.answer k := by
  rw [← PortScript.answer_zero, PortScript.answer_after, Nat.add_zero]

theorem PortScript.after_after (p : PortScript) (k j : Nat) : (p.after k).after j = p.after (k + j) := by
  simp [PortScript.after]

theorem PortScript.tail_eq_after (p : PortScript) : p.tail = p.after 1 := by
  simp [PortScript.after, PortScript.tail]

/-! ### One request -/

@[simp] theorem State.onOk_phase (s : State) (r : PortRequest) : (s.onOk r).phase = s.phase := by
  cases r <;> simp only [State.onOk] <;> try split
  all_goals rfl
@[simp] theorem State.onFail_phase (s : State) (r : PortRequest) : (s.onFail r).phase = s.phase := by
  cases r <;> simp [State.onFail]
@[simp] theorem State.onOk_len (s : State) (r : PortRequest) : (s.onOk r).len = s.len := by
  cases r <;> simp only [State.onOk] <;> try split
  all_goals rfl
@[simp] theorem State.onFail_len (s : State) (r : PortRequest) : (s.onFail r).len = s.len := by
  cases r <;> simp [State.onFail]
@[simp] theorem State.onOk_rxcount (s : State) (r : PortRequest) : (s.onOk r).rxcount = s.rxcount := by
  cases r <;> simp only [State.onOk] <;> try split
  all_goals rfl
@[simp] theorem State.onFail_rxcount (s : State) (r : PortRequest) : (s.onFail r).rxcount = s.rxcount := by
  cases r <;> simp [State.onFail]
@[simp] theorem State.onOk_rxbuf (s : State) (r : PortRequest) : (s.onOk r).rxbuf = s.rxbuf := by
  cases r <;> simp only [State.onOk] <;> try split
  all_goals rfl
@[simp] theorem State.onFail_rxbuf (s : State) (r : PortRequest) : (s.onFail r).rxbuf = s.rxbuf := by
  cases r <;> simp [State.onFail]
@[simp] theorem State.onOk_crc (s : State) (r : PortRequest) : (s.onOk r).crc = s.crc := by
  cases r <;> simp only [State.onOk] <;> try split
  all_goals rfl
@[simp] theorem State.onFail_crc (s : State) (r : PortRequest) : (s.onFail r).crc = s.crc := by
  cases r <;> simp [State.onFail]
@[simp] theorem State.onOk_pkt (s : State) (r : PortRequest) : (s.onOk r).pkt = s.pkt := by
  cases r <;> simp only [State.onOk] <;> try split
  all_goals rfl
@[simp] theorem State.onFail_pkt (s : State) (r : PortRequest) : (s.onFail r).pkt = s.pkt := by
  cases r <;> simp [State.onFail]
@[simp] theorem State.onOk_tx (s : State) (r : PortRequest) : (s.onOk r).tx = s.tx := by
  cases r <;> simp only [State.onOk] <;> try split
  all_goals rfl
@[simp] theorem State.onFail_tx (s : State) (r : PortRequest) : (s.onFail r).tx = s.tx := by
  cases r <;> simp [State.onFail]
@[simp] theorem State.onOk_point (s : State) (r : PortRequest) : (s.onOk r).point = s.point := by
  cases r <;> simp only [State.onOk] <;> try split
  all_goals rfl
@[simp] theorem State.onFail_point (s : State) (r : PortRequest) : (s.onFail r).point = s.point := by
  cases r <;> simp [State.onFail]
@[simp] theorem State.onOk_rx (s : State) (r : PortRequest) : (s.onOk r).rx = s.rx := by
  cases r <;> simp only [State.onOk] <;> try split
  all_goals rfl
@[simp] theorem State.onFail_rx (s : State) (r : PortRequest) : (s.onFail r).rx = s.rx := by
  cases r <;> simp [State.onFail]
@[simp] theorem State.onOk_port (s : State) (r : PortRequest) : (s.onOk r).port = s.port := by
  cases r <;> simp only [State.onOk] <;> try split
  all_goals rfl
@[simp] theorem State.onFail_port (s : State) (r : PortRequest) : (s.onFail r).port = s.port := by
  cases r <;> simp [State.onFail]
@[simp] theorem State.onOk_resetIn (s : State) (r : PortRequest) : (s.onOk r).resetIn = s.resetIn := by
  cases r <;> simp only [State.onOk] <;> try split
  all_goals rfl
@[simp] theorem State.onFail_resetIn (s : State) (r : PortRequest) : (s.onFail r).resetIn = s.resetIn := by
  cases r <;> simp [State.onFail]
@[simp] theorem State.onOk_lastError (s : State) (r : PortRequest) : (s.onOk r).lastError = s.lastError := by
  cases r <;> simp only [State.onOk] <;> try split
  all_goals rfl
@[simp] theorem State.onFail_lastError (s : State) (r : PortRequest) : (s.onFail r).lastError = s.lastError := by
  cases r <;> simp [State.onFail]
@[simp] theorem State.onOk_requests (s : State) (r : PortRequest) : (s.onOk r).requests = s.requests := by
  cases r <;> simp only [State.onOk] <;> try split
  all_goals rfl
@[simp] theorem State.onFail_requests (s : State) (r : PortRequest) : (s.onFail r).requests = s.requests := by
  cases r <;> simp [State.onFail]

/-- Everything a request can come to. -/
theorem request_cases (r : PortRequest) (s : State) :
    (portReady s r = false ∧ request r s = .stopped (.portPrecondition r)) ∨
    (portReady s r = true ∧
      ((s.port.head = .ok ∧ request r s = .answered true ((s.issue r).onOk r)) ∨
       (s.port.head = .fail ∧ request r s = .answered false ((s.issue r).onFail r)) ∨
       (s.port.head = .never ∧ request r s = .stopped (.portNeverAnswers r)) ∨
       (∃ e, s.port.head = .reset e ∧ request r s = .reset (((s.issue r).onFail r).resetSequence e)))) := by
  unfold request
  cases hr : portReady s r
  · exact .inl ⟨rfl, rfl⟩
  · refine .inr ⟨rfl, ?_⟩
    cases h : s.port.head <;> simp

theorem request_ok {r : PortRequest} {s : State} (hr : portReady s r = true) (h : s.port.head = .ok) :
    request r s = .answered true ((s.issue r).onOk r) := by simp [request, hr, h]

theorem request_fail {r : PortRequest} {s : State} (hr : portReady s r = true) (h : s.port.head = .fail) :
    request r s = .answered false ((s.issue r).onFail r) := by simp [request, hr, h]

theorem request_never {r : PortRequest} {s : State} (hr : portReady s r = true) (h : s.port.head = .never) :
    request r s = .stopped (.portNeverAnswers r) := by simp [request, hr, h]

theorem request_reset {r : PortRequest} {s : State} {e : Bool} (hr : portReady s r = true)
    (h : s.port.head = .reset e) :
    request r s = .reset (((s.issue r).onFail r).resetSequence e) := by simp [request, hr, h]

theorem request_answered_inv {r : PortRequest} {s t : State} {ok : Bool} (h : request r s = .answered ok t) :
    portReady s r = true ∧
      ((ok = true ∧ s.port.head = .ok ∧ t = (s.issue r).onOk r) ∨
       (ok = false ∧ s.port.head = .fail ∧ t = (s.issue r).onFail r)) := by
  rcases request_cases r s with ⟨-, h'⟩ | ⟨hr, ⟨ha, h'⟩ | ⟨ha, h'⟩ | ⟨-, h'⟩ | ⟨e, -, h'⟩⟩ <;>
    rw [h'] at h <;> cases h <;> simp [hr, ha]

theorem request_reset_inv {r : PortRequest} {s t : State} (h : request r s = .reset t) :
    portReady s r = true ∧ ∃ e, s.port.head = .reset e ∧ t = ((s.issue r).onFail r).resetSequence e := by
  rcases request_cases r s with ⟨-, h'⟩ | ⟨hr, ⟨ha, h'⟩ | ⟨ha, h'⟩ | ⟨-, h'⟩ | ⟨e, ha, h'⟩⟩ <;>
    rw [h'] at h <;> cases h
  exact ⟨hr, e, ha, rfl⟩

theorem request_stopped_inv {r : PortRequest} {s : State} {f : Fault} (h : request r s = .stopped f) :
    (portReady s r = false ∧ f = .portPrecondition r) ∨
      (portReady s r = true ∧ s.port.head = .never ∧ f = .portNeverAnswers r) := by
  rcases request_cases r s with ⟨hr, h'⟩ | ⟨hr, ⟨ha, h'⟩ | ⟨ha, h'⟩ | ⟨ha, h'⟩ | ⟨e, ha, h'⟩⟩ <;>
    rw [h'] at h <;> cases h
  · exact .inl ⟨hr, rfl⟩
  · exact .inr ⟨hr, ha, rfl⟩

/-! ### A sequence of requests -/

/-- Packaged induction: what `ok` answers and `fail` answers of the listed requests keep holds of the state a sequence
leaves, and of the state a reset cuts short. -/
theorem requestAll_induct (P : State → Prop) {rs : List PortRequest} {s : State}
    (hok : ∀ r ∈ rs, ∀ u, P u → portReady u r = true → P ((u.issue r).onOk r))
    (hfail : ∀ r ∈ rs, ∀ u, P u → portReady u r = true → P ((u.issue r).onFail r)) (hs : P s) :
    (∀ ok t, requestAll rs s = .answered ok t → P t) ∧
      (∀ t, requestAll rs s = .reset t → ∃ u e, P u ∧ t = u.resetSequence e) := by
  induction rs generalizing s with
  | nil => exact ⟨fun ok t h => by cases h; exact hs, fun t h => by cases h⟩
  | cons r rs ih =>
    have hok' := fun q hq => hok q (List.mem_cons_of_mem r hq)
    have hfail' := fun q hq => hfail q (List.mem_cons_of_mem r hq)
    rw [requestAll]
    rcases hr : request r s with ⟨_ | _, u⟩ | u | f
    · obtain ⟨hp, ⟨h, -⟩ | ⟨-, -, rfl⟩⟩ := request_answered_inv hr
      · cases h
      · exact ⟨fun ok t h => by cases h; exact hfail r (by simp) s hs hp, fun t h => by cases h⟩
    · obtain ⟨hp, ⟨-, -, rfl⟩ | ⟨h, -⟩⟩ := request_answered_inv hr
      · exact ih hok' hfail' (hok r (by simp) s hs hp)
      · cases h
    · obtain ⟨hp, e, -, rfl⟩ := request_reset_inv hr
      exact ⟨fun ok t h => by (cases h), fun t h => by cases h; exact ⟨_, e, hfail r (by simp) s hs hp, rfl⟩⟩
    · exact ⟨fun ok t h => by (cases h), fun t h => by cases h⟩

/-- What every flash-port request leaves alone. -/
structure SameOutsidePort (s t : State) : Prop where
  phase : t.phase = s.phase
  len : t.len = s.len
  rxcount : t.rxcount = s.rxcount
  rxbuf : t.rxbuf = s.rxbuf
  crc : t.crc = s.crc
  pkt : t.pkt = s.pkt
  tx : t.tx = s.tx
  rx : t.rx = s.rx
  resetIn : t.resetIn = s.resetIn
  lastError : t.lastError = s.lastError
  point : t.point = s.point

theorem SameOutsidePort.refl (s : State) : SameOutsidePort s s := ⟨rfl, rfl, rfl, rfl, rfl, rfl, rfl, rfl, rfl, rfl, rfl⟩

theorem SameOutsidePort.trans {s t u : State} (h : SameOutsidePort s t) (k : SameOutsidePort t u) :
    SameOutsidePort s u :=
  ⟨k.1.trans h.1, k.2.trans h.2, k.3.trans h.3, k.4.trans h.4, k.5.trans h.5, k.6.trans h.6, k.7.trans h.7,
    k.8.trans h.8, k.9.trans h.9, k.10.trans h.10, k.11.trans h.11⟩

theorem sameOutsidePort_onOk (s : State) (r : PortRequest) : SameOutsidePort s ((s.issue r).onOk r) := by
  constructor <;> simp

theorem sameOutsidePort_onFail (s : State) (r : PortRequest) : SameOutsidePort s ((s.issue r).onFail r) := by
  constructor <;> simp

theorem requestAll_append (as bs : List PortRequest) (s : State) :
    requestAll (as ++ bs) s =
      match requestAll as s with
      | .answered true t => requestAll bs t
      | .answered false t => .answered false t
      | .reset t => .reset t
      | .stopped f => .stopped f := by
  induction as generalizing s with
  | nil => rfl
  | cons r as ih =>
    simp only [List.cons_append, requestAll]
    rcases request r s with ⟨_ | _, u⟩ | u | f <;> simp [ih]

/-! ### An operation under its lock -/

@[simp] theorem unlockRequest_flash : unlockRequest .flash = .flashUnlock := rfl
@[simp] theorem unlockRequest_option : unlockRequest .option = .optUnlock := rfl
@[simp] theorem relockRequest_flash : relockRequest .flash = .flashRelock := rfl
@[simp] theorem relockRequest_option : relockRequest .option = .optRelock := rfl

/-- Everything an operation under its lock can come to (spec/42_flash.md R117). -/
theorem withUnlocked_cases {lock : Lock} {failure : ErrorCode} {body : List PortRequest} {s : State} {x : OpResult}
    (h : withUnlocked lock failure body s = x) :
    (∃ t, request (unlockRequest lock) s = .reset t ∧ x = .reset t) ∨
    (∃ f, request (unlockRequest lock) s = .stopped f ∧ x = .stopped f) ∨
    (∃ t, request (unlockRequest lock) s = .answered false t ∧
      x = .finished (.operationFailure .unlockFailed) t) ∨
    (∃ t, request (unlockRequest lock) s = .answered true t ∧
      ((∃ u, requestAll body t = .reset u ∧ x = .reset u) ∨
       (∃ f, requestAll body t = .stopped f ∧ x = .stopped f) ∨
       (∃ ok u, requestAll body t = .answered ok u ∧
         ((∃ v, request (relockRequest lock) u = .reset v ∧ x = .reset v) ∨
          (∃ f, request (relockRequest lock) u = .stopped f ∧ x = .stopped f) ∨
          (∃ v, request (relockRequest lock) u = .answered false v ∧ x = .finished (.fatal .relockFailed) v) ∨
          (∃ v, request (relockRequest lock) u = .answered true v ∧
            x = .finished (if ok then .ok [] else .operationFailure failure) v))))) := by
  subst h
  unfold withUnlocked underLock closeLock
  rcases h1 : request (unlockRequest lock) s with ⟨_ | _, t⟩ | t | f
  · simp
  · refine .inr (.inr (.inr ⟨t, rfl, ?_⟩))
    dsimp only
    rcases h2 : requestAll body t with ⟨ok, u⟩ | u | f
    · refine .inr (.inr ⟨ok, u, rfl, ?_⟩)
      dsimp only
      rcases h3 : request (relockRequest lock) u with ⟨_ | _, v⟩ | v | f <;> simp
    · simp
    · simp
  · simp
  · simp

/-- Packaged induction over an operation under its lock: a property that unlocking, the listed requests and relocking
keep holds of the state the operation leaves, and of the state a reset cuts short. -/
theorem withUnlocked_induct (P : State → Prop) {lock : Lock} {failure : ErrorCode} {body : List PortRequest}
    {s : State}
    (hok : ∀ r, r ∈ body ∨ r = unlockRequest lock ∨ r = relockRequest lock →
      ∀ u, P u → portReady u r = true → P ((u.issue r).onOk r))
    (hfail : ∀ r, r ∈ body ∨ r = unlockRequest lock ∨ r = relockRequest lock →
      ∀ u, P u → portReady u r = true → P ((u.issue r).onFail r)) (hs : P s) :
    (∀ o t, withUnlocked lock failure body s = .finished o t → P t) ∧
      (∀ t, withUnlocked lock failure body s = .reset t → ∃ u e, P u ∧ t = u.resetSequence e) := by
  have one : ∀ r, r = unlockRequest lock ∨ r = relockRequest lock → ∀ u, P u →
      (∀ ok v, request r u = .answered ok v → P v) ∧
        (∀ v, request r u = .reset v → ∃ w e, P w ∧ v = w.resetSequence e) := by
    intro r hr u hu
    refine ⟨fun ok v h => ?_, fun v h => ?_⟩
    · obtain ⟨hp, ⟨-, -, rfl⟩ | ⟨-, -, rfl⟩⟩ := request_answered_inv h
      · exact hok r (.inr hr) u hu hp
      · exact hfail r (.inr hr) u hu hp
    · obtain ⟨hp, e, -, rfl⟩ := request_reset_inv h
      exact ⟨_, e, hfail r (.inr hr) u hu hp, rfl⟩
  have hall := fun t (ht : P t) => requestAll_induct P (rs := body) (s := t)
    (fun r hr => hok r (.inl hr)) (fun r hr => hfail r (.inl hr)) ht
  have main : ∀ x, withUnlocked lock failure body s = x →
      (∀ o t, x = .finished o t → P t) ∧ (∀ t, x = .reset t → ∃ u e, P u ∧ t = u.resetSequence e) := by
    intro x hx
    rcases withUnlocked_cases hx with ⟨t, h, rfl⟩ | ⟨f, h, rfl⟩ | ⟨t, h, rfl⟩ | ⟨t, h, hr⟩
    · exact ⟨fun _ _ h' => by (cases h'), fun _ h' => by cases h'; exact (one _ (.inl rfl) s hs).2 _ h⟩
    · exact ⟨fun _ _ h' => by (cases h'), fun _ h' => by cases h'⟩
    · exact ⟨fun _ _ h' => by cases h'; exact (one _ (.inl rfl) s hs).1 _ _ h, fun _ h' => by cases h'⟩
    · have ht : P t := (one _ (.inl rfl) s hs).1 _ _ h
      rcases hr with ⟨u, h2, rfl⟩ | ⟨f, h2, rfl⟩ | ⟨ok, u, h2, hr⟩
      · exact ⟨fun _ _ h' => by (cases h'), fun _ h' => by cases h'; exact (hall t ht).2 _ h2⟩
      · exact ⟨fun _ _ h' => by (cases h'), fun _ h' => by cases h'⟩
      · have hu : P u := (hall t ht).1 _ _ h2
        rcases hr with ⟨v, h3, rfl⟩ | ⟨f, h3, rfl⟩ | ⟨v, h3, rfl⟩ | ⟨v, h3, rfl⟩
        · exact ⟨fun _ _ h' => by (cases h'), fun _ h' => by cases h'; exact (one _ (.inr rfl) u hu).2 _ h3⟩
        · exact ⟨fun _ _ h' => by (cases h'), fun _ h' => by cases h'⟩
        · exact ⟨fun _ _ h' => by cases h'; exact (one _ (.inr rfl) u hu).1 _ _ h3, fun _ h' => by cases h'⟩
        · exact ⟨fun _ _ h' => by cases h'; exact (one _ (.inr rfl) u hu).1 _ _ h3, fun _ h' => by cases h'⟩
  exact main _ rfl

/-- A mutating command behind its gate, to its end (spec/42_flash.md R116, R117). -/
def runGated (command : Byte) (lock : Lock) (failure : ErrorCode) (gate : Except ErrorCode (List PortRequest))
    (s : State) : Host.Outcome State Fault Refusal :=
  complete (gatedPoint command lock failure gate) s

/-- Everything a mutating command can come to (spec/42_flash.md R116, R117, spec/43_dispatcher.md R152). -/
theorem runGated_next_inv {command : Byte} {lock : Lock} {failure : ErrorCode}
    {gate : Except ErrorCode (List PortRequest)} {s t : State}
    (h : runGated command lock failure gate s = .next t) :
    (∃ e, gate = .error e ∧ t = s.raiseNack e) ∨
    (∃ body, gate = .ok body ∧
      ((∃ o u, withUnlocked lock failure body s = .finished o u ∧ t = u.respond command o) ∨
       withUnlocked lock failure body s = .reset t)) := by
  unfold runGated gatedPoint at h
  rcases gate with e | body
  · cases h
    exact .inl ⟨e, rfl, rfl⟩
  · refine .inr ⟨body, rfl, ?_⟩
    revert h
    dsimp only [complete, respondTo]
    rcases withUnlocked lock failure body s with ⟨o, u⟩ | u | f <;> intro h <;> cases h
    · exact .inl ⟨o, u, rfl, rfl⟩
    · exact .inr rfl

/-! ### The memory read port -/

/-- A range of flash reads as the flash holds, and nothing changes (spec/10_state.md R28). -/
theorem memReadRange_flash {a n : Nat} {s : State} (h : ∀ i, i < n → classify (a + i) = .nonVolatile) :
    memReadRange a n s = .ok ((List.range n).map (fun i => Memory.read s.flash (a + i)), s) := by
  induction n generalizing a with
  | zero => rfl
  | succ n ih =>
    have h0 : classify a = .nonVolatile := h 0 (by omega)
    have hm : memRead a s = .ok (Memory.read s.flash a, s) := by simp [memRead, h0]
    rw [memReadRange, hm]
    dsimp only
    rw [ih fun i hi => by have := h (i + 1) (by omega); rwa [Nat.add_comm i 1, ← Nat.add_assoc] at this]
    simp [List.range_succ_eq_map, Function.comp_def, Nat.add_assoc, Nat.add_comm 1]

/-- A range of RAM reads as fresh draws, which are counted (spec/10_state.md R28). -/
theorem memReadRange_ram {a n : Nat} {s : State}
    (h : ∀ i, i < n → classify (a + i) ≠ .nonVolatile ∧ classify (a + i) ≠ .unknown) :
    memReadRange a n s = .ok ((List.range n).map (fun i => Config.drawByte (s.draws + i)), s.drawn n) := by
  induction n generalizing a s with
  | zero => rfl
  | succ n ih =>
    have h0 := h 0 (by omega)
    rw [Nat.add_zero] at h0
    have hm : memRead a s = .ok (Config.drawByte s.draws, s.drawn 1) := by
      unfold memRead
      rcases hc : classify a <;> simp_all
    rw [memReadRange, hm]
    dsimp only
    rw [ih fun i hi => by have := h (i + 1) (by omega); rwa [Nat.add_comm i 1, ← Nat.add_assoc] at this]
    simp [List.range_succ_eq_map, Function.comp_def, Nat.add_assoc, Nat.add_comm 1, State.drawn]

end Sys2Proof.Machine
end

