-- ==== Sys2Proof/Laws/Flash.lean ====
section
/-! SUPPORT. The Flash Manager's gates and request sequences: when a gate opens, and what its requests leave when they
are all answered `ok`. -/

namespace Sys2Proof.Machine

/-! ### Gates -/

/-- What an erase gate lets through (spec/42_flash.md R119). -/
theorem eraseGate_ok_inv {sector count : Byte} {prot : ProtectionStatus} {body : List PortRequest}
    (h : eraseGate sector count prot = .ok body) :
    (sector = Config.massEraseSentinel ∧ body = [.massErase]) ∨
    (sector.toNat < Config.numSectors ∧ 1 ≤ count.toNat ∧
      body = (sectorSpan sector.toNat (eraseSpan sector.toNat count.toNat)).map .eraseSector) := by
  unfold eraseGate at h
  split_ifs at h with h1 h2 h3 h4 h5 h6 h7 h8
  · cases h
    exact .inl ⟨h2, rfl⟩
  · cases h
    refine .inr ⟨?_, by omega, rfl⟩
    rw [sectorFor_isNone_iff] at h5
    omega

/-- What a write gate lets through (spec/42_flash.md R125). -/
theorem writeGate_ok_inv {addr : Nat} {data : List Byte} {prot : ProtectionStatus} {body : List PortRequest}
    (h : writeGate addr data prot = .ok body) :
    classifyRange addr data.length = .nonVolatile ∧ body = programRequests addr data := by
  unfold writeGate at h
  split_ifs at h with h1 h2 h3
  cases h
  exact ⟨by simpa using h1, rfl⟩

/-- What a protection gate lets through (spec/42_flash.md R127). -/
theorem protectGate_ok_inv {mask : Byte} {mode : ProtMode} {prot : ProtectionStatus} {body : List PortRequest}
    (h : protectGate mask mode prot = .ok body) :
    mask ≠ 0 ∧ body = [.optApply (mergedMask prot.mask mask) mode] := by
  unfold protectGate at h
  split_ifs at h with h1 h2
  cases h
  exact ⟨h1, rfl⟩

theorem mem_sectorSpan {sector n k : Nat} : k ∈ sectorSpan sector n ↔ sector ≤ k ∧ k < sector + n := by
  simp only [sectorSpan, List.mem_map, List.mem_range]
  constructor
  · rintro ⟨i, hi, rfl⟩
    omega
  · rintro ⟨h1, h2⟩
    exact ⟨k - sector, by omega, by omega⟩

@[simp] theorem sectorSpan_zero (sector : Nat) : sectorSpan sector 0 = [] := rfl

theorem sectorSpan_succ (sector n : Nat) : sectorSpan sector (n + 1) = sector :: sectorSpan (sector + 1) n := by
  simp [sectorSpan, List.range_succ_eq_map, Function.comp_def, Nat.add_assoc, Nat.add_comm 1]

@[simp] theorem sectorSpan_length (sector n : Nat) : (sectorSpan sector n).length = n := by simp [sectorSpan]

@[simp] theorem programRequests_length (a : Nat) (data : List Byte) :
    (programRequests a data).length = data.length := by
  induction data generalizing a with
  | nil => rfl
  | cons b bs ih => simp [programRequests, ih]

/-- Every request of a write programs one of its bytes. -/
theorem mem_programRequests {a : Nat} {data : List Byte} {r : PortRequest} (h : r ∈ programRequests a data) :
    ∃ x v, r = .programByte x v ∧ a ≤ x ∧ x < a + data.length := by
  induction data generalizing a with
  | nil => cases h
  | cons b bs ih =>
    rcases List.mem_cons.1 h with rfl | h
    · exact ⟨a, b, rfl, le_refl _, by simp⟩
    · obtain ⟨x, v, rfl, h1, h2⟩ := ih h
      exact ⟨x, v, rfl, by omega, by simp; omega⟩

/-! ### Sequences answered `ok` -/

theorem State.answersOk_head {s : State} {n : Nat} (h : s.answersOk (n + 1)) : s.port.head = .ok := by
  simpa using h 0 (by omega)

theorem State.answersOk_onOk {s : State} {n : Nat} (h : s.answersOk (n + 1)) (r : PortRequest) :
    ((s.issue r).onOk r).answersOk n := fun k hk => by simpa using h (k + 1) (by omega)

theorem State.answersOk_mono {s : State} {n m : Nat} (h : s.answersOk n) (hm : m ≤ n) : s.answersOk m :=
  fun k hk => h k (by omega)

/-- The flash array with the listed sectors erased. -/
def eraseSectors (m : Memory) (ks : List Nat) : Memory :=
  ks.foldl (fun m k => Memory.erase m (sectorBase k) (sectorSize k)) m

/-- Reading after sectors were erased. -/
theorem read_eraseSectors (m : Memory) (ks : List Nat) (hks : ∀ k ∈ ks, k < Config.numSectors) (a : Nat) :
    ((∃ k ∈ ks, sectorOf a = some k) → Memory.read (eraseSectors m ks) a = Config.erasedValue) ∧
      ((∀ k ∈ ks, sectorOf a ≠ some k) → Memory.read (eraseSectors m ks) a = Memory.read m a) := by
  induction ks generalizing m with
  | nil => simp [eraseSectors]
  | cons k ks ih =>
    have hk := hks k (by simp)
    have ih' := ih (Memory.erase m (sectorBase k) (sectorSize k)) fun j hj => hks j (List.mem_cons_of_mem _ hj)
    have hread := Memory.read_erase m (sectorBase k) (sectorSize k) a
    have hiff := sectorOf_eq_some_iff a k
    have hstep : eraseSectors m (k :: ks) = eraseSectors (Memory.erase m (sectorBase k) (sectorSize k)) ks := rfl
    rw [hstep]
    by_cases hmem : ∃ j ∈ ks, sectorOf a = some j
    · refine ⟨fun _ => ih'.1 hmem, fun h => ?_⟩
      obtain ⟨j, hj, h'⟩ := hmem
      exact absurd h' (h j (List.mem_cons_of_mem _ hj))
    · have hnone : ∀ j ∈ ks, sectorOf a ≠ some j := fun j hj h => hmem ⟨j, hj, h⟩
      rw [ih'.2 hnone, hread]
      constructor
      · rintro ⟨j, hj, h⟩
        rcases List.mem_cons.1 hj with rfl | hj
        · rw [if_pos (hiff.1 h).2]
        · exact absurd h (hnone j hj)
      · intro h
        rw [if_neg fun hin => h k (by simp) (hiff.2 ⟨hk, hin⟩)]

/-- Erasing sectors, every request answered `ok`. -/
theorem requestAll_erase_ok (ks : List Nat) (s : State) (hks : ∀ k ∈ ks, k < Config.numSectors)
    (hl : s.flashLocked = false) (hok : s.answersOk ks.length) :
    requestAll (ks.map .eraseSector) s =
      .answered true { s.requested (ks.map .eraseSector) with flash := eraseSectors s.flash ks } := by
  induction ks generalizing s with
  | nil => simp [requestAll, State.requested, eraseSectors]
  | cons k ks ih =>
    have hk := hks k (by simp)
    have hr : portReady s (.eraseSector k) = true := by simp [portReady, hl, hk]
    rw [List.map_cons, requestAll, request_ok hr (State.answersOk_head hok)]
    dsimp only
    rw [ih _ (fun j hj => hks j (List.mem_cons_of_mem _ hj)) (by simpa [State.onOk] using hl)
      (State.answersOk_onOk hok _)]
    simp [State.requested, State.onOk, State.eraseRange, State.issue, State.setFlash, eraseSectors]

/-- Programming one byte is a write of it, or of a draw where the old byte was not ERASED_VALUE (spec/10_state.md R27). -/
theorem State.onOk_programByte (s : State) (a : Nat) (v : Byte) :
    (Memory.read s.flash a = Config.erasedValue ∧
        s.onOk (.programByte a v) = s.setFlash (Memory.write s.flash a v)) ∨
      (Memory.read s.flash a ≠ Config.erasedValue ∧ s.onOk (.programByte a v) = s.drawRange a 1) := by
  by_cases h : Memory.read s.flash a = Config.erasedValue
  · exact .inl ⟨h, by simp [State.onOk, h]⟩
  · exact .inr ⟨h, by simp [State.onOk, h]⟩

/-- A draw of one byte keeps the canonical form. -/
theorem State.drawRange_wf {s : State} {lo n : Nat} (hwf : Memory.wf s.flash)
    (ha : ∀ i, i < n → classify (lo + i) = .nonVolatile) : Memory.wf (s.drawRange lo n).flash := by
  rw [State.drawRange_flash]
  exact Memory.wf_fill hwf _ _ _ ha

/-- What programming one byte leaves of the flash array. -/
theorem State.onOk_programByte_flash {s : State} {a : Nat} {v : Byte} (hwf : Memory.wf s.flash)
    (ha : classify a = .nonVolatile) :
    Memory.wf (s.onOk (.programByte a v)).flash ∧
      (Memory.read s.flash a = Config.erasedValue → Memory.read (s.onOk (.programByte a v)).flash a = v) ∧
      (∀ x, x ≠ a → Memory.read (s.onOk (.programByte a v)).flash x = Memory.read s.flash x) ∧
      ∃ m d, s.onOk (.programByte a v) = { s with flash := m, draws := d } := by
  rcases State.onOk_programByte s a v with ⟨he, h⟩ | ⟨he, h⟩ <;> rw [h]
  · refine ⟨Memory.wf_write hwf ha, fun _ => ?_, fun x hx => ?_, _, _, rfl⟩
    · simp [Memory.read_write hwf]
    · simp [Memory.read_write hwf, hx]
  · refine ⟨State.drawRange_wf hwf fun i hi => ?_, fun h' => absurd h' he, fun x hx => ?_, _, _, rfl⟩
    · obtain rfl : i = 0 := by omega
      exact ha
    · rw [State.drawRange_flash, Memory.read_fill, if_neg (by omega)]

/-- What programming bytes leaves, every request answered `ok`: each byte whose old value was ERASED_VALUE holds its new
value, and nothing outside the range changes. -/
theorem requestAll_program_ok (data : List Byte) (a : Nat) (s : State)
    (ha : ∀ i, i < data.length → classify (a + i) = .nonVolatile) (hl : s.flashLocked = false)
    (hwf : Memory.wf s.flash) (hok : s.answersOk data.length) :
    ∃ m d, requestAll (programRequests a data) s =
        .answered true { s.requested (programRequests a data) with flash := m, draws := d } ∧ Memory.wf m ∧
      (∀ i b, data[i]? = some b → Memory.read s.flash (a + i) = Config.erasedValue → Memory.read m (a + i) = b) ∧
      (∀ x, ¬(a ≤ x ∧ x < a + data.length) → Memory.read m x = Memory.read s.flash x) := by
  induction data generalizing a s with
  | nil => exact ⟨s.flash, s.draws, by simp [requestAll, programRequests, State.requested], hwf, by simp, by simp⟩
  | cons b bs ih =>
    have h0 : classify a = .nonVolatile := ha 0 (by simp)
    have hr : portReady s (.programByte a b) = true := by simp [portReady, hl, h0]
    rw [programRequests, requestAll, request_ok hr (State.answersOk_head hok)]
    dsimp only
    obtain ⟨huwf, hat, hout, m', d', hu⟩ :=
      State.onOk_programByte_flash (s := s.issue (.programByte a b)) (v := b) hwf h0
    have hul : ((s.issue (.programByte a b)).onOk (.programByte a b)).flashLocked = false := by rw [hu]; exact hl
    have huok := State.answersOk_onOk hok (.programByte a b)
    obtain ⟨m, d, hm, hmwf, hin, hmout⟩ := ih (a + 1) _
      (fun i hi => by have := ha (i + 1) (by simp; omega); rwa [Nat.add_comm i 1, ← Nat.add_assoc] at this)
      hul huwf huok
    refine ⟨m, d, ?_, hmwf, ?_, ?_⟩
    · rw [hm, hu]
      simp [State.requested, State.issue]
    · intro i b' hi he
      rcases i with _ | i
      · simp only [List.getElem?_cons_zero, Option.some.injEq] at hi
        subst hi
        rw [Nat.add_zero] at he ⊢
        rw [hmout a (by omega)]
        exact hat he
      · rw [List.getElem?_cons_succ] at hi
        have hx : a + (i + 1) = a + 1 + i := by omega
        rw [hx] at he ⊢
        exact hin i b' hi (by rw [hout _ (by omega)]; exact he)
    · intro x hx
      rw [hmout x (by simp only [List.length_cons] at hx; omega), hout x (by simp only [List.length_cons] at hx; omega), State.issue_flash]

end Sys2Proof.Machine
end

