-- ==== Sys2Proof/Laws/Points.lean ====
section
/-! SUPPORT. The points of a command: that a step from a point and the way to the command's end agree, and what a step
from a point can do (spec/43_dispatcher.md R145, spec/10_state.md R33). -/

namespace Sys2Proof.Machine

/-- A command's meaning is the way from the point its checks lead to. -/
theorem exec_eq (i : Instr) (s : State) : exec i s = complete (commandPoint i s) s := by cases i <;> rfl

/-- The first step of a command is a step from the point its checks lead to. -/
theorem begin_eq {i : Instr} {s : State} (h : s.point = none) : begin i s = advance (commandPoint i s) s := by
  unfold begin
  split
  · rename_i c o hp
    rw [exec_eq, hp]
    show Host.Outcome.next (s.respond c o) = .next ((s.respond c o).stand none)
    congr 1
    rw [State.stand, show none = (s.respond c o).point by rw [State.respond_point, h]]
  · rfl

/-- How many steps are left from a point at most, but one. -/
def Point.left : Point → Nat
  | .unlocking _ _ _ body => body.length + 3
  | .working _ _ _ body => body.length + 2
  | .relocking _ _ _ => 1
  | .reading _ _ n _ => n + 1
  | .responding _ _ => 0
  | .rejecting _ => 0

/-- A memory read that answers changes the draw counter at most (spec/10_state.md R28). -/
theorem memRead_same {a : Nat} {s t : State} {b : Byte} (h : memRead a s = .ok (b, t)) :
    (t = s ∧ classify a = .nonVolatile) ∨ (t = s.drawn 1 ∧ classify a ≠ .nonVolatile ∧ classify a ≠ .unknown) := by
  unfold memRead at h
  cases hc : classify a <;> rw [hc] at h <;> cases h
  all_goals first
    | exact .inl ⟨rfl, rfl⟩
    | exact .inr ⟨rfl, by simp, by simp⟩

/-- Everything a step from a point can come to: a request, a read, a response, or a move to the next point. -/
theorem tick_cases (p : Point) (s : State) :
    (∃ r k, request r s = .stopped k ∧ tick p s = .fault k) ∨
    (∃ r t, request r s = .reset t ∧ tick p s = .next (none, t)) ∨
    (∃ r ok t q, request r s = .answered ok t ∧ tick p s = .next (some q, t) ∧ q.left < p.left ∧
      complete p s = complete q t) ∨
    (∃ c a n got k, p = .reading c a (n + 1) got ∧ memRead a s = .error k ∧ tick p s = .fault k) ∨
    (∃ c a n got b t, p = .reading c a (n + 1) got ∧ memRead a s = .ok (b, t) ∧
      tick p s = .next (some (readPoint c (a + 1) (got ++ [b]) n), t) ∧
      (readPoint c (a + 1) (got ++ [b]) n).left < p.left ∧
      complete p s = complete (readPoint c (a + 1) (got ++ [b]) n) t) ∨
    (∃ q, tick p s = .next (some q, s) ∧ q.left < p.left ∧ complete p s = complete q s) ∨
    (∃ c o, p = .responding c o ∧ tick p s = .next (none, s.respond c o)) ∨
    (∃ e, p = .rejecting e ∧ tick p s = .next (none, s.raiseNack e)) := by
  have work : ∀ c lock failure body (t : State),
      complete (workPoint c lock failure body) t = respondTo c (underLock lock failure body t) := by
    intro c lock failure body t
    cases body <;> rfl
  have workLeft : ∀ c lock failure (body : List PortRequest), (workPoint c lock failure body).left ≤ body.length + 2 := by
    intro c lock failure body
    cases body <;> simp [workPoint, Point.left]
  cases p with
  | unlocking c lock failure body =>
    rcases hr : request (unlockRequest lock) s with ⟨_ | _, t⟩ | t | k
    · refine .inr (.inr (.inl ⟨_, _, t, _, hr, by rw [tick, hr], by simp [Point.left], ?_⟩))
      rw [complete, withUnlocked, hr]; rfl
    · refine .inr (.inr (.inl ⟨_, _, t, _, hr, by rw [tick, hr], ?_, ?_⟩))
      · have := workLeft c lock failure body
        exact Nat.lt_succ_of_le this
      · rw [complete, withUnlocked, hr, work]
    · exact .inr (.inl ⟨_, t, hr, by rw [tick, hr]⟩)
    · exact .inl ⟨_, k, hr, by rw [tick, hr]⟩
  | working c lock failure body =>
    cases body with
    | nil => exact .inr (.inr (.inr (.inr (.inr (.inl ⟨_, rfl, by simp [Point.left], rfl⟩)))))
    | cons r rs =>
      rcases hr : request r s with ⟨_ | _, t⟩ | t | k
      · refine .inr (.inr (.inl ⟨_, _, t, _, hr, by rw [tick, hr], by simp [Point.left], ?_⟩))
        rw [complete, underLock, requestAll, hr]; rfl
      · refine .inr (.inr (.inl ⟨_, _, t, _, hr, by rw [tick, hr], ?_, ?_⟩))
        · have := workLeft c lock failure rs
          exact Nat.lt_of_le_of_lt this (by simp [Point.left])
        · rw [complete, underLock, requestAll, hr, work]; rfl
      · exact .inr (.inl ⟨_, t, hr, by rw [tick, hr]⟩)
      · exact .inl ⟨_, k, hr, by rw [tick, hr]⟩
  | relocking c lock o =>
    rcases hr : request (relockRequest lock) s with ⟨_ | _, t⟩ | t | k
    · refine .inr (.inr (.inl ⟨_, _, t, _, hr, by rw [tick, hr], by simp [Point.left], ?_⟩))
      rw [complete, closeLock, hr]; rfl
    · refine .inr (.inr (.inl ⟨_, _, t, _, hr, by rw [tick, hr], by simp [Point.left], ?_⟩))
      rw [complete, closeLock, hr]; rfl
    · exact .inr (.inl ⟨_, t, hr, by rw [tick, hr]⟩)
    · exact .inl ⟨_, k, hr, by rw [tick, hr]⟩
  | reading c a n got =>
    cases n with
    | zero =>
      refine .inr (.inr (.inr (.inr (.inr (.inl ⟨_, rfl, by simp [Point.left], ?_⟩)))))
      simp [complete, memReadRange]
    | succ n =>
      rcases hm : memRead a s with k | ⟨b, t⟩
      · exact .inr (.inr (.inr (.inl ⟨c, a, n, got, k, rfl, hm, by rw [tick, hm]⟩)))
      · refine .inr (.inr (.inr (.inr (.inl ⟨c, a, n, got, b, t, rfl, hm, by rw [tick, hm], ?_, ?_⟩))))
        · cases n <;> simp [readPoint, Point.left]
        · rw [complete, memReadRange, hm]
          dsimp only
          cases n with
          | zero => rfl
          | succ n =>
            rw [readPoint, complete]
            rcases memReadRange (a + 1) (n + 1) t with k | ⟨bs, u⟩
            · rfl
            · simp
  | responding c o => exact .inr (.inr (.inr (.inr (.inr (.inr (.inl ⟨c, o, rfl, rfl⟩))))))
  | rejecting e => exact .inr (.inr (.inr (.inr (.inr (.inr (.inr ⟨e, rfl, rfl⟩))))))

/-- What a step to a next point leaves alone (spec/10_state.md R27, R28). -/
theorem tick_same {p q : Point} {s t : State} (h : tick p s = .next (some q, t)) :
    SameOutsidePort s t ∧ q.left < p.left ∧ complete p s = complete q t := by
  have same : ∀ {r : PortRequest} {ok : Bool} {u : State}, request r s = .answered ok u → SameOutsidePort s u := by
    intro r ok u hr
    obtain ⟨-, ⟨-, -, rfl⟩ | ⟨-, -, rfl⟩⟩ := request_answered_inv hr
    · exact sameOutsidePort_onOk _ _
    · exact sameOutsidePort_onFail _ _
  rcases tick_cases p s with ⟨r, k, -, ht⟩ | ⟨r, u, -, ht⟩ | ⟨r, ok, u, q', hr, ht, hl, hc⟩ | ⟨c, a, n, got, k, -, -, ht⟩ |
    ⟨c, a, n, got, b, u, -, hm, ht, hl, hc⟩ | ⟨q', ht, hl, hc⟩ | ⟨c, o, -, ht⟩ | ⟨e, -, ht⟩ <;> rw [ht] at h <;> cases h
  · exact ⟨same hr, hl, hc⟩
  · refine ⟨?_, hl, hc⟩
    rcases memRead_same hm with ⟨rfl, -⟩ | ⟨rfl, -⟩
    · exact .refl _
    · constructor <;> rfl
  · exact ⟨.refl _, hl, hc⟩

/-- A step that ends the command ends it as the whole way does. -/
theorem tick_none {p : Point} {s t : State} (h : tick p s = .next (none, t)) : complete p s = .next t := by
  cases p with
  | unlocking c lock failure body =>
    rcases hr : request (unlockRequest lock) s with ⟨_ | _, u⟩ | u | k <;> rw [tick, hr] at h <;> cases h
    rw [complete, withUnlocked, hr]; rfl
  | working c lock failure body =>
    cases body with
    | nil => cases h
    | cons r rs =>
      rcases hr : request r s with ⟨_ | _, u⟩ | u | k <;> rw [tick, hr] at h <;> cases h
      rw [complete, underLock, requestAll, hr]; rfl
  | relocking c lock o =>
    rcases hr : request (relockRequest lock) s with ⟨_ | _, u⟩ | u | k <;> rw [tick, hr] at h <;> cases h
    rw [complete, closeLock, hr]; rfl
  | reading c a n got =>
    cases n with
    | zero => cases h
    | succ n => rcases hm : memRead a s with k | ⟨b, u⟩ <;> rw [tick, hm] at h <;> cases h
  | responding c o => cases h; rfl
  | rejecting e => cases h; rfl

/-- A step that stops stops the whole way. -/
theorem tick_fault {p : Point} {s : State} {k : Fault} (h : tick p s = .fault k) : complete p s = .fault k := by
  cases p with
  | unlocking c lock failure body =>
    rcases hr : request (unlockRequest lock) s with ⟨_ | _, u⟩ | u | k' <;> rw [tick, hr] at h <;> cases h
    rw [complete, withUnlocked, hr]; rfl
  | working c lock failure body =>
    cases body with
    | nil => cases h
    | cons r rs =>
      rcases hr : request r s with ⟨_ | _, u⟩ | u | k' <;> rw [tick, hr] at h <;> cases h
      rw [complete, underLock, requestAll, hr]; rfl
  | relocking c lock o =>
    rcases hr : request (relockRequest lock) s with ⟨_ | _, u⟩ | u | k' <;> rw [tick, hr] at h <;> cases h
    rw [complete, closeLock, hr]; rfl
  | reading c a n got =>
    cases n with
    | zero => cases h
    | succ n =>
      rcases hm : memRead a s with k' | ⟨b, u⟩ <;> rw [tick, hm] at h <;> cases h
      rw [complete, memReadRange, hm]
  | responding c o => cases h
  | rejecting e => cases h

/-- A step from a point is never refused. -/
theorem tick_not_refused (p : Point) (s : State) (r : Refusal) : tick p s ≠ .refused r := by
  intro h
  rcases tick_cases p s with ⟨_, _, -, ht⟩ | ⟨_, _, -, ht⟩ | ⟨_, _, _, _, -, ht, -⟩ | ⟨_, _, _, _, _, -, -, ht⟩ |
    ⟨_, _, _, _, _, _, -, -, ht, -⟩ | ⟨_, ht, -⟩ | ⟨_, _, -, ht⟩ | ⟨_, -, ht⟩ <;> rw [ht] at h <;> cases h

/-- With no reset to come a step is the step the phase chooses. -/
theorem step_phase {s : State} (hr : s.resetIn = []) : step s = phaseStep s := by
  have h1 : s.resetDue = none := by simp [State.resetDue, hr]
  have h2 : s.stepped = s := by rw [State.stepped, hr, List.tail_nil, ← hr]
  rw [step, h1]
  dsimp only
  rw [h2]

/-- In Dispatch with no reset to come, a step from the point reached. -/
theorem step_point {p : Point} {s : State} (hr : s.resetIn = []) (hp : s.phase = .dispatch) (hn : s.point = none) :
    step (s.stand (some p)) = advance p s := by
  have h3 : (s.stand (some p)).stand none = s := by rw [State.stand, State.stand, ← hn]
  rw [step_phase (by simpa using hr), phaseStep, State.stand_phase, hp]
  dsimp only
  rw [dispatchStep, State.stand_point]
  dsimp only
  rw [h3]

/-- The steps from a point reach the end of the command, or the step that stops it, with nothing sent before
(spec/43_dispatcher.md R145). -/
theorem run_complete (n : Nat) (p : Point) (s : State) (hl : p.left < n) (hr : s.resetIn = []) (hp : s.phase = .dispatch)
    (hn : s.point = none) :
    ∃ m, (∀ t, complete p s = .next t → run m (s.stand (some p)) = .next (t.stand none)) ∧
      (∀ k, complete p s = .fault k → ∃ v, run m (s.stand (some p)) = .next v ∧ v.phase = .dispatch ∧ v.tx = s.tx ∧
        v.rx = s.rx ∧ v.point ≠ none ∧ step v = .fault k) ∧
      (∀ r, complete p s ≠ .refused r) := by
  induction n generalizing p s with
  | zero => omega
  | succ n ih =>
    have hstep := step_point (p := p) hr hp hn
    unfold advance at hstep
    rcases ht : tick p s with ⟨_ | q, t⟩ | k | r <;> rw [ht] at hstep <;> dsimp only at hstep
    · have hc := tick_none ht
      refine ⟨1, fun u hu => ?_, fun k hk => (by rw [hc] at hk; cases hk), fun r hr => (by rw [hc] at hr; cases hr)⟩
      rw [hc] at hu
      cases hu
      rw [run, hstep]; rfl
    · obtain ⟨hs, hlt, hc⟩ := tick_same ht
      obtain ⟨m, h1, h2, h3⟩ := ih q t (by omega) (hs.resetIn.trans hr) (hs.phase.trans hp) (hs.point.trans hn)
      rw [hc]
      refine ⟨m + 1, fun u hu => ?_, fun k hk => ?_, h3⟩
      · rw [run, hstep]; exact h1 u hu
      · obtain ⟨v, hv, hvp, hvt, hvr, hvn, hvs⟩ := h2 k hk
        exact ⟨v, by rw [run, hstep]; exact hv, hvp, hvt.trans hs.tx, hvr.trans hs.rx, hvn, hvs⟩
    · have hc := tick_fault ht
      refine ⟨0, fun u hu => (by rw [hc] at hu; cases hu), fun k' hk => ?_, fun r hr => (by rw [hc] at hr; cases hr)⟩
      rw [hc] at hk
      cases hk
      exact ⟨_, rfl, hp, rfl, rfl, by simp, hstep⟩
    · exact absurd ht (tick_not_refused _ _ _)

end Sys2Proof.Machine
end

