-- ==== Sys2Proof/Laws/Exec.lean ====
section
/-! SUPPORT. The shape of every command: it answers at once, or it runs requests under a lock. Statements over all
instructions go through these lemmas. -/

namespace Sys2Proof.Machine

@[simp] theorem noOperands_nil : noOperands [] = some () := rfl

theorem noOperands_eq_none {p : List Byte} (h : p ≠ []) : noOperands p = none := by
  cases p with
  | nil => exact absurd rfl h
  | cons b bs => rfl

/-- The requests a command lets through its gate, by its lock. -/
inductive AllowedBody : Instr → Lock → List PortRequest → Prop where
  /-- A ranged erase (spec/42_flash.md R119). -/
  | erase {p : List Byte} {sector count : Byte} (hp : bytePair p = some (sector, count))
      (hs : sector.toNat < Config.numSectors) :
      AllowedBody (.eraseFlash p) .flash
        ((sectorSpan sector.toNat (eraseSpan sector.toNat count.toNat)).map .eraseSector)
  /-- A mass erase (spec/42_flash.md R122). -/
  | mass {p : List Byte} {count : Byte} (hp : bytePair p = some (Config.massEraseSentinel, count)) :
      AllowedBody (.eraseFlash p) .flash [.massErase]
  /-- A write (spec/42_flash.md R125). -/
  | write {p : List Byte} {addr : Word} {data : List Byte} (hp : addressData p = some (addr, data))
      (hr : classifyRange addr.toNat data.length = .nonVolatile) :
      AllowedBody (.writeMemory p) .flash (programRequests addr.toNat data)
  /-- Enabling protection (spec/42_flash.md R127): the merged mask is not empty and the mode is not None. -/
  | enable {p : List Byte} {mask : Byte} {mode : ProtMode} (hm : mask ≠ 0) (hmd : mode ≠ .none) :
      AllowedBody (.enableRwProtect p) .option [.optApply mask mode]
  /-- Disabling protection (spec/42_flash.md R128). -/
  | disable {p : List Byte} : AllowedBody (.disableRwProtect p) .option [.optApply 0 .none]

theorem mergedMask_ne_zero {old new : Byte} (h : new ≠ 0) : mergedMask old new ≠ 0 := by
  intro h0
  apply h
  have h' : old ||| new = 0 := h0
  apply BitVec.eq_of_getLsbD_eq
  intro i hi
  have := congrArg (fun b => b.getLsbD i) h'
  simp only [BitVec.getLsbD_or] at this
  simp_all

theorem eraseSpan_le (sector count : Nat) : sector ≤ Config.numSectors →
    sector + eraseSpan sector count ≤ Config.numSectors := by
  intro h
  unfold eraseSpan
  omega

theorem protModeOf_ne_none {c : Byte} {m : ProtMode} (h : protModeOf c = some m) : m ≠ .none := by
  unfold protModeOf at h
  split_ifs at h <;> cases h <;> simp

/-- A read gate lets through only ranges of one region (spec/44_commands.md R168). -/
theorem readGate_ok_inv {addr n : Nat} {prot : ProtectionStatus} (h : readGate addr n prot = .ok ()) :
    classifyRange addr n ≠ .unknown := by
  unfold readGate at h
  split_ifs at h with h1
  exact h1

/-- A read behind its gate gives `n` bytes and changes the draw counter at most (spec/10_state.md R28). -/
theorem memReadRange_gated {addr n : Nat} {s : State} (h : classifyRange addr n ≠ .unknown) :
    ∃ body d, memReadRange addr n s = .ok (body, s.drawn d) ∧ body.length = n := by
  by_cases hf : classifyRange addr n = .nonVolatile
  · exact ⟨_, 0, memReadRange_flash fun i hi => by rw [classifyRange_addr h hi, hf], by simp⟩
  · exact ⟨_, n, memReadRange_ram fun i hi => by rw [classifyRange_addr h hi]; exact ⟨hf, h⟩, by simp⟩

/-- The outcomes a command can have at once, with no request. -/
def AtOnce (i : Instr) (o : ArmOutcome) : Prop :=
  (∃ e, o = .validationError e ∧ errorKind e = .validation) ∨ (∃ body, o = .ok body) ∨
    (∃ p a, i = .jumpToAddress p ∧ addressOperand p = some a ∧ isValidJumpTarget a.toNat = true ∧ o = .jumpTo a)

/-- Everything the checks of a command can lead to: an answer, a range to read, or requests under a lock. -/
theorem commandPoint_shape (i : Instr) (s : State) :
    (∃ o, commandPoint i s = .responding i.code o ∧ AtOnce i o) ∨
    (∃ p addr n, i = .readMemory p ∧ classifyRange addr n ≠ .unknown ∧ commandPoint i s = readPoint i.code addr [] n) ∨
    (∃ lock failure body, AllowedBody i lock body ∧ errorKind failure = .operationFailure ∧
      commandPoint i s = .unlocking i.code lock failure body) := by
  have query : ∀ c p body, ∃ o, queryPoint c p body = .responding c o ∧ AtOnce i o := by
    intro c p body
    cases p with
    | nil => exact ⟨_, rfl, .inr (.inl ⟨_, rfl⟩)⟩
    | cons b bs => exact ⟨_, rfl, .inl ⟨_, rfl, rfl⟩⟩
  have refuse : ∀ c e, errorKind e = .validation → ∃ o, refusePoint c e = .responding c o ∧ AtOnce i o :=
    fun c e he => ⟨_, rfl, .inl ⟨e, rfl, he⟩⟩
  cases i with
  | getVersion p => exact .inl (query _ p _)
  | getHelp p => exact .inl (query _ p _)
  | getChipId p => exact .inl (query _ p _)
  | getProtectionStatus p => exact .inl (query _ p _)
  | readSectorProtectionStatus p => exact .inl (query _ p _)
  | readOtp p => exact .inl (query _ p _)
  | jumpToAddress p =>
    refine .inl ?_
    simp only [commandPoint, jumpToAddressPoint]
    cases hp : addressOperand p with
    | none => exact refuse _ _ rfl
    | some a =>
      dsimp only
      split
      · rename_i hv
        exact ⟨_, rfl, .inr (.inr ⟨p, a, rfl, hp, hv, rfl⟩)⟩
      · exact refuse _ _ rfl
  | readMemory p =>
    simp only [commandPoint, readMemoryPoint]
    cases hp : addressCount p with
    | none => exact .inl (refuse _ _ rfl)
    | some x =>
      obtain ⟨addr, n⟩ := x
      dsimp only
      cases hg : readGate addr.toNat n s.prot with
      | error e =>
        refine .inl (refuse _ _ ?_)
        unfold readGate at hg
        split_ifs at hg <;> cases hg <;> rfl
      | ok x => exact .inr (.inl ⟨p, _, n, rfl, readGate_ok_inv hg, rfl⟩)
  | eraseFlash p =>
    simp only [commandPoint, eraseFlashPoint]
    cases hp : bytePair p with
    | none => exact .inl (refuse _ _ rfl)
    | some x =>
      obtain ⟨sector, count⟩ := x
      dsimp only
      cases hg : eraseGate sector count s.prot with
      | error e =>
        refine .inl (refuse _ _ ?_)
        unfold eraseGate at hg
        split_ifs at hg <;> cases hg <;> rfl
      | ok body =>
        refine .inr (.inr ⟨_, _, body, ?_, rfl, rfl⟩)
        rcases eraseGate_ok_inv hg with ⟨rfl, rfl⟩ | ⟨h1, h2, rfl⟩
        · exact .mass hp
        · exact .erase hp h1
  | writeMemory p =>
    simp only [commandPoint, writeMemoryPoint]
    cases hp : addressData p with
    | none => exact .inl (refuse _ _ rfl)
    | some x =>
      obtain ⟨addr, data⟩ := x
      dsimp only
      cases hg : writeGate addr.toNat data s.prot with
      | error e =>
        refine .inl (refuse _ _ ?_)
        unfold writeGate at hg
        split_ifs at hg <;> cases hg <;> rfl
      | ok body =>
        obtain ⟨hr, rfl⟩ := writeGate_ok_inv hg
        exact .inr (.inr ⟨_, _, _, .write hp hr, rfl, rfl⟩)
  | enableRwProtect p =>
    simp only [commandPoint, enableRwProtectPoint]
    cases hp : bytePair p with
    | none => exact .inl (refuse _ _ rfl)
    | some x =>
      obtain ⟨mask, code⟩ := x
      dsimp only
      cases hc : protModeOf code with
      | none => exact .inl (refuse _ _ rfl)
      | some mode =>
        dsimp only
        cases hg : protectGate mask mode s.prot with
        | error e =>
          refine .inl (refuse _ _ ?_)
          unfold protectGate at hg
          split_ifs at hg <;> cases hg <;> rfl
        | ok body =>
          obtain ⟨hm, rfl⟩ := protectGate_ok_inv hg
          exact .inr (.inr ⟨_, _, _, .enable (mergedMask_ne_zero hm) (protModeOf_ne_none hc), rfl, rfl⟩)
  | disableRwProtect p =>
    cases p with
    | nil => exact .inr (.inr ⟨_, _, _, .disable, rfl, rfl⟩)
    | cons b bs => exact .inl (refuse _ _ rfl)

/-- A range of reads to its end. -/
theorem complete_readPoint (c : Byte) (addr n : Nat) (got : List Byte) (s : State) :
    complete (readPoint c addr got n) s = complete (.reading c addr n got) s := by
  cases n with
  | zero => simp [readPoint, complete, memReadRange]
  | succ n => rfl

/-- Everything a command can be: an answer at once, which draws at most, or requests under a lock. Only READ_MEMORY
draws (spec/10_state.md R28). -/
theorem exec_shape (i : Instr) (s : State) :
    (∃ d o, exec i s = .next ((s.drawn d).respond i.code o) ∧ AtOnce i o ∧
      ((∀ p, i ≠ .readMemory p) → d = 0)) ∨
    (∃ lock failure body, AllowedBody i lock body ∧ errorKind failure = .operationFailure ∧
      exec i s = runGated i.code lock failure (.ok body) s) := by
  rw [exec_eq]
  rcases commandPoint_shape i s with ⟨o, hp, ho⟩ | ⟨p, addr, n, hi, hr, hp⟩ | ⟨lock, failure, body, hb, hf, hp⟩ <;> rw [hp]
  · exact .inl ⟨0, o, rfl, ho, fun _ => rfl⟩
  · obtain ⟨body, d, hm, -⟩ := memReadRange_gated (s := s) hr
    refine .inl ⟨d, .ok body, ?_, .inr (.inl ⟨body, rfl⟩), fun h => absurd hi (h p)⟩
    rw [complete_readPoint, complete, hm]
    rfl
  · exact .inr ⟨lock, failure, body, hb, hf, rfl⟩

/-- What a command with a next state comes to: an answer at once, an operation that finished, or one a reset cut
short. -/
theorem exec_next_inv {i : Instr} {s t : State} (h : exec i s = .next t) :
    (∃ d o, t = (s.drawn d).respond i.code o ∧ AtOnce i o ∧ ((∀ p, i ≠ .readMemory p) → d = 0)) ∨
    (∃ lock failure body, AllowedBody i lock body ∧ errorKind failure = .operationFailure ∧
      ((∃ o u, withUnlocked lock failure body s = .finished o u ∧ t = u.respond i.code o) ∨
       withUnlocked lock failure body s = .reset t)) := by
  rcases exec_shape i s with ⟨d, o, he, ho, hd⟩ | ⟨lock, failure, body, hb, hf, he⟩
  · rw [he] at h
    cases h
    exact .inl ⟨d, o, rfl, ho, hd⟩
  · rw [he] at h
    rcases runGated_next_inv h with ⟨e, h', -⟩ | ⟨body', h', hr⟩
    · cases h'
    · cases h'
      exact .inr ⟨lock, failure, body, hb, hf, hr⟩

/-- Everything the fetch can come to (spec/43_dispatcher.md R148, R149, R151). -/
theorem fetch_cases (s : State) :
    (∃ e, lengthError s.len.toNat = some e ∧ fetch s = .rejected e (s.setPacket none)) ∨
    (lengthError s.len.toNat = none ∧
      ((cellsOf s.rxbuf s.len.toNat = none ∧ fetch s = .stopped .unwrittenCell) ∨
       (∃ cells, cellsOf s.rxbuf s.len.toNat = some cells ∧
        ((∃ e, instrOfPacket (packetOf cells) = .error e ∧ fetch s = .rejected e (s.parsed cells)) ∨
         (∃ i, instrOfPacket (packetOf cells) = .ok i ∧ fetch s = .instr i (s.parsed cells)))))) := by
  unfold fetch
  cases hl : lengthError s.len.toNat with
  | some e => exact .inl ⟨e, rfl, rfl⟩
  | none =>
    refine .inr ⟨rfl, ?_⟩
    dsimp only
    cases hc : cellsOf s.rxbuf s.len.toNat with
    | none => exact .inl ⟨rfl, rfl⟩
    | some cells =>
      refine .inr ⟨cells, rfl, ?_⟩
      dsimp only
      cases hi : instrOfPacket (packetOf cells) with
      | error e => exact .inl ⟨e, rfl, rfl⟩
      | ok i => exact .inr ⟨i, rfl, rfl⟩

/-- The fetch keeps the point (spec/43_dispatcher.md R148). -/
theorem fetch_point {s u : State} {e : ErrorCode} {i : Instr} (h : fetch s = .rejected e u ∨ fetch s = .instr i u) :
    u.point = s.point := by
  rcases fetch_cases s with ⟨e', -, hf⟩ | ⟨-, ⟨-, hf⟩ | ⟨cells, -, ⟨e', -, hf⟩ | ⟨j, -, hf⟩⟩⟩ <;> rw [hf] at h <;>
    rcases h with h | h <;> cases h <;> rfl

/-- The step in Dispatch on a frame (spec/43_dispatcher.md R148, R149). -/
theorem step_dispatch {s : State} (hr : s.resetDue = none) (hp : s.phase = .dispatch) (hn : s.point = none) :
    step s =
      match fetch s.stepped with
      | .instr i u => begin i u
      | .rejected e u => .next (u.raiseNack e)
      | .stopped f => .fault f := by
  rw [step, hr]
  dsimp only
  rw [phaseStep, State.stepped_phase, hp]
  dsimp only
  rw [dispatchStep, State.stepped_point, hn]
  dsimp only
  cases hf : fetch s.stepped with
  | instr i u => rfl
  | rejected e u =>
    have hu := (fetch_point (i := .getVersion []) (.inl hf)).trans (s.stepped_point.trans hn)
    show Host.Outcome.next ((u.raiseNack e).stand none) = .next (u.raiseNack e)
    rw [State.stand, ← hu]
    rfl
  | stopped f => rfl

/-- The step in Dispatch from a point (spec/43_dispatcher.md R145). -/
theorem step_at {s : State} {p : Point} (hr : s.resetDue = none) (hp : s.phase = .dispatch) (hn : s.point = some p) :
    step s = advance p (s.stepped.stand none) := by
  rw [step, hr]
  dsimp only
  rw [phaseStep, State.stepped_phase, hp]
  dsimp only
  rw [dispatchStep, State.stepped_point, hn]

/-- Everything a step with a next state can be (spec/43_dispatcher.md R145). -/
theorem step_next_inv {s t : State} (h : step s = .next t) :
    (∃ e, s.resetDue = some e ∧ t = s.stepped.resetSequence e) ∨
    (s.resetDue = none ∧
      ((s.phase = .awaitingLength ∧ ∃ l rest, s.rx = l :: rest ∧ t = s.stepped.beginFrame l rest) ∨
       (s.phase = .awaitingFrame ∧ s.rxcount < s.len.toNat ∧
        ∃ b rest, s.rx = b :: rest ∧ t = s.stepped.takeFrameByte b rest) ∨
       (s.phase = .awaitingFrame ∧ ¬ s.rxcount < s.len.toNat ∧ t = s.stepped.enter .dispatch) ∨
       (s.phase = .dispatch ∧
        ((∃ p, s.point = some p ∧ advance p (s.stepped.stand none) = .next t) ∨
         (s.point = none ∧
          ((∃ e u, fetch s.stepped = .rejected e u ∧ t = u.raiseNack e) ∨
           (∃ i u, fetch s.stepped = .instr i u ∧ begin i u = .next t))))))) := by
  have hstep := h
  unfold step at h
  cases hr : s.resetDue with
  | some e =>
    rw [hr] at h
    cases h
    exact .inl ⟨e, rfl, rfl⟩
  | none =>
    refine .inr ⟨rfl, ?_⟩
    rw [hr] at h
    dsimp only [phaseStep] at h
    rw [State.stepped_phase] at h
    cases hp : s.phase with
    | inactive => rw [hp] at h; cases h
    | jumped a => rw [hp] at h; cases h
    | halted r => rw [hp] at h; cases h
    | awaitingLength =>
      rw [hp] at h
      dsimp only [receiveLength] at h
      rw [State.stepped_rx] at h
      cases hx : s.rx with
      | nil => rw [hx] at h; cases h
      | cons l rest =>
        rw [hx] at h
        cases h
        exact .inl ⟨rfl, l, rest, rfl, rfl⟩
    | awaitingFrame =>
      rw [hp] at h
      dsimp only [receiveFrame] at h
      split at h
      · rename_i hlt
        rw [State.stepped_rx] at h
        cases hx : s.rx with
        | nil => rw [hx] at h; cases h
        | cons b rest =>
          rw [hx] at h
          cases h
          exact .inr (.inl ⟨rfl, hlt, b, rest, rfl, rfl⟩)
      · rename_i hlt
        cases h
        exact .inr (.inr (.inl ⟨rfl, hlt, rfl⟩))
    | dispatch =>
      refine .inr (.inr (.inr ⟨rfl, ?_⟩))
      cases hpt : s.point with
      | some p => exact .inl ⟨p, rfl, (step_at hr hp hpt).symm.trans hstep⟩
      | none =>
        refine .inr ⟨rfl, ?_⟩
        have h' := (step_dispatch hr hp hpt).symm.trans hstep
        cases hf : fetch s.stepped with
        | instr i u =>
          rw [hf] at h'
          exact .inr ⟨i, u, rfl, h'⟩
        | rejected e u =>
          rw [hf] at h'
          cases h'
          exact .inl ⟨e, u, rfl, rfl⟩
        | stopped f => rw [hf] at h'; cases h'

end Sys2Proof.Machine
end

