-- ==== Sys2Proof/Laws/Commands.lean ====
section
/-! SUPPORT. Small lemmas of the commands: their responses, the operand forms on payloads of a wrong length, the
protection checks. -/

namespace Sys2Proof.Machine

@[simp] theorem respond_ok (s : State) (c : Byte) (body : List Byte) : s.respond c (.ok body) = s.acked c body := rfl

@[simp] theorem respond_error (s : State) (c : Byte) (e : ErrorCode) : s.respond c (.validationError e) = s.nacked e := rfl

@[simp] theorem respond_failure (s : State) (c : Byte) (e : ErrorCode) : s.respond c (.operationFailure e) = s.nacked e := rfl

theorem complete_query_nil (c : Byte) (body : List Byte) (s : State) :
    complete (queryPoint c [] body) s = .next (s.acked c body) := rfl

theorem complete_query_ne {p : List Byte} (h : p ≠ []) (c : Byte) (body : List Byte) (s : State) :
    complete (queryPoint c p body) s = .next (s.nacked .badPayloadLength) := by
  cases p with
  | nil => exact absurd rfl h
  | cons b bs => rfl

/-! ### What each command with operands comes to -/

/-- JUMP_TO_ADDRESS (spec/44_commands.md R164). -/
theorem execJumpToAddress_eq (p : List Byte) (s : State) : execJumpToAddress p s =
    match addressOperand p with
    | none => .next (s.nacked .badPayloadLength)
    | some a =>
      if isValidJumpTarget a.toNat then .next (s.respond Config.cmdJumpToAddress (.jumpTo a))
      else .next (s.nacked .badAddress) := by
  unfold execJumpToAddress jumpToAddressPoint
  cases addressOperand p with
  | none => rfl
  | some a => dsimp only; split <;> rfl

/-- ERASE_FLASH (spec/44_commands.md R165). -/
theorem execEraseFlash_eq (p : List Byte) (s : State) : execEraseFlash p s =
    match bytePair p with
    | none => .next (s.nacked .badPayloadLength)
    | some (sector, count) => runGated Config.cmdEraseFlash .flash .eraseFailed (eraseGate sector count s.prot) s := by
  unfold execEraseFlash eraseFlashPoint
  cases bytePair p <;> rfl

/-- WRITE_MEMORY (spec/44_commands.md R166). -/
theorem execWriteMemory_eq (p : List Byte) (s : State) : execWriteMemory p s =
    match addressData p with
    | none => .next (s.nacked .badPayloadLength)
    | some (addr, data) =>
      runGated Config.cmdWriteMemory .flash .programFailed (writeGate addr.toNat data s.prot) s := by
  unfold execWriteMemory writeMemoryPoint
  cases addressData p <;> rfl

/-- ENABLE_RW_PROTECT (spec/44_commands.md R167). -/
theorem execEnableRwProtect_eq (p : List Byte) (s : State) : execEnableRwProtect p s =
    match bytePair p with
    | none => .next (s.nacked .badPayloadLength)
    | some (mask, code) =>
      match protModeOf code with
      | none => .next (s.nacked .badMode)
      | some mode => runGated Config.cmdEnableRwProtect .option .applyFailed (protectGate mask mode s.prot) s := by
  unfold execEnableRwProtect enableRwProtectPoint
  cases bytePair p with
  | none => rfl
  | some x => dsimp only; cases protModeOf x.2 <;> rfl

/-- DISABLE_RW_PROTECT (spec/44_commands.md R171). -/
theorem execDisableRwProtect_eq (p : List Byte) (s : State) : execDisableRwProtect p s =
    match noOperands p with
    | none => .next (s.nacked .badPayloadLength)
    | some () => runGated Config.cmdDisableRwProtect .option .applyFailed (.ok disableRequests) s := by
  unfold execDisableRwProtect disableRwProtectPoint
  cases noOperands p <;> rfl

/-- READ_MEMORY (spec/44_commands.md R168). -/
theorem execReadMemory_eq (p : List Byte) (s : State) : execReadMemory p s =
    match addressCount p with
    | none => .next (s.nacked .badPayloadLength)
    | some (addr, n) =>
      match readGate addr.toNat n s.prot with
      | .error e => .next (s.nacked e)
      | .ok () =>
        match memReadRange addr.toNat n s with
        | .error f => .fault f
        | .ok (body, s') => .next (s'.acked 0x59 body) := by
  unfold execReadMemory readMemoryPoint
  cases addressCount p with
  | none => rfl
  | some x =>
    dsimp only
    cases readGate x.1.toNat x.2 s.prot with
    | error e => rfl
    | ok u =>
      dsimp only
      rw [complete_readPoint, complete]
      cases memReadRange x.1.toNat x.2 s <;> rfl

/-- A gate that refuses (spec/42_flash.md R116). -/
@[simp] theorem runGated_error (c : Byte) (lock : Lock) (failure e : ErrorCode) (s : State) :
    runGated c lock failure (.error e) s = .next (s.nacked e) := rfl

theorem addressCount_five {b0 b1 b2 b3 n : Byte} (hn : 1 ≤ n.toNat) :
    addressCount [b0, b1, b2, b3, n] = some (le32 b0 b1 b2 b3, n.toNat) := by simp [addressCount, hn]

theorem addressCount_length {p : List Byte} (h : p.length ≠ 5) : addressCount p = none := by
  match p, h with
  | [], _ => rfl
  | [_], _ => rfl
  | [_, _], _ => rfl
  | [_, _, _], _ => rfl
  | [_, _, _, _], _ => rfl
  | [_, _, _, _, _], h => exact absurd rfl h
  | _ :: _ :: _ :: _ :: _ :: _ :: _, _ => rfl

theorem addressOperand_length {p : List Byte} (h : p.length ≠ 4) : addressOperand p = none := by
  match p, h with
  | [], _ => rfl
  | [_], _ => rfl
  | [_, _], _ => rfl
  | [_, _, _], _ => rfl
  | [_, _, _, _], h => exact absurd rfl h
  | _ :: _ :: _ :: _ :: _ :: _, _ => rfl

theorem bytePair_length {p : List Byte} (h : p.length ≠ 2) : bytePair p = none := by
  match p, h with
  | [], _ => rfl
  | [_], _ => rfl
  | [_, _], h => exact absurd rfl h
  | _ :: _ :: _ :: _, _ => rfl

theorem addressData_short {p : List Byte} (h : p.length < 5) : addressData p = none := by
  match p, h with
  | [], _ => rfl
  | [_], _ => rfl
  | [_, _], _ => rfl
  | [_, _, _], _ => rfl
  | [_, _, _, _], _ => rfl
  | _ :: _ :: _ :: _ :: _ :: _, h => exact absurd h (by simp)

/-- Some byte of the range is in a sector with the property (spec/42_flash.md R125). -/
theorem anySectorOf_iff (p : Nat → Bool) (addr n : Nat) :
    anySectorOf p addr n = true ↔ ∃ i k, i < n ∧ sectorOf (addr + i) = some k ∧ p k = true := by
  unfold anySectorOf
  simp only [List.any_eq_true, List.mem_range, Option.any_eq_true]
  constructor
  · rintro ⟨i, hi, k, hk, hp⟩; exact ⟨i, k, hi, hk, hp⟩
  · rintro ⟨i, k, hi, hk, hp⟩; exact ⟨i, hi, k, hk, hp⟩

/-- `read_protected(k)` (spec/10_state.md R21). -/
theorem readProtected_iff (p : ProtectionStatus) (k : Nat) :
    readProtected p k = true ↔ p.mask.getLsbD k = true ∧ p.mode = .readWrite := by simp [readProtected]

/-- Issuing a request records it and uses up one answer. -/
theorem issue_eq (s : State) (r : PortRequest) : s.issue r = s.requested [r] := by
  simp [State.issue, State.requested, PortScript.tail_eq_after]

/-- A drawn protection status keeps the invariant (spec/10_state.md R21). -/
theorem protOfDraw_wf (d : Option (Fin 255 × Bool)) : (protOfDraw d).wf = true := by
  match d with
  | none => decide
  | some (m, rw) =>
    have h : ∀ m : Fin 255, ∀ rw : Bool, (protOfDraw (some (m, rw))).wf = true := by decide +kernel
    exact h m rw

end Sys2Proof.Machine
end

