-- ==== Sys2Proof/Laws/Decode.lean ====
section
/-! SUPPORT. The decoder: what each part of it answers, in both directions (spec/30_encoding.md, spec/41_frame.md). -/

namespace Sys2Proof

open Sys2Proof.Machine

/-- A property of both arms of a choice is one of the choice. -/
theorem ite_ind {α : Type} {c : Prop} [Decidable c] (P : α → Prop) {a b : α} (ha : c → P a) (hb : P b) :
    P (if c then a else b) := by
  by_cases h : c
  · rw [if_pos h]; exact ha h
  · rw [if_neg h]; exact hb

/-- A decoded command keeps its code and its payload. -/
theorem instrOf_some {c : Byte} {p : List Byte} : ∀ i, instrOf c p = some i → i.code = c ∧ i.payload = p := by
  unfold instrOf
  iterate 12
    refine ite_ind (fun x => ∀ i : Instr, x = some i → i.code = c ∧ i.payload = p)
      (fun hc i h => by rw [← Option.some.inj h]; exact ⟨hc.symm, rfl⟩) ?_
  intro i h
  cases h

/-- The opcode map, both ways (R74). -/
theorem instrOf_eq_some_iff (c : Byte) (p : List Byte) (i : Instr) :
    instrOf c p = some i ↔ i.code = c ∧ i.payload = p :=
  ⟨instrOf_some i, by rintro ⟨rfl, rfl⟩; cases i <;> rfl⟩

/-- The opcode map on an instruction's own code. -/
theorem instrOf_code (i : Instr) : instrOf i.code i.payload = some i := (instrOf_eq_some_iff _ _ _).2 ⟨rfl, rfl⟩

/-- The bytes with no command (R75). -/
theorem instrOf_eq_none_iff (c : Byte) (p : List Byte) :
    instrOf c p = none ↔ c.toNat < 0x51 ∨ 0x5C < c.toNat := by
  have h : ∀ c : Byte, (instrOf c []).isNone = true ↔ c.toNat < 0x51 ∨ 0x5C < c.toNat := by decide +kernel
  rw [← h c, Option.isNone_iff_eq_none]
  constructor <;> intro h0
  · cases hi : instrOf c [] with
    | none => rfl
    | some i =>
      have := (instrOf_eq_some_iff c [] i).1 hi
      obtain ⟨rfl, -⟩ := this
      cases i <;> cases h0
  · cases hi : instrOf c p with
    | none => rfl
    | some i =>
      have := (instrOf_eq_some_iff c p i).1 hi
      obtain ⟨rfl, -⟩ := this
      cases i <;> cases h0

/-- Only a record with `checksum_ok` is decoded (spec/43_dispatcher.md R148, R149). -/
theorem instrOfPacket_ok_iff (p : Packet) (i : Instr) :
    instrOfPacket p = .ok i ↔ p.checksumOk = true ∧ i.code = p.command ∧ i.payload = p.payload := by
  unfold instrOfPacket
  cases hc : p.checksumOk
  · simp
  · simp only [if_true, true_and]
    rw [← instrOf_eq_some_iff]
    cases instrOf p.command p.payload <;> simp

/-- The parse record of a command, a payload and four checksum bytes (spec/41_frame.md R100). -/
theorem packetOf_append (c : Byte) (p tail : List Byte) (h : tail.length = 4) :
    packetOf (c :: p ++ tail) =
      { command := c, payload := p, payloadLen := p.length, checksum := le32Of tail,
        checksumOk := crc32 (c :: p) == le32Of tail } := by
  have h4 : (c :: p ++ tail).length - 4 = (c :: p).length := by simp [h]
  unfold packetOf
  rw [h4, List.take_left, List.drop_left]
  simp [checksumFlag, verify, h]

/-- A length byte of a payload that fits is legal. -/
theorem lengthError_legal {n : Nat} (h : n ≤ 197) : lengthError (n + 5) = none := by
  unfold lengthError
  rw [if_neg (by simp only [Config.minFrame]; omega), if_neg (by simp only [Config.payloadCap]; omega)]

/-- The legal length bytes (spec/41_frame.md R101, R102). -/
theorem lengthError_eq_none_iff (n : Nat) : lengthError n = none ↔ 5 ≤ n ∧ n ≤ 202 := by
  have hm : Config.minFrame = 6 := rfl
  have hc : Config.payloadCap = 197 := rfl
  unfold lengthError
  split
  · exact ⟨fun h => (by cases h), fun h => by omega⟩
  · split
    · exact ⟨fun h => (by cases h), fun h => by omega⟩
    · exact ⟨fun _ => by omega, fun _ => rfl⟩

end Sys2Proof
end

