-- ==== Sys2Proof/Laws/Integrity.lean ====
section
/-! SUPPORT. The Integrity Engine's algebra (spec/40_integrity.md): shifting is linear and loses nothing. -/

namespace Sys2Proof.Machine

/-- One shift is linear over XOR. -/
theorem crcShift_xor (a b : Word) : crcShift (a ^^^ b) = crcShift a ^^^ crcShift b := by
  unfold crcShift
  rw [BitVec.msb_xor]
  have h : (a ^^^ b) <<< 1 = (a <<< 1) ^^^ (b <<< 1) := BitVec.shiftLeft_xor_distrib ..
  rw [h]
  cases ha : a.msb <;> cases hb : b.msb <;> simp
  all_goals
    apply BitVec.eq_of_getLsbD_eq
    intro i hi
    simp only [BitVec.getLsbD_xor]
    cases (a <<< 1).getLsbD i <;> cases (b <<< 1).getLsbD i <;> cases (Config.crcPoly).getLsbD i <;> rfl

/-- Shifting is linear over XOR. -/
theorem crcShifts_xor (n : Nat) (a b : Word) : crcShifts n (a ^^^ b) = crcShifts n a ^^^ crcShifts n b := by
  induction n generalizing a b with
  | zero => rfl
  | succ n ih => rw [crcShifts, crcShifts, crcShifts, crcShift_xor, ih]

/-- `m` shifts, then `n`. -/
theorem crcShifts_add (m n : Nat) (a : Word) : crcShifts (m + n) a = crcShifts n (crcShifts m a) := by
  induction m generalizing a with
  | zero => simp [crcShifts]
  | succ m ih => rw [Nat.add_right_comm, crcShifts, crcShifts, ih]

/-- Bit 0 of the polynomial is set, so a shift loses no information. -/
theorem crcShift_eq_zero {a : Word} (h : crcShift a = 0) : a = 0 := by
  unfold crcShift at h
  have hb : ∀ i, i < 32 → a.getLsbD i = false := by
    split at h
    · have := congrArg (fun w => w.getLsbD 0) h
      simp [Config.crcPoly] at this
    · rename_i hm
      intro i hi
      by_cases h31 : i = 31
      · subst h31
        simpa [BitVec.msb_eq_getLsbD_last] using hm
      · have := congrArg (fun w => w.getLsbD (i + 1)) h
        have h' : i + 1 < 32 := by omega
        simpa [h', BitVec.getLsbD_eq_getElem hi] using this
  apply BitVec.eq_of_getLsbD_eq
  intro i hi
  simpa using hb i hi

/-- Only the zero word is shifted to zero. -/
theorem crcShifts_eq_zero {n : Nat} {a : Word} (h : crcShifts n a = 0) : a = 0 := by
  induction n generalizing a with
  | zero => exact h
  | succ n ih => exact crcShift_eq_zero (ih h)

/-- Shifting is injective. -/
theorem crcShifts_inj {n : Nat} {a b : Word} (h : crcShifts n a = crcShifts n b) : a = b := by
  have : crcShifts n (a ^^^ b) = 0 := by rw [crcShifts_xor, h, BitVec.xor_self]; rfl
  have := crcShifts_eq_zero this
  exact (BitVec.xor_eq_zero_iff).1 this

/-- A byte in bits 7..0 meets no feedback for 24 shifts (R94). -/
theorem crcShifts_byte (b : Byte) : crcShifts 24 (b.setWidth 32) = b.setWidth 32 <<< 24 := by
  revert b
  decide +kernel

/-- Different accumulators stay different. -/
theorem crcFeed_inj_left {a c : Word} {b : Byte} (h : crcFeed a b = crcFeed c b) : a = c := by
  have := crcShifts_inj h
  exact (BitVec.xor_left_inj _).1 this

/-- Different bytes lead to different accumulators. -/
theorem crcFeed_inj_right {a : Word} {b c : Byte} (h : crcFeed a b = crcFeed a c) : b = c := by
  have h1 := (BitVec.xor_right_inj _).1 (crcShifts_inj h)
  have := congrArg (BitVec.setWidth 8) h1
  simpa using this

/-- Different accumulators stay different over a sequence of bytes (R95). -/
theorem foldl_crcFeed_inj {post : List Byte} {a c : Word} (h : post.foldl crcFeed a = post.foldl crcFeed c) : a = c := by
  induction post generalizing a c with
  | nil => exact h
  | cons b bs ih => exact crcFeed_inj_left (ih h)

end Sys2Proof.Machine
end

