-- ==== Sys2Proof/Laws/Operations.lean ====
section
/-! SUPPORT. The Flash Manager's operations run to their end: under which answers a command acknowledges, is refused, or
halts the block (spec/42_flash.md). -/

namespace Sys2Proof.Machine

/-- Open or close a lock. -/
def State.setLock (s : State) : Lock → Bool → State
  | .flash, b => s.setFlashLocked b
  | .option, b => s.setOptLocked b

@[simp] theorem State.setLock_port (s : State) (l : Lock) (b : Bool) : (s.setLock l b).port = s.port := by cases l <;> rfl

@[simp] theorem State.setLock_tx (s : State) (l : Lock) (b : Bool) : (s.setLock l b).tx = s.tx := by cases l <;> rfl

@[simp] theorem State.setLock_requests (s : State) (l : Lock) (b : Bool) : (s.setLock l b).requests = s.requests := by
  cases l <;> rfl

@[simp] theorem State.setLock_locked (s : State) (l : Lock) (b : Bool) : (s.setLock l b).locked l = b := by cases l <;> rfl

@[simp] theorem State.requested_port (s : State) (rs : List PortRequest) :
    (s.requested rs).port = s.port.after rs.length := rfl

@[simp] theorem State.requested_tx (s : State) (rs : List PortRequest) : (s.requested rs).tx = s.tx := rfl

@[simp] theorem State.requested_requests (s : State) (rs : List PortRequest) :
    (s.requested rs).requests = s.requests ++ rs := rfl

/-- An unlock needs its lock closed (spec/10_state.md R27). -/
theorem portReady_unlock (s : State) (l : Lock) : portReady s (unlockRequest l) = s.locked l := by cases l <;> rfl

/-- A relock has no precondition (spec/10_state.md R27). -/
theorem portReady_relock (s : State) (l : Lock) : portReady s (relockRequest l) = true := by cases l <;> rfl

/-- An operation under its lock whose unlock and relock are answered `ok` (R117). -/
theorem runGated_closed {command : Byte} {lock : Lock} {failure : ErrorCode} {body : List PortRequest} {s u : State} {ok : Bool}
    (hl : s.locked lock = true) (h0 : s.port.answer 0 = .ok)
    (hb : requestAll body (State.setLock (s.requested [unlockRequest lock]) lock false) = .answered ok u)
    (hu : u.port.answer 0 = .ok) :
    runGated command lock failure (.ok body) s =
      .next ((State.setLock (u.requested [relockRequest lock]) lock true).respond command
        (if ok then .ok [] else .operationFailure failure)) := by
  have e1 : (s.issue (unlockRequest lock)).onOk (unlockRequest lock) =
      State.setLock (s.requested [unlockRequest lock]) lock false := by rw [issue_eq]; cases lock <;> rfl
  have e2 : (u.issue (relockRequest lock)).onOk (relockRequest lock) =
      State.setLock (u.requested [relockRequest lock]) lock true := by rw [issue_eq]; cases lock <;> rfl
  have r1 := request_ok (s := s) (r := unlockRequest lock) (by rw [portReady_unlock, hl]) (by simpa using h0)
  have r2 := request_ok (s := u) (r := relockRequest lock) (portReady_relock _ _) (by simpa using hu)
  rw [e1] at r1
  rw [e2] at r2
  simp only [runGated, gatedPoint, complete, respondTo, withUnlocked, underLock, closeLock, r1, hb, r2]

/-- A relock that fails is fatal, whatever came of the body (R117, spec/60_exceptions.md R187). -/
theorem runGated_relockFailed {command : Byte} {lock : Lock} {failure : ErrorCode} {body : List PortRequest} {s u : State} {ok : Bool}
    (hl : s.locked lock = true) (h0 : s.port.answer 0 = .ok)
    (hb : requestAll body (State.setLock (s.requested [unlockRequest lock]) lock false) = .answered ok u)
    (hu : u.port.answer 0 = .fail) :
    runGated command lock failure (.ok body) s =
      .next ((u.requested [relockRequest lock]).respond command (.fatal .relockFailed)) := by
  have e1 : (s.issue (unlockRequest lock)).onOk (unlockRequest lock) =
      State.setLock (s.requested [unlockRequest lock]) lock false := by rw [issue_eq]; cases lock <;> rfl
  have e2 : (u.issue (relockRequest lock)).onFail (relockRequest lock) = u.requested [relockRequest lock] := by
    rw [issue_eq]; cases lock <;> rfl
  have r1 := request_ok (s := s) (r := unlockRequest lock) (by rw [portReady_unlock, hl]) (by simpa using h0)
  have r2 := request_fail (s := u) (r := relockRequest lock) (portReady_relock _ _) (by simpa using hu)
  rw [e1] at r1
  rw [e2] at r2
  simp only [runGated, gatedPoint, complete, respondTo, withUnlocked, underLock, closeLock, r1, hb, r2]

/-- An unlock that fails ends the command (R117). -/
theorem runGated_unlockFailed {command : Byte} {lock : Lock} {failure : ErrorCode} {body : List PortRequest} {s : State}
    (hl : s.locked lock = true) (h0 : s.port.head = .fail) :
    runGated command lock failure (.ok body) s = .next ((s.requested [unlockRequest lock]).nacked .unlockFailed) := by
  have e1 : (s.issue (unlockRequest lock)).onFail (unlockRequest lock) = s.requested [unlockRequest lock] := by
    rw [issue_eq]; cases lock <;> rfl
  have r1 := request_fail (s := s) (r := unlockRequest lock) (by rw [portReady_unlock, hl]) h0
  rw [e1] at r1
  simp only [runGated, gatedPoint, complete, respondTo, withUnlocked, r1]
  rfl

/-- An unlock that is never answered leaves no step (spec/60_exceptions.md R186). -/
theorem runGated_never {command : Byte} {lock : Lock} {failure : ErrorCode} {body : List PortRequest} {s : State}
    (hl : s.locked lock = true) (h0 : s.port.head = .never) :
    runGated command lock failure (.ok body) s = .fault (.portNeverAnswers (unlockRequest lock)) := by
  have r1 := request_never (s := s) (r := unlockRequest lock) (by rw [portReady_unlock, hl]) h0
  simp only [runGated, gatedPoint, complete, respondTo, withUnlocked, r1]

/-- No sector of the list is write-protected. -/
theorem any_writeProtected {ks : List Nat} {p : ProtectionStatus} (h : ∀ k ∈ ks, p.mask.getLsbD k = false) :
    ks.any (writeProtected p) = false := by
  rw [List.any_eq_false]
  intro k hk
  simp [writeProtected, h k hk]

/-- Some sector of the list is write-protected. -/
theorem any_writeProtected_of_mem {ks : List Nat} {p : ProtectionStatus} (h : ∃ k ∈ ks, p.mask.getLsbD k = true) :
    ks.any (writeProtected p) = true := by
  rw [List.any_eq_true]
  exact h

/-- The gate of a mass erase opens (R122). -/
theorem eraseGate_mass {count : Byte} {prot : ProtectionStatus} (hc : count.toNat ≤ 8)
    (hp : ∀ k, k < 8 → prot.mask.getLsbD k = false) : eraseGate 0xFF count prot = .ok [.massErase] := by
  have h1 : ¬ Config.maxEraseCount < count.toNat := by have : Config.maxEraseCount = 8 := rfl; omega
  unfold eraseGate
  rw [if_neg h1, if_pos (show (0xFF : Byte) = Config.massEraseSentinel from rfl), if_neg (by decide), if_neg]
  rw [any_writeProtected (ks := List.range Config.numSectors) fun k hk => hp k (List.mem_range.1 hk)]
  simp

/-- The gate of a ranged erase opens (R119, R121). -/
theorem eraseGate_ranged {sector count : Byte} {prot : ProtectionStatus} (hs : sector.toNat < 8) (h1 : 1 ≤ count.toNat)
    (hc : count.toNat ≤ 8)
    (hp : ∀ k, sector.toNat ≤ k → k < sector.toNat + min count.toNat (8 - sector.toNat) → prot.mask.getLsbD k = false) :
    eraseGate sector count prot =
      .ok ((sectorSpan sector.toNat (min count.toNat (8 - sector.toNat))).map .eraseSector) := by
  have hm : ¬ Config.maxEraseCount < count.toNat := by have : Config.maxEraseCount = 8 := rfl; omega
  have hff : sector ≠ Config.massEraseSentinel := by rintro rfl; exact absurd hs (by decide)
  have hn : ¬ (sectorFor sector.toNat).isNone = true := by
    rw [sectorFor_isNone_iff]; have : Config.numSectors = 8 := rfl; omega
  have hlow : ¬ sector.toNat < Config.eraseLowSector := by have : Config.eraseLowSector = 0 := rfl; omega
  have hspan : eraseSpan sector.toNat count.toNat = min count.toNat (8 - sector.toNat) := rfl
  unfold eraseGate
  rw [if_neg hm, if_neg hff, if_neg hn, if_neg hlow, if_neg (by omega), hspan, if_neg]
  rw [any_writeProtected fun k hk => hp k (mem_sectorSpan.1 hk).1 (mem_sectorSpan.1 hk).2]
  simp

/-- A sequence whose request number `j` fails. -/
theorem requestAll_failAt {as bs : List PortRequest} {r : PortRequest} {s u : State}
    (ha : requestAll as s = .answered true u) (hr : portReady u r = true) (hf : u.port.answer 0 = .fail) :
    requestAll (as ++ r :: bs) s = .answered false ((u.requested [r]).onFail r) := by
  rw [requestAll_append, ha]
  dsimp only
  rw [requestAll, request_fail hr (by simpa using hf), issue_eq]

/-- A span up to one of its sectors, that sector, and the rest. -/
theorem sectorSpan_split {sector n j : Nat} (h : j < n) :
    sectorSpan sector n = sectorSpan sector j ++ (sector + j) :: sectorSpan (sector + j + 1) (n - j - 1) := by
  induction j generalizing sector n with
  | zero =>
    obtain ⟨m, rfl⟩ : ∃ m, n = m + 1 := ⟨n - 1, by omega⟩
    rw [sectorSpan_succ]; rfl
  | succ j ih =>
    obtain ⟨m, rfl⟩ : ∃ m, n = m + 1 := ⟨n - 1, by omega⟩
    rw [sectorSpan_succ, sectorSpan_succ sector j, ih (by omega : j < m)]
    have e1 : sector + 1 + j = sector + (j + 1) := by omega
    have e2 : m + 1 - (j + 1) - 1 = m - j - 1 := by omega
    rw [e1, e2]; rfl

/-- Requests one after the other. -/
theorem requested_requested (s : State) (as bs : List PortRequest) :
    (s.requested as).requested bs = s.requested (as ++ bs) := by
  simp [State.requested, PortScript.after_after, List.append_assoc]

/-- The gate of a write opens (R125). -/
theorem writeGate_open {addr : Nat} {data : List Byte} {prot : ProtectionStatus} (h1 : 1 ≤ data.length)
    (hc : ∀ i, i < data.length → classify (addr + i) = .nonVolatile)
    (hp : ∀ i k, i < data.length → sectorOf (addr + i) = some k → prot.mask.getLsbD k = false) :
    writeGate addr data prot = .ok (programRequests addr data) := by
  have hr := (classifyRange_eq_iff h1 (by simp)).2 hc
  have h0 := (classify_nonVolatile_iff _).1 (hc 0 h1)
  have hlow : ¬ addr < Config.writeLowBound := by have : Config.writeLowBound = 0x08000000 := rfl; omega
  unfold writeGate
  rw [hr, if_neg (by simp), if_neg hlow, if_neg]
  intro h
  obtain ⟨i, k, hi, hk, hw⟩ := (anySectorOf_iff _ _ _).1 h
  rw [writeProtected, hp i k hi hk] at hw
  cases hw

/-- The operands of a write (spec/30_encoding.md R79). -/
theorem addressData_ok {b0 b1 b2 b3 n : Byte} {data : List Byte} (h1 : 1 ≤ n.toNat) (h : data.length = n.toNat) :
    addressData (b0 :: b1 :: b2 :: b3 :: n :: data) = some (le32 b0 b1 b2 b3, data) := by
  simp only [addressData]; rw [if_pos ⟨h1, h⟩]

/-- Programming bytes whose old values are all ERASED_VALUE, every request answered `ok`: no value is drawn. -/
theorem requestAll_program_erased (data : List Byte) (a : Nat) (s : State)
    (ha : ∀ i, i < data.length → classify (a + i) = .nonVolatile) (hl : s.flashLocked = false)
    (hwf : Memory.wf s.flash) (hok : s.answersOk data.length)
    (he : ∀ i, i < data.length → Memory.read s.flash (a + i) = Config.erasedValue) :
    ∃ m, requestAll (programRequests a data) s =
        .answered true { s.requested (programRequests a data) with flash := m } ∧ Memory.wf m ∧
      (∀ i b, data[i]? = some b → Memory.read m (a + i) = b) ∧
      (∀ x, ¬(a ≤ x ∧ x < a + data.length) → Memory.read m x = Memory.read s.flash x) := by
  induction data generalizing a s with
  | nil => exact ⟨s.flash, by simp [requestAll, programRequests, State.requested], hwf, by simp, by simp⟩
  | cons b bs ih =>
    have h0 : classify a = .nonVolatile := ha 0 (by simp)
    have e0 : Memory.read (s.issue (.programByte a b)).flash a = Config.erasedValue := he 0 (by simp)
    have hr : portReady s (.programByte a b) = true := by simp [portReady, hl, h0]
    have hu : (s.issue (.programByte a b)).onOk (.programByte a b) =
        (s.issue (.programByte a b)).setFlash (Memory.write s.flash a b) := by
      rcases State.onOk_programByte (s.issue (.programByte a b)) a b with ⟨-, h⟩ | ⟨h, -⟩
      · exact h
      · exact absurd e0 h
    have shift : ∀ i, a + (i + 1) = a + 1 + i := fun i => by omega
    rw [programRequests, requestAll, request_ok hr (State.answersOk_head hok)]
    dsimp only
    have huok := State.answersOk_onOk hok (.programByte a b)
    rw [hu] at huok ⊢
    obtain ⟨m, hm, hmwf, hin, hmout⟩ := ih (a + 1) ((s.issue (.programByte a b)).setFlash (Memory.write s.flash a b))
      (fun i hi => by rw [← shift]; exact ha (i + 1) (by simp; omega))
      hl (Memory.wf_write hwf h0) huok
      (fun i hi => by
        show Memory.read (Memory.write s.flash a b) (a + 1 + i) = _
        rw [Memory.read_write hwf, if_neg (by omega), ← shift]
        exact he (i + 1) (by simp; omega))
    refine ⟨m, ?_, hmwf, ?_, ?_⟩
    · rw [hm]
      simp [State.requested, State.issue, State.setFlash]
    · intro i b' hi
      rcases i with _ | i
      · simp only [List.getElem?_cons_zero, Option.some.injEq] at hi
        subst hi
        rw [Nat.add_zero, hmout a (by omega)]
        show Memory.read (Memory.write s.flash a b) a = b
        rw [Memory.read_write hwf, if_pos rfl]
      · rw [List.getElem?_cons_succ] at hi
        rw [shift]
        exact hin i b' hi
    · intro x hx
      rw [List.length_cons] at hx
      rw [hmout x (by omega)]
      show Memory.read (Memory.write s.flash a b) x = _
      rw [Memory.read_write hwf, if_neg (by omega)]

/-- The program requests of two runs of bytes. -/
theorem programRequests_append (a : Nat) (ds es : List Byte) :
    programRequests a (ds ++ es) = programRequests a ds ++ programRequests (a + ds.length) es := by
  induction ds generalizing a with
  | nil => rfl
  | cons d ds ih =>
    rw [List.cons_append, programRequests, programRequests, ih, List.length_cons, List.cons_append,
      show a + 1 + ds.length = a + (ds.length + 1) by omega]

/-- The gate of an enable opens (R127). -/
theorem protectGate_open {mask : Byte} {mode : ProtMode} {prot : ProtectionStatus} (h : mask ≠ 0) :
    protectGate mask mode prot = .ok [.optApply (prot.mask ||| mask) mode] := by
  have hn : ¬ 2 ^ Config.numSectors ≤ mask.toNat := by
    have := mask.isLt; have : Config.numSectors = 8 := rfl; rw [this]; omega
  unfold protectGate
  rw [if_neg h, if_neg hn]
  rfl

/-- An apply under the option lock, all three requests answered `ok` (R127, R128). -/
theorem runGated_apply {command : Byte} {m : Byte} {md : ProtMode} {s : State} (hl : s.optLocked = true)
    (hok : s.answersOk 3) :
    runGated command .option .applyFailed (.ok [.optApply m md]) s = .next
      (({ s with prot := ⟨m, md⟩ }.requested [.optUnlock, .optApply m md, .optRelock]).acked command []) := by
  have hr : portReady (State.setLock (s.requested [.optUnlock]) .option false) (.optApply m md) = true := rfl
  have hb : requestAll [.optApply m md] (State.setLock (s.requested [.optUnlock]) .option false) = .answered true
      (((State.setLock (s.requested [.optUnlock]) .option false).requested [.optApply m md]).onOk (.optApply m md)) := by
    rw [requestAll, request_ok hr, issue_eq]
    · rfl
    · have := hok 1 (by omega)
      simpa [State.setLock, State.setOptLocked, State.requested] using this
  rw [runGated_closed (lock := .option) hl (hok 0 (by omega)) hb (by
    have := hok 2 (by omega)
    simpa [State.setLock, State.setOptLocked, State.requested, State.onOk, State.setProt, PortScript.after_after] using this)]
  simp only [State.setLock, State.setOptLocked, State.onOk, State.setProt, State.requested, State.acked,
    PortScript.after_after, if_true, respond_ok]
  congr 2
  · simp [hl]
  · simp

/-- An apply that fails, the lock closed again (R127, R128). -/
theorem runGated_applyFailed {command : Byte} {m : Byte} {md : ProtMode} {s : State} (hl : s.optLocked = true)
    (h0 : s.port.answer 0 = .ok) (h1 : s.port.answer 1 = .fail) (h2 : s.port.answer 2 = .ok) :
    runGated command .option .applyFailed (.ok [.optApply m md]) s = .next
      (({ s with prot := protOfDraw (Config.drawProt s.draws), draws := s.draws + 1 }.requested
        [.optUnlock, .optApply m md, .optRelock]).nacked .applyFailed) := by
  have hb := requestAll_failAt (as := []) (bs := []) (r := .optApply m md)
    (s := State.setLock (s.requested [.optUnlock]) .option false) rfl rfl (by
      simpa [State.setLock, State.setOptLocked, State.requested] using h1)
  rw [List.nil_append] at hb
  rw [runGated_closed (lock := .option) hl h0 hb (by
    simpa [State.setLock, State.setOptLocked, State.requested, State.onFail, State.setProt, State.drawn, PortScript.after_after] using h2)]
  simp only [State.setLock, State.setOptLocked, State.onFail, State.setProt, State.drawn, State.requested, State.nacked,
    PortScript.after_after, Bool.false_eq_true, if_false, respond_failure]
  congr 2
  · simp [hl]
  · simp

end Sys2Proof.Machine
end

