-- ==== Sys2Proof/Laws/Outcomes.lean ====
section
/-! SUPPORT. What a command can come to, for statements over all commands: the outcomes of an operation under its lock,
what it leaves alone, and where a reset can cut it short. -/

namespace Sys2Proof.Machine

/-- A reset that cuts a sequence short is an answer of the port. -/
theorem requestAll_reset_answer {rs : List PortRequest} {s t : State} (h : requestAll rs s = .reset t) :
    ∃ k e, s.port.answer k = .reset e := by
  induction rs generalizing s with
  | nil => cases h
  | cons r rs ih =>
    rw [requestAll] at h
    rcases hr : request r s with ⟨_ | _, u⟩ | u | f <;> rw [hr] at h
    · cases h
    · obtain ⟨-, ⟨-, -, rfl⟩ | ⟨h', -⟩⟩ := request_answered_inv hr
      · obtain ⟨k, e, hk⟩ := ih h
        exact ⟨k + 1, e, by simpa using hk⟩
      · cases h'
    · obtain ⟨-, e, ha, -⟩ := request_reset_inv hr
      exact ⟨0, e, by simpa using ha⟩
    · cases h

/-- The answers still to come are among those that were to come. -/
theorem withUnlocked_port {lock : Lock} {failure : ErrorCode} {body : List PortRequest} {s : State} :
    (∀ o t, withUnlocked lock failure body s = .finished o t → ∃ k, t.port = s.port.after k) := by
  refine (withUnlocked_induct (fun u => ∃ k, u.port = s.port.after k) ?_ ?_ ⟨0, rfl⟩).1 <;>
  · rintro r - u ⟨k, hk⟩ -
    exact ⟨k + 1, by simp [PortScript.tail_after, hk]⟩

/-- A sequence uses up answers and changes no other. -/
theorem requestAll_port {body : List PortRequest} {s : State} {ok : Bool} {t : State}
    (h : requestAll body s = .answered ok t) : ∃ k, t.port = s.port.after k := by
  refine (requestAll_induct (fun u => ∃ k, u.port = s.port.after k) ?_ ?_ ⟨0, rfl⟩).1 ok t h <;>
  · rintro r - u ⟨k, hk⟩ -
    exact ⟨k + 1, by simp [PortScript.tail_after, hk]⟩

/-- A reset that cuts an operation short is an answer of the port. -/
theorem withUnlocked_reset_answer {lock : Lock} {failure : ErrorCode} {body : List PortRequest} {s t : State}
    (h : withUnlocked lock failure body s = .reset t) : ∃ k e, s.port.answer k = .reset e := by
  rcases withUnlocked_cases h with ⟨u, h1, -⟩ | ⟨f, -, h'⟩ | ⟨u, -, h'⟩ | ⟨u, h1, hr⟩
  · obtain ⟨-, e, ha, -⟩ := request_reset_inv h1
    exact ⟨0, e, by simpa using ha⟩
  · cases h'
  · cases h'
  · obtain ⟨-, ⟨-, -, rfl⟩ | ⟨h', -⟩⟩ := request_answered_inv h1
    · rcases hr with ⟨v, h2, -⟩ | ⟨f, -, h'⟩ | ⟨ok, v, h2, ⟨w, h3, -⟩ | ⟨f, -, h'⟩ | ⟨w, -, h'⟩ | ⟨w, -, h'⟩⟩
      · obtain ⟨k, e, hk⟩ := requestAll_reset_answer h2
        exact ⟨k + 1, e, by simpa using hk⟩
      · cases h'
      · obtain ⟨k, hk⟩ := requestAll_port h2
        obtain ⟨-, e, ha, -⟩ := request_reset_inv h3
        rw [hk] at ha
        exact ⟨k + 1, e, by simpa using ha⟩
      · cases h'
      · cases h'
      · cases h'
    · cases h'

/-- What the requests of a command change, by its lock. -/
theorem AllowedBody.changes {i : Instr} {lock : Lock} {body : List PortRequest} (h : AllowedBody i lock body) :
    (lock = .flash ∧ changesFlash i = true ∧ changesProtection i = false ∧
      ∀ r ∈ body, (∃ k, r = .eraseSector k) ∨ r = .massErase ∨ ∃ a v, r = .programByte a v) ∨
    (lock = .option ∧ changesProtection i = true ∧ changesFlash i = false ∧ ∃ m md, body = [.optApply m md]) := by
  cases h with
  | erase hp hs =>
    refine .inl ⟨rfl, rfl, rfl, fun r hr => ?_⟩
    obtain ⟨k, -, rfl⟩ := List.mem_map.1 hr
    exact .inl ⟨k, rfl⟩
  | mass hp => exact .inl ⟨rfl, rfl, rfl, fun r hr => .inr (.inl (List.mem_singleton.1 hr))⟩
  | write hp hr =>
    refine .inl ⟨rfl, rfl, rfl, fun r hr => ?_⟩
    obtain ⟨x, v, rfl, -⟩ := mem_programRequests hr
    exact .inr (.inr ⟨x, v, rfl⟩)
  | enable hm hmd => exact .inr ⟨rfl, rfl, rfl, _, _, rfl⟩
  | disable => exact .inr ⟨rfl, rfl, rfl, _, _, rfl⟩

/-- An operation that finished: no unlock, a relock that failed, or a closed lock again (R117). -/
theorem withUnlocked_finished {lock : Lock} {failure : ErrorCode} {body : List PortRequest} {s u : State} {o : ArmOutcome}
    (h : withUnlocked lock failure body s = .finished o u) :
    s.locked lock = true ∧
    ((o = .operationFailure .unlockFailed ∧ u = s.requested [unlockRequest lock]) ∨
     ∃ ok v, requestAll body (State.setLock (s.requested [unlockRequest lock]) lock false) = .answered ok v ∧
      ((o = .fatal .relockFailed ∧ u = v.requested [relockRequest lock]) ∨
       (o = (if ok then .ok [] else .operationFailure failure) ∧
        u = State.setLock (v.requested [relockRequest lock]) lock true))) := by
  have e1 : (s.issue (unlockRequest lock)).onFail (unlockRequest lock) = s.requested [unlockRequest lock] := by
    rw [issue_eq]; cases lock <;> rfl
  have e2 : (s.issue (unlockRequest lock)).onOk (unlockRequest lock) =
      State.setLock (s.requested [unlockRequest lock]) lock false := by rw [issue_eq]; cases lock <;> rfl
  have e3 : ∀ v : State, (v.issue (relockRequest lock)).onFail (relockRequest lock) = v.requested [relockRequest lock] := by
    intro v; rw [issue_eq]; cases lock <;> rfl
  have e4 : ∀ v : State, (v.issue (relockRequest lock)).onOk (relockRequest lock) =
      State.setLock (v.requested [relockRequest lock]) lock true := by intro v; rw [issue_eq]; cases lock <;> rfl
  rcases withUnlocked_cases h with ⟨t, -, h'⟩ | ⟨f, -, h'⟩ | ⟨t, h1, h'⟩ | ⟨t, h1, hr⟩
  · cases h'
  · cases h'
  · cases h'
    obtain ⟨hl, ⟨h', -⟩ | ⟨-, -, rfl⟩⟩ := request_answered_inv h1
    · cases h'
    · rw [portReady_unlock] at hl
      exact ⟨hl, .inl ⟨rfl, e1⟩⟩
  · obtain ⟨hl, ⟨-, -, rfl⟩ | ⟨h', -⟩⟩ := request_answered_inv h1
    · rw [portReady_unlock] at hl
      rw [e2] at hr
      rcases hr with ⟨v, -, h'⟩ | ⟨f, -, h'⟩ | ⟨ok, v, h2, ⟨w, -, h'⟩ | ⟨f, -, h'⟩ | ⟨w, h3, h'⟩ | ⟨w, h3, h'⟩⟩
      · cases h'
      · cases h'
      · cases h'
      · cases h'
      · cases h'
        obtain ⟨-, ⟨h', -⟩ | ⟨-, -, rfl⟩⟩ := request_answered_inv h3
        · cases h'
        · exact ⟨hl, .inr ⟨ok, v, h2, .inl ⟨rfl, e3 v⟩⟩⟩
      · cases h'
        obtain ⟨-, ⟨-, -, rfl⟩ | ⟨h', -⟩⟩ := request_answered_inv h3
        · exact ⟨hl, .inr ⟨ok, v, h2, .inr ⟨rfl, e4 v⟩⟩⟩
        · cases h'
    · cases h'

/-- No lock request. -/
def PortRequest.isWork : PortRequest → Bool
  | .flashUnlock | .flashRelock | .optUnlock | .optRelock => false
  | .eraseSector _ | .massErase | .programByte _ _ | .optApply _ _ => true

/-- The body of a command has no lock request. -/
theorem AllowedBody.isWork {i : Instr} {lock : Lock} {body : List PortRequest} (h : AllowedBody i lock body) :
    ∀ r ∈ body, r.isWork = true := by
  rcases h.changes with ⟨-, -, -, h⟩ | ⟨-, -, -, m, md, rfl⟩
  · intro r hr
    rcases h r hr with ⟨k, rfl⟩ | rfl | ⟨a, v, rfl⟩ <;> rfl
  · intro r hr
    rw [List.mem_singleton.1 hr]; rfl

/-- The working requests leave both locks as they are. -/
theorem requestAll_locks {body : List PortRequest} {s t : State} {ok : Bool} (hw : ∀ r ∈ body, r.isWork = true)
    (h : requestAll body s = .answered ok t) : t.flashLocked = s.flashLocked ∧ t.optLocked = s.optLocked := by
  refine (requestAll_induct (fun u => u.flashLocked = s.flashLocked ∧ u.optLocked = s.optLocked) ?_ ?_ ⟨rfl, rfl⟩).1 ok t h <;>
  · rintro r hr u ⟨h1, h2⟩ -
    have := hw r hr
    cases r <;> first
      | exact absurd this (by decide)
      | (constructor <;> simp [State.onOk, State.onFail, State.eraseRange, State.drawRange, h1, h2]; done)
      | (simp only [State.onOk]; split <;> simp [State.drawRange, h1, h2])

/-- An operation changes nothing outside the flash port. -/
theorem withUnlocked_sameOutside {lock : Lock} {failure : ErrorCode} {body : List PortRequest} {s : State} :
    (∀ o t, withUnlocked lock failure body s = .finished o t → SameOutsidePort s t) ∧
      (∀ t, withUnlocked lock failure body s = .reset t → ∃ u e, SameOutsidePort s u ∧ t = u.resetSequence e) :=
  withUnlocked_induct (SameOutsidePort s) (fun r _ u hu _ => hu.trans (sameOutsidePort_onOk u r))
    (fun r _ u hu _ => hu.trans (sameOutsidePort_onFail u r)) (.refl s)

/-- The outcomes of an operation. -/
theorem finished_outcome {lock : Lock} {failure : ErrorCode} {body : List PortRequest} {s u : State} {o : ArmOutcome}
    (hf : errorKind failure = .operationFailure) (h : withUnlocked lock failure body s = .finished o u) :
    o = .fatal .relockFailed ∨ o = .ok [] ∨ ∃ e, o = .operationFailure e ∧ errorKind e = .operationFailure := by
  obtain ⟨-, ⟨rfl, -⟩ | ⟨ok, v, -, ⟨rfl, -⟩ | ⟨rfl, -⟩⟩⟩ := withUnlocked_finished h
  · exact .inr (.inr ⟨_, rfl, rfl⟩)
  · exact .inl rfl
  · cases ok
    · exact .inr (.inr ⟨_, rfl, hf⟩)
    · exact .inr (.inl rfl)

/-- A response leaves the locks alone. -/
theorem respond_locks (s : State) (c : Byte) (o : ArmOutcome) :
    (s.respond c o).flashLocked = s.flashLocked ∧ (s.respond c o).optLocked = s.optLocked := by cases o <;> exact ⟨rfl, rfl⟩

/-- The addresses a request works on. -/
def PortRequest.touches (r : PortRequest) (a : Nat) : Prop :=
  match r with
  | .eraseSector k => sectorBase k ≤ a ∧ a < sectorBase k + sectorSize k
  | .massErase => flashBase ≤ a ∧ a < flashBase + flashSize
  | .programByte x _ => a = x
  | .flashUnlock | .flashRelock | .optUnlock | .optRelock | .optApply _ _ => False

/-- A request answered `ok` changes no address it does not work on (spec/10_state.md R27). -/
theorem onOk_untouched {r : PortRequest} {a : Nat} (s : State) (h : ¬ r.touches a) :
    Memory.read (s.onOk r).flash a = Memory.read s.flash a := by
  cases r with
  | eraseSector k => exact (Memory.read_erase ..).trans (if_neg h)
  | massErase => exact (Memory.read_erase ..).trans (if_neg h)
  | programByte x v =>
    rcases State.onOk_programByte s x v with ⟨-, h'⟩ | ⟨-, h'⟩ <;> rw [h']
    · exact Memory.read_write_ne _ _ h
    · rw [State.drawRange_flash, Memory.read_fill, if_neg]
      have : a ≠ x := h
      omega
  | _ => rfl

/-- A request answered `fail` changes no address it does not work on (spec/10_state.md R27). -/
theorem onFail_untouched {r : PortRequest} {a : Nat} (s : State) (h : ¬ r.touches a) :
    Memory.read (s.onFail r).flash a = Memory.read s.flash a := by
  cases r with
  | eraseSector k => rw [State.onFail, State.drawRange_flash, Memory.read_fill]; exact if_neg h
  | massErase => rw [State.onFail, State.drawRange_flash, Memory.read_fill]; exact if_neg h
  | programByte x v =>
    rw [State.onFail, State.drawRange_flash, Memory.read_fill, if_neg]
    have : a ≠ x := h
    omega
  | _ => rfl

/-- A command works only on the addresses it stores to. -/
theorem AllowedBody.touches {i : Instr} {lock : Lock} {body : List PortRequest} (h : AllowedBody i lock body) {r : PortRequest}
    (hr : r ∈ body) {a : Nat} (ht : r.touches a) : storesTo i a := by
  cases h with
  | @erase p sector count hp hs =>
    obtain ⟨k, hk, rfl⟩ := List.mem_map.1 hr
    have hk' := mem_sectorSpan.1 hk
    have := eraseSpan_le sector.toNat count.toNat (Nat.le_of_lt hs)
    refine ⟨_, _, hp, .inr ⟨k, (sectorOf_eq_some_iff a k).2 ⟨by omega, ht⟩, hk'.1, hk'.2⟩⟩
  | mass hp =>
    rw [List.mem_singleton.1 hr] at ht
    refine ⟨_, _, hp, .inl ⟨rfl, ?_⟩⟩
    have ht' : flashBase ≤ a ∧ a < flashBase + flashSize := ht
    have := classify_flash (i := a - flashBase) (by omega)
    rwa [Nat.add_sub_cancel' ht'.1] at this
  | write hp hr' =>
    obtain ⟨x, v, rfl, h1, h2⟩ := mem_programRequests hr
    have : a = x := ht
    subst this
    exact ⟨_, _, hp, h1, h2⟩
  | enable hm hmd => rw [List.mem_singleton.1 hr] at ht; exact ht.elim
  | disable => rw [List.mem_singleton.1 hr] at ht; exact ht.elim

/-- A response leaves flash alone. -/
theorem respond_flash (s : State) (c : Byte) (o : ArmOutcome) : (s.respond c o).flash = s.flash := by cases o <;> rfl

/-- A response leaves the protection status alone. -/
theorem respond_prot (s : State) (c : Byte) (o : ArmOutcome) : (s.respond c o).prot = s.prot := by cases o <;> rfl

/-- A lock request works on no address. -/
theorem lock_untouched (lock : Lock) (a : Nat) : ¬ (unlockRequest lock).touches a ∧ ¬ (relockRequest lock).touches a := by
  cases lock <;> exact ⟨id, id⟩

/-- No reset is among the answers: no operation is cut short. -/
theorem withUnlocked_no_reset {lock : Lock} {failure : ErrorCode} {body : List PortRequest} {s t : State}
    (hn : s.noResetDuringRequest) : withUnlocked lock failure body s ≠ .reset t := by
  intro h
  obtain ⟨k, e, hk⟩ := withUnlocked_reset_answer h
  exact hn k e hk

/-- A flash operation leaves the protection status and the option lock alone. -/
theorem withUnlocked_prot {failure : ErrorCode} {body : List PortRequest} {s : State}
    (hw : ∀ r ∈ body, (∃ k, r = .eraseSector k) ∨ r = .massErase ∨ ∃ a v, r = .programByte a v) :
    (∀ o t, withUnlocked .flash failure body s = .finished o t → t.prot = s.prot ∧ t.optLocked = s.optLocked) ∧
      (∀ t, withUnlocked .flash failure body s = .reset t → t.prot = s.prot) := by
  have hind := withUnlocked_induct (fun u => u.prot = s.prot ∧ u.optLocked = s.optLocked) (lock := .flash) (failure := failure) (body := body) (s := s)
    (by
      rintro r hr u ⟨h1, h2⟩ -
      rcases hr with hr | rfl | rfl
      · rcases hw r hr with ⟨k, rfl⟩ | rfl | ⟨a, v, rfl⟩
        · exact ⟨h1, h2⟩
        · exact ⟨h1, h2⟩
        · simp only [State.onOk]; split <;> exact ⟨h1, h2⟩
      · exact ⟨h1, h2⟩
      · exact ⟨h1, h2⟩)
    (by
      rintro r hr u ⟨h1, h2⟩ -
      rcases hr with hr | rfl | rfl
      · rcases hw r hr with ⟨k, rfl⟩ | rfl | ⟨a, v, rfl⟩ <;> exact ⟨h1, h2⟩
      · exact ⟨h1, h2⟩
      · exact ⟨h1, h2⟩) ⟨rfl, rfl⟩
  refine ⟨hind.1, fun t ht => ?_⟩
  obtain ⟨u, e, hu, rfl⟩ := hind.2 t ht
  exact hu.1

/-- A protection operation leaves flash and its lock alone. -/
theorem withUnlocked_flash {failure : ErrorCode} {m : Byte} {md : ProtMode} {s : State} :
    (∀ o t, withUnlocked .option failure [.optApply m md] s = .finished o t → t.flash = s.flash ∧ t.flashLocked = s.flashLocked) ∧
      (∀ t, withUnlocked .option failure [.optApply m md] s = .reset t → t.flash = s.flash) := by
  have hind := withUnlocked_induct (fun u => u.flash = s.flash ∧ u.flashLocked = s.flashLocked) (lock := .option) (failure := failure) (body := [.optApply m md]) (s := s)
    (by
      rintro r hr u ⟨h1, h2⟩ -
      rcases hr with hr | rfl | rfl
      · rw [List.mem_singleton.1 hr]; exact ⟨h1, h2⟩
      · exact ⟨h1, h2⟩
      · exact ⟨h1, h2⟩)
    (by
      rintro r hr u ⟨h1, h2⟩ -
      rcases hr with hr | rfl | rfl
      · rw [List.mem_singleton.1 hr]; exact ⟨h1, h2⟩
      · exact ⟨h1, h2⟩
      · exact ⟨h1, h2⟩) ⟨rfl, rfl⟩
  refine ⟨hind.1, fun t ht => ?_⟩
  obtain ⟨u, e, hu, rfl⟩ := hind.2 t ht
  exact hu.1

/-- A response leaves the receive path and the accumulator alone. -/
theorem respond_outside (s : State) (c : Byte) (o : ArmOutcome) :
    (s.respond c o).len = s.len ∧ (s.respond c o).rxcount = s.rxcount ∧ (s.respond c o).rxbuf = s.rxbuf ∧
      (s.respond c o).crc = s.crc ∧ (s.respond c o).rx = s.rx ∧ (s.respond c o).resetIn = s.resetIn ∧
      (s.respond c o).point = s.point := by
  cases o <;> exact ⟨rfl, rfl, rfl, rfl, rfl, rfl, rfl⟩

/-- The fetch writes only the accumulator and the parse record. -/
theorem fetch_untouched {s : State} {e : ErrorCode} {i : Instr} {u : State} (h : fetch s = .rejected e u ∨ fetch s = .instr i u) :
    ∃ c p, u = { s with crc := c, pkt := p } := by
  rcases fetch_cases s with ⟨e', -, hf⟩ | ⟨-, ⟨-, hf⟩ | ⟨cells, -, ⟨e', -, hf⟩ | ⟨j, -, hf⟩⟩⟩ <;> rw [hf] at h <;> rcases h with h | h <;> cases h
  · exact ⟨_, _, rfl⟩
  · exact ⟨_, _, rfl⟩
  · exact ⟨_, _, rfl⟩

/-- Only the flash commands change flash, only the protection commands the protection status (spec/42_flash.md R118). -/
theorem exec_changes {i : Instr} {s t : State} (h : exec i s = .next t) :
    (changesFlash i = false → t.flash = s.flash) ∧ (changesProtection i = false → t.prot = s.prot) := by
  rcases exec_next_inv h with ⟨d, o, rfl, -, -⟩ | ⟨lock, failure, body, hb, hfl, hr⟩
  · exact ⟨fun _ => respond_flash _ _ _, fun _ => respond_prot _ _ _⟩
  · rcases hb.changes with ⟨rfl, h1, -, hw⟩ | ⟨rfl, h1, -, m, md, rfl⟩
    · refine ⟨fun h' => by (rw [h'] at h1; cases h1), fun _ => ?_⟩
      have hp := withUnlocked_prot (failure := failure) (s := s) hw
      rcases hr with ⟨o, u, hu, rfl⟩ | hu
      · exact (respond_prot _ _ _).trans (hp.1 _ _ hu).1
      · exact hp.2 _ hu
    · refine ⟨fun _ => ?_, fun h' => by (rw [h'] at h1; cases h1)⟩
      have hp := withUnlocked_flash (failure := failure) (m := m) (md := md) (s := s)
      rcases hr with ⟨o, u, hu, rfl⟩ | hu
      · exact (respond_flash _ _ _).trans (hp.1 _ _ hu).1
      · exact hp.2 _ hu

end Sys2Proof.Machine
end

