-- ==== Sys2Proof/Laws/Receive.lean ====
section
/-! SUPPORT. The receive buffer (spec/10_state.md R19) and the reception of a whole frame (spec/43_dispatcher.md R146, R147). -/

namespace Sys2Proof.Machine

/-- A fresh buffer has no written cell. -/
theorem unwritten {j : Nat} (hj : j < 202) : (Vector.replicate Config.rxCap (none : Option Byte))[j]? = some none := by
  rw [Vector.getElem?_replicate, if_pos (show j < Config.rxCap from hj)]

/-- A list of written cells read as a whole. -/
theorem mapM_id {l : List (Option Byte)} {cells : List Byte} (h : l.mapM id = some cells) :
    l = cells.map some := by
  induction l generalizing cells with
  | nil => simp at h; subst h; rfl
  | cons o l ih =>
    simp only [List.mapM_cons, id_eq, Option.bind_eq_bind, Option.bind_eq_some_iff] at h
    obtain ⟨b, rfl, bs, hbs, h⟩ := h
    cases h
    simp [ih hbs]

/-- The cells that are read are the written ones. -/
theorem cellsOf_some {buf : Vector (Option Byte) Config.rxCap} {n : Nat} {cells : List Byte}
    (h : cellsOf buf n = some cells) : buf.toList.take n = cells.map some := mapM_id h

/-- As many bytes are read as asked for. -/
theorem cellsOf_length {buf : Vector (Option Byte) Config.rxCap} {n : Nat} {cells : List Byte}
    (h : cellsOf buf n = some cells) (hn : n ≤ Config.rxCap) : cells.length = n := by
  have := congrArg List.length (cellsOf_some h)
  simp only [List.length_take, Vector.length_toList, List.length_map] at this
  omega

/-- Written cells read as their bytes. -/
theorem mapM_some (bs : List Byte) : (bs.map some).mapM id = some bs := by
  induction bs with
  | nil => rfl
  | cons b bs ih => simp [List.mapM_cons, ih]

/-- The buffer after the bytes `bs` are stored from cell `k` on. -/
def storeAll (buf : Vector (Option Byte) Config.rxCap) : Nat → List Byte → Vector (Option Byte) Config.rxCap
  | _, [] => buf
  | k, b :: bs => storeAll (storeCell buf k b) (k + 1) bs

/-- One cell is written and no other (spec/43_dispatcher.md R147). -/
theorem storeCell_getElem? {buf : Vector (Option Byte) Config.rxCap} {k j : Nat} {b : Byte} :
    (storeCell buf k b)[j]? = if k = j then (if k < Config.rxCap then some (some b) else none) else buf[j]? := by
  unfold storeCell
  rw [Vector.getElem?_setIfInBounds]

/-- The cells after a run of bytes is stored. -/
theorem storeAll_getElem? (bs : List Byte) (buf : Vector (Option Byte) Config.rxCap) (k j : Nat) (hj : j < Config.rxCap) :
    (storeAll buf k bs)[j]? = if k ≤ j ∧ j < k + bs.length then bs[j - k]?.map some else buf[j]? := by
  induction bs generalizing buf k with
  | nil => rw [storeAll, if_neg]; simp only [List.length_nil]; omega
  | cons b bs ih =>
    rw [storeAll, ih, storeCell_getElem?]
    simp only [List.length_cons]
    by_cases h : k = j
    · subst h
      rw [if_neg (by omega), if_pos rfl, if_pos hj, if_pos (by omega)]
      simp
    · rw [if_neg h]
      by_cases h1 : k + 1 ≤ j ∧ j < k + 1 + bs.length
      · rw [if_pos h1, if_pos (by omega)]
        obtain ⟨i, rfl⟩ : ∃ i, j = k + 1 + i := ⟨j - (k + 1), by omega⟩
        have e1 : k + 1 + i - (k + 1) = i := by omega
        have e2 : k + 1 + i - k = i + 1 := by omega
        rw [e1, e2, List.getElem?_cons_succ]
      · rw [if_neg h1, if_neg (by omega)]

/-- Bytes stored from cell 0 on are read back. -/
theorem cellsOf_storeAll (bs : List Byte) (buf : Vector (Option Byte) Config.rxCap) (h : bs.length ≤ Config.rxCap) :
    cellsOf (storeAll buf 0 bs) bs.length = some bs := by
  have : (storeAll buf 0 bs).toList.take bs.length = bs.map some := by
    apply List.ext_getElem?
    intro j
    rw [List.getElem?_take, List.getElem?_map]
    by_cases hj : j < bs.length
    · rw [if_pos hj]
      have := storeAll_getElem? bs buf 0 j (by omega)
      rw [if_pos (by omega), Nat.sub_zero] at this
      rw [← this]
      simp
    · rw [if_neg hj, List.getElem?_eq_none (by omega)]; rfl
  rw [cellsOf, this, mapM_some]

/-- One step, then the others. -/
theorem run_succ {n : Nat} {s t : State} (h : step s = .next t) : run (n + 1) s = run n t := by
  rw [run, h]

/-- The rest of a frame is received (spec/43_dispatcher.md R147). -/
theorem run_frame (bs rest : List Byte) (s : State) (hr : s.resetIn = []) (hp : s.phase = .awaitingFrame)
    (hx : s.rx = bs ++ rest) (hl : s.rxcount + bs.length = s.len.toNat) :
    run (bs.length + 1) s = .next
      { s with rxcount := s.len.toNat, rxbuf := storeAll s.rxbuf s.rxcount bs, rx := rest, phase := .dispatch } := by
  induction bs generalizing s with
  | nil =>
    have hlt : ¬ s.rxcount < s.len.toNat := by simp at hl; omega
    have : step s = .next (s.enter .dispatch) := by simp [step_phase hr, phaseStep, hp, receiveFrame, hlt]
    rw [List.length_nil, run_succ this]
    simp only [List.nil_append] at hx
    simp only [List.length_nil, Nat.add_zero] at hl
    rw [← hl, ← hx]
    rfl
  | cons b bs ih =>
    simp only [List.length_cons] at hl
    have hlt : s.rxcount < s.len.toNat := by omega
    have : step s = .next (s.takeFrameByte b (bs ++ rest)) := by
      simp [step_phase hr, phaseStep, hp, receiveFrame, hlt, hx]
    rw [List.length_cons, run_succ this, ih (s.takeFrameByte b (bs ++ rest)) hr hp rfl (by simp only [State.takeFrameByte]; omega)]
    rfl

/-- A whole frame is received (spec/43_dispatcher.md R146, R147). -/
theorem run_whole (bs rest : List Byte) (l : Byte) (s : State) (hr : s.resetIn = []) (hp : s.phase = .awaitingLength)
    (hx : s.rx = l :: (bs ++ rest)) (hl : bs.length = l.toNat) :
    run (bs.length + 2) s = .next
      { s with len := l, rxcount := l.toNat, rxbuf := storeAll (Vector.replicate Config.rxCap none) 0 bs, rx := rest,
               phase := .dispatch } := by
  have : step s = .next (s.beginFrame l (bs ++ rest)) := by simp [step_phase hr, phaseStep, hp, receiveLength, hx]
  rw [run_succ this, run_frame bs rest (s.beginFrame l (bs ++ rest)) hr rfl rfl (by simpa [State.beginFrame] using hl)]
  rfl

/-- The parts of an encoded instruction (spec/30_encoding.md R85). -/
theorem encode_eq (i : Instr) : ∃ l bs, encode i = l :: bs ∧ bs = i.code :: i.payload ++ bytesLe32 (crc32 (i.code :: i.payload)) ∧
    l = BitVec.ofNat 8 (i.payload.length + 5) := ⟨_, _, rfl, rfl, rfl⟩

end Sys2Proof.Machine
end

