-- ==== Sys2Proof/Laws/Invariant.lean ====
section
/-! SUPPORT. What keeps the invariant: requests behind their preconditions, the phase a command leaves, the receive
buffer. -/

namespace Sys2Proof.Machine

/-- A request keeps the canonical form of flash and the protection invariant, if what it stores does. -/
theorem request_keeps {r : PortRequest} {u : State} (hr : portReady u r = true) (hm : ∀ m md, r = .optApply m md → (ProtectionStatus.mk m md).wf = true)
    (h : Memory.wf u.flash ∧ u.prot.wf = true) :
    (Memory.wf ((u.issue r).onOk r).flash ∧ ((u.issue r).onOk r).prot.wf = true) ∧
      (Memory.wf ((u.issue r).onFail r).flash ∧ ((u.issue r).onFail r).prot.wf = true) := by
  have hi : Memory.wf (u.issue r).flash := h.1
  cases r with
  | eraseSector k =>
    have hk : k < Config.numSectors := by simp only [portReady, Bool.and_eq_true, decide_eq_true_eq] at hr; exact hr.2
    exact ⟨⟨Memory.wf_erase hi _ _, h.2⟩, ⟨State.drawRange_wf hi fun i hi => classify_sector hk hi, h.2⟩⟩
  | massErase => exact ⟨⟨Memory.wf_erase hi _ _, h.2⟩, ⟨State.drawRange_wf hi fun i hi => classify_flash hi, h.2⟩⟩
  | programByte a v =>
    have ha : classify a = .nonVolatile := by simp only [portReady, Bool.and_eq_true, beq_iff_eq] at hr; exact hr.2
    have hd : ∀ i, i < 1 → classify (a + i) = .nonVolatile := fun i hi => by
      obtain rfl : i = 0 := by omega
      exact ha
    obtain ⟨hw, -, -, m, d, hu⟩ := State.onOk_programByte_flash (s := u.issue (.programByte a v)) (v := v) hi ha
    exact ⟨⟨hw, by rw [hu]; exact h.2⟩, ⟨State.drawRange_wf hi hd, h.2⟩⟩
  | optApply m md => exact ⟨⟨hi, hm m md rfl⟩, ⟨hi, protOfDraw_wf _⟩⟩
  | _ => exact ⟨h, h⟩

/-- The protection invariant of an eight-sector mask (spec/10_state.md R21). -/
theorem prot_wf_iff (m : Byte) (md : ProtMode) : (ProtectionStatus.mk m md).wf = true ↔ (md = .none ↔ m = 0) := by
  have hm : m.toNat < 2 ^ Config.numSectors := m.isLt
  simp only [ProtectionStatus.wf, Bool.and_eq_true, beq_iff_eq, decide_eq_true_eq, hm, and_true]
  cases md <;> by_cases h : m = 0 <;> simp [h]

/-- What a command applies keeps the protection invariant. -/
theorem AllowedBody.applies {i : Instr} {lock : Lock} {body : List PortRequest} (h : AllowedBody i lock body) {m : Byte} {md : ProtMode}
    (hr : PortRequest.optApply m md ∈ body) : (ProtectionStatus.mk m md).wf = true := by
  cases h with
  | erase hp hs => obtain ⟨k, -, h⟩ := List.mem_map.1 hr; cases h
  | mass hp => cases List.mem_singleton.1 hr
  | write hp hr' => obtain ⟨x, v, h, -⟩ := mem_programRequests hr; cases h
  | enable hm hmd => cases List.mem_singleton.1 hr; rw [prot_wf_iff]; exact ⟨fun h => absurd h hmd, fun h => absurd h hm⟩
  | disable => cases List.mem_singleton.1 hr; rfl

/-- A parse record of a legal length is well-formed (spec/41_frame.md R105). -/
theorem packetOf_wf {cells : List Byte} (h5 : 5 ≤ cells.length) (h : cells.length ≤ 202) : (packetOf cells).wf = true := by
  have h1 : cells.length - 5 ≤ Config.payloadCap := by simp only [Config.payloadCap]; omega
  have h2 : cells.length - 5 = ((cells.take (cells.length - 4)).drop 1).length := by
    rw [List.length_drop, List.length_take]; omega
  unfold Packet.wf packetOf
  rw [Bool.and_eq_true, beq_iff_eq]
  exact ⟨decide_eq_true h1, h2⟩

/-- One more received byte (spec/43_dispatcher.md R147). -/
theorem cellsWritten_store {buf : Vector (Option Byte) Config.rxCap} {n : Nat} (h : cellsWritten buf n) (b : Byte) :
    cellsWritten (storeCell buf n b) (n + 1) := by
  intro i c hi hc
  rw [storeCell_getElem?] at hc
  by_cases hn : n = i
  · rw [if_pos hn] at hc
    split at hc
    · cases hc; rfl
    · cases hc
  · rw [if_neg hn] at hc
    exact h i c (by omega) hc

/-- Written cells can be read. -/
theorem cellsOf_written {buf : Vector (Option Byte) Config.rxCap} {n : Nat} (h : cellsWritten buf n) :
    ∃ cells, cellsOf buf n = some cells := by
  have : ∀ l : List (Option Byte), (∀ o ∈ l, o.isSome) → ∃ cells : List Byte, l.mapM id = some cells := by
    intro l hl
    induction l with
    | nil => exact ⟨[], rfl⟩
    | cons o l ih =>
      obtain ⟨bs, hbs⟩ := ih fun o ho => hl o (List.mem_cons_of_mem _ ho)
      obtain ⟨b, rfl⟩ := Option.isSome_iff_exists.1 (hl o (by simp))
      exact ⟨b :: bs, by simp [List.mapM_cons, hbs]⟩
  apply this
  intro o ho
  obtain ⟨j, hjo⟩ := List.mem_iff_getElem?.1 ho
  have hj := (List.getElem?_eq_some_iff.1 hjo).1
  rw [List.length_take] at hj
  rw [List.getElem?_take, if_pos (by omega)] at hjo
  exact h j o (by omega) (by rw [← Vector.getElem?_toList]; exact hjo)

/-- The requests of a command are ones the block issues under its lock (spec/10_state.md R27). -/
theorem AllowedBody.under {i : Instr} {lock : Lock} {body : List PortRequest} (h : AllowedBody i lock body) :
    lockOf i.code = some lock ∧ ∀ r ∈ body, r.under lock := by
  have happ := fun m md hr => h.applies (m := m) (md := md) hr
  cases h with
  | @erase p sector count hp hs =>
    refine ⟨rfl, fun r hr => ?_⟩
    obtain ⟨k, hk, rfl⟩ := List.mem_map.1 hr
    have hk' := mem_sectorSpan.1 hk
    have := eraseSpan_le sector.toNat count.toNat (Nat.le_of_lt hs)
    exact (by omega : k < Config.numSectors)
  | mass hp => exact ⟨rfl, fun r hr => by rw [List.mem_singleton.1 hr]; exact trivial⟩
  | @write p addr data hp hc =>
    refine ⟨rfl, fun r hr => ?_⟩
    obtain ⟨x, v, rfl, h1, h2⟩ := mem_programRequests hr
    have := classifyRange_addr (a := addr.toNat) (n := data.length) (by rw [hc]; simp) (i := x - addr.toNat) (by omega)
    rw [hc, Nat.add_sub_cancel' h1] at this
    exact this
  | enable hm hmd => exact ⟨rfl, fun r hr => by rw [List.mem_singleton.1 hr]; exact happ _ _ List.mem_cons_self⟩
  | disable => exact ⟨rfl, fun r hr => by rw [List.mem_singleton.1 hr]; exact happ _ _ List.mem_cons_self⟩

/-- A request under its open lock meets its precondition (spec/10_state.md R27). -/
theorem PortRequest.under_ready {r : PortRequest} {lock : Lock} {u : State} (h : r.under lock)
    (hl : u.locked lock = false) : portReady u r = true := by
  cases lock <;> cases r <;> first
    | exact h.elim
    | (have h' : _ < _ := h; have hl' : u.flashLocked = false := hl; simp [portReady, hl', h'])
    | (have h' : classify _ = _ := h; have hl' : u.flashLocked = false := hl; simp [portReady, hl', h'])
    | (have hl' : u.flashLocked = false := hl; simp [portReady, hl'])
    | (have hl' : u.optLocked = false := hl; simp [portReady, hl'])

/-- A request under its lock leaves the locks. -/
theorem PortRequest.under_locks {r : PortRequest} {lock : Lock} {u : State} (h : r.under lock) :
    (((u.issue r).onOk r).flashLocked = u.flashLocked ∧ ((u.issue r).onOk r).optLocked = u.optLocked) ∧
      ((u.issue r).onFail r).flashLocked = u.flashLocked ∧ ((u.issue r).onFail r).optLocked = u.optLocked := by
  cases r <;> first
    | (cases lock <;> exact h.elim)
    | exact ⟨⟨rfl, rfl⟩, rfl, rfl⟩
    | (refine ⟨⟨?_, ?_⟩, rfl, rfl⟩ <;> (simp only [State.onOk]; split <;> rfl))

/-- The same locks stand open. -/
theorem State.onlyOpen_of_eq {u v : State} {l : Lock} (hl : u.onlyOpen l)
    (h : v.flashLocked = u.flashLocked ∧ v.optLocked = u.optLocked) : v.onlyOpen l := by
  cases l <;> exact ⟨h.1.trans hl.1, h.2.trans hl.2⟩

/-- An open lock is not closed. -/
theorem State.onlyOpen_locked {u : State} {l : Lock} (hl : u.onlyOpen l) : u.locked l = false := by
  cases l
  · exact hl.1
  · exact hl.2

/-- A request under its lock keeps the canonical form of flash and the protection invariant. -/
theorem PortRequest.under_keeps {r : PortRequest} {lock : Lock} {u : State} (h : r.under lock)
    (hr : portReady u r = true) (hw : Memory.wf u.flash ∧ u.prot.wf = true) :
    (Memory.wf ((u.issue r).onOk r).flash ∧ ((u.issue r).onOk r).prot.wf = true) ∧
      (Memory.wf ((u.issue r).onFail r).flash ∧ ((u.issue r).onFail r).prot.wf = true) :=
  request_keeps hr (fun m md he => by subst he; cases lock; exacts [h.elim, h]) hw

/-- An unlock or a relock writes neither flash nor protection. -/
theorem lockRequest_writes {r : PortRequest} {l : Lock} (h : r = unlockRequest l ∨ r = relockRequest l) (u : State) :
    ((u.issue r).onOk r).flash = u.flash ∧ ((u.issue r).onOk r).prot = u.prot ∧
      ((u.issue r).onFail r).flash = u.flash ∧ ((u.issue r).onFail r).prot = u.prot := by
  rcases h with rfl | rfl <;> cases l <;> exact ⟨rfl, rfl, rfl, rfl⟩

/-- What a step from a point of a legal state leads to: a next point of the same command in a legal state, a response in
a legal state, or the reset state. Flash and protection stay well-formed. -/
theorem tick_inv {p : Point} {s t : State} {q : Option Point} (hp : p.inv s) (hw : Memory.wf s.flash ∧ s.prot.wf = true)
    (h : tick p s = .next (q, t)) :
    (Memory.wf t.flash ∧ t.prot.wf = true) ∧
      ((∃ q', q = some q' ∧ q'.inv t ∧ q'.command = p.command) ∨
       (q = none ∧ ∃ (u : State) (e : Bool), t = u.resetSequence e) ∨
       (q = none ∧ ∃ c o, p = .responding c o ∧ t = s.respond c o) ∨
       (q = none ∧ ∃ e, p = .rejecting e ∧ t = s.raiseNack e)) := by
  cases p with
  | unlocking c lock failure body =>
    obtain ⟨hl, hc, hf, hb⟩ := hp
    have hlr := lockRequest_writes (.inl rfl : unlockRequest lock = _ ∨ _) s
    rcases hr : request (unlockRequest lock) s with ⟨_ | _, u⟩ | u | k <;> rw [tick, hr] at h <;> cases h
    · obtain ⟨-, ⟨h', -⟩ | ⟨-, -, rfl⟩⟩ := request_answered_inv hr
      · cases h'
      · refine ⟨by rw [hlr.2.2.1, hlr.2.2.2]; exact hw, .inl ⟨_, rfl, .inr ⟨?_, .inr ⟨_, rfl, rfl⟩⟩, rfl⟩⟩
        cases lock <;> exact hl
    · obtain ⟨-, ⟨-, -, rfl⟩ | ⟨h', -⟩⟩ := request_answered_inv hr
      · have ho : ((s.issue (unlockRequest lock)).onOk (unlockRequest lock)).onlyOpen lock := by
          cases lock
          · exact ⟨rfl, hl.2⟩
          · exact ⟨hl.1, rfl⟩
        refine ⟨by rw [hlr.1, hlr.2.1]; exact hw, .inl ⟨_, rfl, ?_, by cases body <;> rfl⟩⟩
        cases body with
        | nil => exact ⟨ho, hc, .inl rfl⟩
        | cons r rs => exact ⟨ho, hc, hf, hb⟩
      · cases h'
    · obtain ⟨-, e, -, rfl⟩ := request_reset_inv hr
      refine ⟨?_, .inr (.inl ⟨rfl, _, e, rfl⟩)⟩
      rw [State.resetSequence_flash, State.resetSequence_prot, hlr.2.2.1, hlr.2.2.2]
      exact hw
  | working c lock failure body =>
    obtain ⟨hl, hc, hf, hb⟩ := hp
    cases body with
    | nil => cases h; exact ⟨hw, .inl ⟨_, rfl, ⟨hl, hc, .inl rfl⟩, rfl⟩⟩
    | cons r rs =>
      have hrb := hb r (by simp)
      have hk := PortRequest.under_keeps hrb (PortRequest.under_ready hrb (State.onlyOpen_locked hl)) hw
      have hlk := PortRequest.under_locks hrb (u := s)
      rcases hr : request r s with ⟨_ | _, u⟩ | u | k <;> rw [tick, hr] at h <;> cases h
      · obtain ⟨-, ⟨h', -⟩ | ⟨-, -, rfl⟩⟩ := request_answered_inv hr
        · cases h'
        · exact ⟨hk.2, .inl ⟨_, rfl, ⟨State.onlyOpen_of_eq hl hlk.2, hc, .inr ⟨_, rfl, hf⟩⟩, rfl⟩⟩
      · obtain ⟨-, ⟨-, -, rfl⟩ | ⟨h', -⟩⟩ := request_answered_inv hr
        · refine ⟨hk.1, .inl ⟨_, rfl, ?_, by cases rs <;> rfl⟩⟩
          cases rs with
          | nil => exact ⟨State.onlyOpen_of_eq hl hlk.1, hc, .inl rfl⟩
          | cons r' rs => exact ⟨State.onlyOpen_of_eq hl hlk.1, hc, hf, fun q hq => hb q (List.mem_cons_of_mem _ hq)⟩
        · cases h'
      · obtain ⟨-, e, -, rfl⟩ := request_reset_inv hr
        exact ⟨hk.2, .inr (.inl ⟨rfl, _, e, rfl⟩)⟩
  | relocking c lock o =>
    obtain ⟨hl, hc, ho⟩ := hp
    have hlr := lockRequest_writes (.inr rfl : _ ∨ relockRequest lock = _) s
    rcases hr : request (relockRequest lock) s with ⟨_ | _, u⟩ | u | k <;> rw [tick, hr] at h <;> cases h
    · obtain ⟨-, ⟨h', -⟩ | ⟨-, -, rfl⟩⟩ := request_answered_inv hr
      · cases h'
      · refine ⟨by rw [hlr.2.2.1, hlr.2.2.2]; exact hw, .inl ⟨_, rfl, .inl ⟨rfl, lock, hc, ?_⟩, rfl⟩⟩
        cases lock <;> exact hl
    · obtain ⟨-, ⟨-, -, rfl⟩ | ⟨h', -⟩⟩ := request_answered_inv hr
      · refine ⟨by rw [hlr.1, hlr.2.1]; exact hw, .inl ⟨_, rfl, .inr ⟨?_, ?_⟩, rfl⟩⟩
        · cases lock
          · exact ⟨rfl, hl.2⟩
          · exact ⟨hl.1, rfl⟩
        · rcases ho with rfl | ho
          · exact .inl ⟨_, rfl⟩
          · exact .inr ho
      · cases h'
    · obtain ⟨-, e, -, rfl⟩ := request_reset_inv hr
      refine ⟨?_, .inr (.inl ⟨rfl, _, e, rfl⟩)⟩
      rw [State.resetSequence_flash, State.resetSequence_prot, hlr.2.2.1, hlr.2.2.2]
      exact hw
  | reading c a n got =>
    obtain ⟨hl, ha⟩ := hp
    cases n with
    | zero => cases h; exact ⟨hw, .inl ⟨_, rfl, .inr ⟨hl, .inl ⟨_, rfl⟩⟩, rfl⟩⟩
    | succ n =>
      rcases hm : memRead a s with k | ⟨b, u⟩ <;> rw [tick, hm] at h <;> cases h
      have hu : (Memory.wf t.flash ∧ t.prot.wf = true) ∧ t.lockedUp := by
        rcases memRead_same hm with ⟨rfl, -⟩ | ⟨rfl, -⟩
        · exact ⟨hw, hl⟩
        · exact ⟨hw, hl⟩
      refine ⟨hu.1, .inl ⟨_, rfl, ?_, by cases n <;> rfl⟩⟩
      cases n with
      | zero => exact .inr ⟨hu.2, .inl ⟨_, rfl⟩⟩
      | succ n =>
        refine ⟨hu.2, fun i hi => ?_⟩
        rw [Nat.add_assoc, Nat.add_comm 1]
        exact ha (i + 1) (by omega)
  | responding c o =>
    cases h
    exact ⟨by rw [respond_flash, respond_prot]; exact hw, .inr (.inr (.inl ⟨rfl, c, o, rfl, rfl⟩))⟩
  | rejecting e => cases h; exact ⟨hw, .inr (.inr (.inr ⟨rfl, e, rfl, rfl⟩))⟩

/-- A step from a point of a legal state stops only at a request that is never answered (spec/60_exceptions.md R186). -/
theorem tick_stop {p : Point} {s : State} {k : Fault} (hp : p.inv s) (h : tick p s = .fault k) :
    ∃ r, k = .portNeverAnswers r := by
  have stop : ∀ {r : PortRequest} {k : Fault}, portReady s r = true → request r s = .stopped k → ∃ r, k = .portNeverAnswers r := by
    intro r k hready hr
    rcases request_stopped_inv hr with ⟨h', -⟩ | ⟨-, -, rfl⟩
    · rw [hready] at h'; cases h'
    · exact ⟨r, rfl⟩
  cases p with
  | unlocking c lock failure body =>
    rcases hr : request (unlockRequest lock) s with ⟨_ | _, u⟩ | u | k <;> rw [tick, hr] at h <;> cases h
    exact stop (by cases lock; exacts [hp.1.1, hp.1.2]) hr
  | working c lock failure body =>
    cases body with
    | nil => cases h
    | cons r rs =>
      rcases hr : request r s with ⟨_ | _, u⟩ | u | k <;> rw [tick, hr] at h <;> cases h
      exact stop (PortRequest.under_ready (hp.2.2.2 r (by simp)) (State.onlyOpen_locked hp.1)) hr
  | relocking c lock o =>
    rcases hr : request (relockRequest lock) s with ⟨_ | _, u⟩ | u | k <;> rw [tick, hr] at h <;> cases h
    exact stop (by cases lock <;> rfl) hr
  | reading c a n got =>
    cases n with
    | zero => cases h
    | succ n =>
      exfalso
      rcases hm : memRead a s with k | ⟨b, u⟩ <;> rw [tick, hm] at h <;> cases h
      have ha := hp.2 0 (by omega)
      rw [Nat.add_zero] at ha
      unfold memRead at hm
      cases hc : classify a <;> rw [hc] at hm <;> cases hm
      exact ha hc
  | responding c o => cases h
  | rejecting e => cases h

/-- The first point of a command that needs a request or a read is one of a legal state. -/
theorem commandPoint_inv {i : Instr} {s : State} (hl : s.lockedUp) :
    (∃ o, commandPoint i s = .responding i.code o ∧ AtOnce i o) ∨
      ((commandPoint i s).inv s ∧ (commandPoint i s).command = some i.code) := by
  rcases commandPoint_shape i s with h | ⟨p, addr, n, hi, hr, hp⟩ | ⟨lock, failure, body, hb, hf, hp⟩
  · exact .inl h
  · refine .inr ?_
    rw [hp]
    cases n with
    | zero => exact ⟨.inr ⟨hl, .inl ⟨_, rfl⟩⟩, rfl⟩
    | succ n => exact ⟨⟨hl, fun i hi => by rw [classifyRange_addr hr hi]; exact hr⟩, rfl⟩
  · rw [hp]
    exact .inr ⟨⟨hl, hb.under.1, hf, hb.under.2⟩, rfl⟩

end Sys2Proof.Machine
end

