-- ==== Sys2Proof/Laws/PerInstr.lean ====
section
/-! SUPPORT. Statements made per instruction, about the instruction as syntax. -/

namespace Sys2Proof.Laws.Encoding

open Sys2Proof

/-- The frame of an instruction (spec/30_encoding.md R65, R73, R85): it has six bytes more than the payload, its first
byte counts the bytes that follow it, its second is the command code, its payload follows, and the opcode decoder
gives the instruction back. -/
def Statement (i : Instr) : Prop :=
  i.WellFormed →
    (encode i).length = i.payload.length + 6 ∧
    (encode i)[0]? = some (BitVec.ofNat 8 (i.payload.length + 5)) ∧
    (encode i)[1]? = some i.code ∧
    ((encode i).drop 2).take i.payload.length = i.payload ∧
    instrOf i.code i.payload = some i

/-- The statement follows from the parts of the encoder, the same for every command. -/
theorem of_encode (i : Instr) : Statement i := fun _ =>
  ⟨by simp [encode, encodeFrame], rfl, rfl, by simp [encode, encodeFrame], instrOf_code i⟩

theorem getVersion (payload : List Byte) : Statement (.getVersion payload) := of_encode _

theorem getHelp (payload : List Byte) : Statement (.getHelp payload) := of_encode _

theorem getChipId (payload : List Byte) : Statement (.getChipId payload) := of_encode _

theorem getProtectionStatus (payload : List Byte) : Statement (.getProtectionStatus payload) := of_encode _

theorem jumpToAddress (payload : List Byte) : Statement (.jumpToAddress payload) := of_encode _

theorem eraseFlash (payload : List Byte) : Statement (.eraseFlash payload) := of_encode _

theorem writeMemory (payload : List Byte) : Statement (.writeMemory payload) := of_encode _

theorem enableRwProtect (payload : List Byte) : Statement (.enableRwProtect payload) := of_encode _

theorem readMemory (payload : List Byte) : Statement (.readMemory payload) := of_encode _

theorem readSectorProtectionStatus (payload : List Byte) : Statement (.readSectorProtectionStatus payload) := of_encode _

theorem readOtp (payload : List Byte) : Statement (.readOtp payload) := of_encode _

theorem disableRwProtect (payload : List Byte) : Statement (.disableRwProtect payload) := of_encode _

end Sys2Proof.Laws.Encoding
end

