-- ==== Sys2Proof/Laws/Progress.lean ====
section
/-! SUPPORT. What one step in Dispatch can do: the invariant at the point it leaves, the stops, what it writes, sends and
requests (spec/43_dispatcher.md R145). -/

namespace Sys2Proof.Machine

/-- A state with no point stands at none. -/
theorem State.stand_none {s : State} (h : s.point = none) : s.stand none = s := by rw [State.stand, ← h]

/-- What holds at a point is about the locks only. -/
theorem Point.inv_stand {p : Point} {s : State} {q : Option Point} (h : p.inv s) : p.inv (s.stand q) := by
  cases p <;> exact h

/-- A step from a point that has a next state. -/
theorem advance_next_inv {p : Point} {s t : State} (h : advance p s = .next t) :
    ∃ q t', tick p s = .next (q, t') ∧ t = t'.stand q := by
  unfold advance at h
  rcases ht : tick p s with ⟨q, t'⟩ | k | r <;> rw [ht] at h <;> cases h
  exact ⟨q, t', rfl, rfl⟩

/-- A reset leaves a legal state (spec/70_reset_and_hazards.md R195). -/
theorem State.resetSequence_inv {u : State} (e : Bool) (hw : Memory.wf u.flash ∧ u.prot.wf = true) :
    (u.resetSequence e).Inv where
  flash := hw.1
  prot := hw.2
  locks := fun _ _ => ⟨rfl, rfl⟩
  point := fun p h => by cases h
  count := by cases e <;> (intro h; cases h)
  cells := by cases e <;> (intro h; cases h)
  frame := by cases e <;> (intro h; cases h)
  packet := fun p h => by cases h
  consumed := fun _ _ _ => rfl

/-- A NACK outside a command leaves a legal state (spec/60_exceptions.md R182). -/
theorem State.raiseNack_inv {u : State} (e : ErrorCode) (hw : Memory.wf u.flash ∧ u.prot.wf = true) (hl : u.lockedUp)
    (hn : u.point = none) :
    (u.raiseNack e).Inv where
  flash := hw.1
  prot := hw.2
  locks := fun _ _ => hl
  point := fun p h => by rw [show (u.raiseNack e).point = u.point from rfl, hn] at h; cases h
  count := by intro h; cases h
  cells := by intro h; cases h
  frame := by intro h; cases h
  packet := fun p h => by cases h
  consumed := fun _ _ _ => rfl

/-- The end of a command leaves a legal state (spec/43_dispatcher.md R152). -/
theorem State.respond_inv {u : State} (c : Byte) (o : ArmOutcome) (hw : Memory.wf u.flash ∧ u.prot.wf = true)
    (hl : u.lockedUp ∨ ∃ r, o = .fatal r) (hpk : ∀ k, u.pkt = some k → k.wf = true) (hn : u.point = none) :
    (u.respond c o).Inv where
  flash := by rw [respond_flash]; exact hw.1
  prot := by rw [respond_prot]; exact hw.2
  locks := fun hh _ => by
    rcases hl with hl | ⟨r, rfl⟩
    · have := respond_locks u c o
      exact ⟨this.1.trans hl.1, this.2.trans hl.2⟩
    · exact absurd rfl (hh r)
  point := fun p h => by rw [State.respond_point, hn] at h; cases h
  count := by cases o <;> (intro h; cases h)
  cells := by cases o <;> (intro h; cases h)
  frame := by cases o <;> (intro h; cases h)
  packet := fun p h => by
    cases o <;> first
      | cases h
      | exact hpk p h
  consumed := fun h1 h2 _ => by
    cases o <;> first
      | rfl
      | exact absurd rfl (h1 _)
      | exact absurd rfl (h2 _)

/-- A step from a point of a legal state leaves a legal state. -/
theorem advance_inv {p : Point} {s t : State} (hw : Memory.wf s.flash ∧ s.prot.wf = true) (hp : p.inv s) (hph : s.phase = .dispatch)
    (hn : s.point = none) (hfr : s.rxcount = s.len.toNat ∧ cellsWritten s.rxbuf s.len.toNat)
    (hpk : ∀ k, s.pkt = some k → k.wf = true) (hcmd : ∃ k, s.pkt = some k ∧ p.command = some k.command)
    (h : advance p s = .next t) : t.Inv := by
  unfold advance at h
  rcases ht : tick p s with ⟨q, t'⟩ | k | r <;> rw [ht] at h <;> cases h
  obtain ⟨hwt, ⟨q', rfl, hq, hqc⟩ | ⟨rfl, u, e, rfl⟩ | ⟨rfl, c, o, rfl, rfl⟩ | ⟨rfl, e, rfl, rfl⟩⟩ := tick_inv hp hw ht
  · obtain ⟨hs, -, -⟩ := tick_same ht
    have h1 : t'.phase = .dispatch := hs.phase.trans hph
    refine ⟨hwt.1, hwt.2, fun _ h => (by cases h), fun p h => ?_, fun h => ?_, fun h => ?_, fun _ => ?_, ?_, fun _ _ h => (by cases h)⟩
    · cases h
      refine ⟨h1, Point.inv_stand hq, ?_⟩
      show ∃ k, t'.pkt = _ ∧ _
      rw [hs.pkt, hqc]; exact hcmd
    · exact absurd (h1.symm.trans h) (by simp)
    · exact absurd (h1.symm.trans h) (by simp)
    · show t'.rxcount = t'.len.toNat ∧ cellsWritten t'.rxbuf t'.len.toNat
      rw [hs.rxcount, hs.len, hs.rxbuf]; exact hfr
    · show ∀ k, t'.pkt = some k → _
      rw [hs.pkt]; exact hpk
  · rw [State.stand_none rfl]; exact State.resetSequence_inv e hwt
  · rw [State.stand_none (by rw [State.respond_point, hn])]
    refine State.respond_inv c o hw ?_ hpk hn
    rcases hp with ⟨rfl, -⟩ | ⟨hl, -⟩
    · exact .inr ⟨_, rfl⟩
    · exact .inl hl
  · obtain ⟨k, -, h⟩ := hcmd
    cases h

/-- A step from a point of a legal state stops only at a request that is never answered (spec/60_exceptions.md R186). -/
theorem advance_fault {p : Point} {s : State} {f : Fault} (hp : p.inv s) (h : advance p s = .fault f) :
    ∃ r, f = .portNeverAnswers r := by
  unfold advance at h
  rcases ht : tick p s with ⟨q, t'⟩ | k | r <;> rw [ht] at h <;> cases h
  exact tick_stop hp ht

/-- The fetch of an instruction writes the accumulator and a well-formed parse record of its code. -/
theorem fetch_packet {s u : State} {i : Instr} (h : fetch s = .instr i u) :
    (∃ c k, u = { s with crc := c, pkt := some k } ∧ k.command = i.code ∧ k.wf = true) := by
  rcases fetch_cases s with ⟨e', -, hf'⟩ | ⟨hl, ⟨-, hf'⟩ | ⟨cells, hc, ⟨e', -, hf'⟩ | ⟨j, hj, hf'⟩⟩⟩ <;> rw [hf'] at h <;> cases h
  have hl' := (lengthError_eq_none_iff _).1 hl
  have hlen := cellsOf_length hc hl'.2
  obtain ⟨-, h1, h2⟩ := (instrOfPacket_ok_iff _ _).1 hj
  exact ⟨_, packetOf cells, rfl, h1.symm, packetOf_wf (by omega) (by omega)⟩

/-- What holds after a request, answered either way or cut short by a reset. -/
theorem request_after {r : PortRequest} {s : State} {P : State → Prop} (ho : P ((s.issue r).onOk r))
    (hf : P ((s.issue r).onFail r)) (hr : ∀ u e, P u → P (u.resetSequence e)) :
    (∀ ok u, request r s = .answered ok u → P u) ∧ ∀ u, request r s = .reset u → P u := by
  refine ⟨fun ok u h => ?_, fun u h => ?_⟩
  · obtain ⟨-, ⟨-, -, rfl⟩ | ⟨-, -, rfl⟩⟩ := request_answered_inv h
    · exact ho
    · exact hf
  · obtain ⟨-, e, -, rfl⟩ := request_reset_inv h
    exact hr _ _ hf

/-- Flash is written only by a request under the flash lock, protection only by one under the option lock
(spec/42_flash.md R118). -/
theorem tick_writes {p : Point} {s t : State} {q : Option Point} (hp : p.inv s) (h : tick p s = .next (q, t)) :
    (t.flash = s.flash ∨ ∃ c f r rs, p = .working c .flash f (r :: rs)) ∧
      (t.prot = s.prot ∨ ∃ c f r rs, p = .working c .option f (r :: rs)) := by
  have lockRequest : ∀ {r : PortRequest} {l : Lock}, (r = unlockRequest l ∨ r = relockRequest l) →
      (∀ ok u, request r s = .answered ok u → u.flash = s.flash ∧ u.prot = s.prot) ∧
        ∀ u, request r s = .reset u → u.flash = s.flash ∧ u.prot = s.prot := by
    intro r l hr
    obtain ⟨h1, h2, h3, h4⟩ := lockRequest_writes hr s
    exact request_after (P := fun u => u.flash = s.flash ∧ u.prot = s.prot) ⟨h1, h2⟩ ⟨h3, h4⟩ fun _ _ h => h
  cases p with
  | unlocking c lock failure body =>
    have hx := lockRequest (.inl rfl : unlockRequest lock = _ ∨ _)
    refine ⟨.inl ?_, .inl ?_⟩ <;>
      rcases hr : request (unlockRequest lock) s with ⟨_ | _, u⟩ | u | k <;> rw [tick, hr] at h <;> cases h <;> first
        | exact (hx.1 _ _ hr).1
        | exact (hx.2 _ hr).1
        | exact (hx.1 _ _ hr).2
        | exact (hx.2 _ hr).2
  | working c lock failure body =>
    cases body with
    | nil => cases h; exact ⟨.inl rfl, .inl rfl⟩
    | cons r rs =>
      have hb := hp.2.2.2 r (by simp)
      cases lock with
      | flash =>
        refine ⟨.inr ⟨_, _, _, _, rfl⟩, .inl ?_⟩
        have ho : ((s.issue r).onOk r).prot = s.prot := by
          cases r <;> first
            | exact hb.elim
            | rfl
            | (simp only [State.onOk]; split <;> rfl)
        have hf : ((s.issue r).onFail r).prot = s.prot := by
          cases r <;> first
            | exact hb.elim
            | rfl
        have hx := request_after (P := fun u => u.prot = s.prot) ho hf fun _ _ h => h
        rcases hr : request r s with ⟨_ | _, u⟩ | u | k <;> rw [tick, hr] at h <;> cases h <;> first
          | exact hx.1 _ _ hr
          | exact hx.2 _ hr
      | option =>
        refine ⟨.inl ?_, .inr ⟨_, _, _, _, rfl⟩⟩
        have ho : ((s.issue r).onOk r).flash = s.flash := by
          cases r <;> first
            | exact hb.elim
            | rfl
        have hf : ((s.issue r).onFail r).flash = s.flash := by
          cases r <;> first
            | exact hb.elim
            | rfl
        have hx := request_after (P := fun u => u.flash = s.flash) ho hf fun _ _ h => h
        rcases hr : request r s with ⟨_ | _, u⟩ | u | k <;> rw [tick, hr] at h <;> cases h <;> first
          | exact hx.1 _ _ hr
          | exact hx.2 _ hr
  | relocking c lock o =>
    have hx := lockRequest (.inr rfl : _ ∨ relockRequest lock = _)
    refine ⟨.inl ?_, .inl ?_⟩ <;>
      rcases hr : request (relockRequest lock) s with ⟨_ | _, u⟩ | u | k <;> rw [tick, hr] at h <;> cases h <;> first
        | exact (hx.1 _ _ hr).1
        | exact (hx.2 _ hr).1
        | exact (hx.1 _ _ hr).2
        | exact (hx.2 _ hr).2
  | reading c a n got =>
    cases n with
    | zero => cases h; exact ⟨.inl rfl, .inl rfl⟩
    | succ n =>
      rcases hm : memRead a s with k | ⟨b, u⟩ <;> rw [tick, hm] at h <;> cases h
      rcases memRead_same hm with ⟨rfl, -⟩ | ⟨rfl, -⟩ <;> exact ⟨.inl rfl, .inl rfl⟩
  | responding c o => cases h; exact ⟨.inl (respond_flash _ _ _), .inl (respond_prot _ _ _)⟩
  | rejecting e => cases h; exact ⟨.inl rfl, .inl rfl⟩

/-- A step from a point receives nothing, issues one request at most and then sends nothing, and sends nothing unless it
ends the command (spec/00_scope.md R6). -/
theorem tick_sends {p : Point} {s t : State} {q : Option Point} (hn : s.noResetDuringRequest) (h : tick p s = .next (q, t)) :
    (t.phase = .dispatch → t.tx = s.tx ∨ s.phase ≠ .dispatch) ∧ t.rx = s.rx ∧
      (t.requests = s.requests ∨ ∃ r, t.requests = s.requests ++ [r] ∧ t.tx = s.tx) ∧ (q ≠ none → t.tx = s.tx) := by
  have ans : ∀ {r : PortRequest} {ok : Bool} {u : State}, request r s = .answered ok u →
      u.rx = s.rx ∧ (u.requests = s.requests ++ [r] ∧ u.tx = s.tx) := by
    intro r ok u hr
    obtain ⟨-, ⟨-, -, rfl⟩ | ⟨-, -, rfl⟩⟩ := request_answered_inv hr
    · exact ⟨by simp, by simp, by simp⟩
    · exact ⟨by simp, by simp, by simp⟩
  rcases tick_cases p s with ⟨r, k, -, ht⟩ | ⟨r, u, hr, ht⟩ | ⟨r, ok, u, q', hr, ht, hl, hc⟩ | ⟨c, a, n, got, k, -, -, ht⟩ |
    ⟨c, a, n, got, b, u, -, hm, ht, hl, hc⟩ | ⟨q', ht, hl, hc⟩ | ⟨c, o, -, ht⟩ | ⟨e, -, ht⟩ <;> rw [ht] at h <;> cases h
  · obtain ⟨-, e, he, -⟩ := request_reset_inv hr
    exact absurd (by simpa using he) (hn 0 e)
  · obtain ⟨h1, h2, h3⟩ := ans hr
    exact ⟨fun _ => .inl h3, h1, .inr ⟨_, h2, h3⟩, fun _ => h3⟩
  · rcases memRead_same hm with ⟨rfl, -⟩ | ⟨rfl, -⟩ <;> exact ⟨fun _ => .inl rfl, rfl, .inl rfl, fun _ => rfl⟩
  · exact ⟨fun _ => .inl rfl, rfl, .inl rfl, fun _ => rfl⟩
  · exact ⟨fun h => (by cases o <;> cases h), (respond_outside _ _ _).2.2.2.2.1, .inl (by cases o <;> rfl), fun h => absurd rfl h⟩
  · exact ⟨fun h => (by cases h), rfl, .inl rfl, fun h => absurd rfl h⟩

/-- The commands whose lock is the flash lock. -/
theorem lockOf_flash {c : Byte} (h : lockOf c = some .flash) : c = 0x56 ∨ c = 0x57 := by
  unfold lockOf at h
  split_ifs at h with h1 h2
  · exact h1
  · cases h

/-- The commands whose lock is the option lock. -/
theorem lockOf_option {c : Byte} (h : lockOf c = some .option) : c = 0x58 ∨ c = 0x5C := by
  unfold lockOf at h
  split_ifs at h with h1 h2
  · cases h
  · exact h2

end Sys2Proof.Machine
end

