-- ==== Sys2Proof/Laws/Under.lean ====
section
/-! SUPPORT. The requests of a command under its lock: all answered, one of them failed, one of them never answered
(spec/42_flash.md R117). -/

namespace Sys2Proof.Machine

/-- The command whose checks pass runs its requests under its lock (R116, R117). -/
theorem operation_inv {i : Instr} {s : State} {lock : Lock} {body : List PortRequest} (h : operation i s lock body) :
    ∃ failure, AllowedBody i lock body ∧ exec i s = runGated i.code lock failure (.ok body) s ∧
      errorKind failure = .operationFailure := by
  have main : ∀ failure, commandPoint i s = .unlocking i.code lock failure body → ∃ failure, AllowedBody i lock body ∧
      exec i s = runGated i.code lock failure (.ok body) s ∧ errorKind failure = .operationFailure := by
    intro failure hp
    rcases commandPoint_shape i s with ⟨o, h', -⟩ | ⟨p, addr, n, -, -, h'⟩ | ⟨l, f, b, hb, hk, h'⟩
    · rw [hp] at h'; cases h'
    · rw [hp] at h'; cases n <;> cases h'
    · rw [hp] at h'
      cases h'
      refine ⟨_, hb, ?_, hk⟩
      rw [exec_eq, hp]; rfl
  cases i with
  | eraseFlash p =>
    obtain ⟨rfl, sector, count, hp, hg⟩ := h
    exact main _ (by simp only [commandPoint, eraseFlashPoint, hp, hg]; rfl)
  | writeMemory p =>
    obtain ⟨rfl, addr, data, hp, hg⟩ := h
    exact main _ (by simp only [commandPoint, writeMemoryPoint, hp, hg]; rfl)
  | enableRwProtect p =>
    obtain ⟨rfl, mask, code, mode, hp, hm, hg⟩ := h
    exact main _ (by simp only [commandPoint, enableRwProtectPoint, hp, hm, hg]; rfl)
  | disableRwProtect p =>
    obtain ⟨rfl, rfl, rfl⟩ := h
    exact main _ rfl
  | _ => exact h.elim

/-- The answers left after the unlock. -/
theorem answersOk_unlocked {s : State} {lock : Lock} {n m : Nat} (h : s.answersOk n) (hm : m + 1 ≤ n) :
    (State.setLock (s.requested [unlockRequest lock]) lock false).answersOk m := by
  intro k hk
  have := h (k + 1) (by omega)
  simpa [PortScript.answer_after, Nat.add_comm] using this

/-- A request under its lock leaves that lock. -/
theorem PortRequest.under_locked {lock : Lock} {r : PortRequest} {u : State} (h : r.under lock) :
    ((u.issue r).onOk r).locked lock = u.locked lock ∧ ((u.issue r).onFail r).locked lock = u.locked lock := by
  have := PortRequest.under_locks (u := u) h
  cases lock
  · exact ⟨this.1.1, this.2.1⟩
  · exact ⟨this.1.2, this.2.2⟩

/-- The body's requests, all answered `ok`. -/
theorem requestAll_under_ok {lock : Lock} {body : List PortRequest} {s : State} (hl : s.locked lock = false)
    (hb : ∀ r ∈ body, r.under lock) (hok : s.answersOk body.length) :
    ∃ u, requestAll body s = .answered true u ∧ u.locked lock = false ∧ u.requests = s.requests ++ body ∧
      u.port = s.port.after body.length ∧ u.tx = s.tx := by
  induction body generalizing s with
  | nil => exact ⟨s, rfl, hl, by simp, rfl, rfl⟩
  | cons r rs ih =>
    have hr := hb r (by simp)
    have h0 : s.port.head = .ok := by have := hok 0 (by simp); simpa using this
    have hf := PortRequest.under_locked (u := s) hr
    obtain ⟨u, h1, h2, h3, h4, h5⟩ := ih (s := (s.issue r).onOk r) (hf.1.trans hl) (fun q hq => hb q (List.mem_cons_of_mem _ hq))
      (State.answersOk_onOk hok r)
    refine ⟨u, by rw [requestAll, request_ok (PortRequest.under_ready hr hl) h0]; exact h1, h2, by simp [h3], ?_, by simp [h5]⟩
    rw [h4]; simp [PortScript.tail_eq_after, PortScript.after_after, Nat.add_comm]

/-- The body up to its request `j`. -/
theorem requestAll_under_split {lock : Lock} {body : List PortRequest} {j : Nat} {s : State} (hl : s.locked lock = false)
    (hb : ∀ r ∈ body, r.under lock) (hj : j < body.length) (hok : s.answersOk j) :
    ∃ u r rs, body = body.take j ++ r :: rs ∧ body[j]? = some r ∧ r.under lock ∧ requestAll (body.take j) s = .answered true u ∧
      u.locked lock = false ∧ u.requests = s.requests ++ body.take j ∧ u.port = s.port.after j ∧ u.tx = s.tx := by
  have hlen : (body.take j).length = j := by rw [List.length_take]; omega
  obtain ⟨u, h1, h2, h3, h4, h5⟩ := requestAll_under_ok (body := body.take j) hl (fun r hr => hb r (List.mem_of_mem_take hr)) (by rw [hlen]; exact hok)
  refine ⟨u, body[j], body.drop (j + 1), ?_, by simp [hj], hb _ (List.getElem_mem hj), h1, h2, h3, by rw [h4, hlen], h5⟩
  rw [← List.drop_eq_getElem_cons hj, List.take_append_drop]

/-- The body's requests, number `j` answered `fail`. -/
theorem requestAll_under_fail {lock : Lock} {body : List PortRequest} {j : Nat} {s : State} (hl : s.locked lock = false)
    (hb : ∀ r ∈ body, r.under lock) (hj : j < body.length) (hok : s.answersOk j) (hf : s.port.answer j = .fail) :
    ∃ u, requestAll body s = .answered false u ∧ u.locked lock = false ∧ u.requests = s.requests ++ body.take (j + 1) ∧
      u.port = s.port.after (j + 1) ∧ u.tx = s.tx := by
  obtain ⟨u, r, rs, hs, hr, hrb, h1, h2, h3, h4, h5⟩ := requestAll_under_split hl hb hj hok
  have := requestAll_failAt (bs := rs) h1 (PortRequest.under_ready hrb h2) (by rw [h4]; simpa [PortScript.answer_after] using hf)
  rw [← hs] at this
  have hf' := PortRequest.under_locked (u := u) hrb
  rw [issue_eq] at hf'
  refine ⟨_, this, hf'.2.trans h2, ?_, ?_, ?_⟩
  · rw [List.take_add_one, hr]; simp [State.requested, h3]
  · simp [h4, PortScript.after_after]
  · simp [State.requested, h5]

/-- The body's requests, number `j` never answered (spec/60_exceptions.md R186). -/
theorem requestAll_under_never {lock : Lock} {body : List PortRequest} {j : Nat} {s : State} {r : PortRequest} (hl : s.locked lock = false)
    (hb : ∀ r ∈ body, r.under lock) (hr : body[j]? = some r) (hok : s.answersOk j) (hf : s.port.answer j = .never) :
    requestAll body s = .stopped (.portNeverAnswers r) := by
  obtain ⟨u, r', rs, hs, hr', hrb, h1, h2, h3, h4, h5⟩ := requestAll_under_split hl hb (List.getElem?_eq_some_iff.1 hr).1 hok
  rw [hr] at hr'
  cases hr'
  rw [hs, requestAll_append, h1]
  dsimp only
  have : u.port.head = .never := by
    have h : u.port.answer 0 = .never := by rw [h4]; simpa [PortScript.answer_after] using hf
    simpa using h
  rw [requestAll, request_never (PortRequest.under_ready hrb h2) this]

/-- An unlock answered `ok`. -/
theorem request_unlock_ok {lock : Lock} {s : State} (hl : s.locked lock = true) (h0 : s.port.answer 0 = .ok) :
    request (unlockRequest lock) s = .answered true (State.setLock (s.requested [unlockRequest lock]) lock false) := by
  rw [request_ok (by rw [portReady_unlock, hl]) (by simpa using h0), issue_eq]
  cases lock <;> rfl

/-- A relock never answered. -/
theorem request_relock_never {lock : Lock} {s : State} (h : s.port.answer 0 = .never) :
    request (relockRequest lock) s = .stopped (.portNeverAnswers (relockRequest lock)) :=
  request_never (portReady_relock _ _) (by simpa using h)

end Sys2Proof.Machine
end

