-- ==== Sys2Proof/Tests/Slice0.lean ====
section
/-! SUPPORT. The model's own tests. Expected values come from the vectors of spec/95_test_vectors.md, named by their ids,
or from the rule named. Then one witness for each hypothesis of the statements. -/

namespace Sys2Proof.Tests

open Sys2Proof Sys2Proof.Machine

-- One test after the other, so that the kernel evaluations do not hold a thread each.
set_option Elab.async false

/-! ### Well-formedness: each check refuses an ill-formed term -/

/-- 198 payload bytes do not fit PAYLOAD_CAP (R68); 197 do (F5). -/
theorem test_wf_payload_too_long : ¬ (Instr.getVersion (List.replicate 198 0)).WellFormed := by decide +kernel

theorem test_wf_payload_longest : (Instr.getVersion (List.replicate 197 0)).WellFormed := by decide +kernel

/-- Payload layouts (R87): one byte too many or too few, a count of 0, a count that is not the number of data bytes. -/
theorem test_layout_refuses :
    (Instr.getVersion [0]).hasLayout = false ∧ (Instr.getHelp [0]).hasLayout = false ∧
    (Instr.getChipId [0]).hasLayout = false ∧ (Instr.getProtectionStatus [0]).hasLayout = false ∧
    (Instr.jumpToAddress [0, 0, 2]).hasLayout = false ∧ (Instr.eraseFlash [5]).hasLayout = false ∧
    (Instr.writeMemory [0, 0, 2, 8, 0]).hasLayout = false ∧
    (Instr.writeMemory [0, 0, 2, 8, 5, 0xDE, 0xAD, 0xBE, 0xEF]).hasLayout = false ∧
    (Instr.enableRwProtect [0x20]).hasLayout = false ∧ (Instr.readMemory [0, 0, 2, 8]).hasLayout = false ∧
    (Instr.readMemory [0, 0, 2, 8, 0]).hasLayout = false ∧ (Instr.readSectorProtectionStatus [0]).hasLayout = false ∧
    (Instr.readOtp [0]).hasLayout = false ∧ (Instr.disableRwProtect [0]).hasLayout = false := by decide

theorem test_layout_accepts :
    (Instr.writeMemory [0, 0, 2, 8, 4, 0xDE, 0xAD, 0xBE, 0xEF]).hasLayout = true ∧
    (Instr.readMemory [0, 0, 2, 8, 4]).hasLayout = true ∧ (Instr.jumpToAddress [0, 0, 2, 8]).hasLayout = true := by decide

/-- Region tables (R43): an inverted range, one past 32 bits, two ranges that share an address. -/
theorem test_region_table_refuses :
    { Config.regionTable with backupRam := ⟨0x40024FFF, 0x40024000⟩ }.wf = false ∧
    { Config.regionTable with backupRam := ⟨0xFFFFFFFF, 0x100000000⟩ }.wf = false ∧
    { Config.regionTable with primaryRam := ⟨0x20000000, 0x2001C000⟩ }.wf = false := by decide

/-- Sector tables (R46): a gap, a wrong number, an empty sector, an end that is not the region's, a wrong count. -/
theorem test_sector_table_refuses :
    sectorTableWf ⟨0, 9⟩ 2 [⟨0, 0, 4⟩, ⟨1, 5, 5⟩] = false ∧ sectorTableWf ⟨0, 9⟩ 2 [⟨1, 0, 5⟩, ⟨2, 5, 5⟩] = false ∧
    sectorTableWf ⟨0, 9⟩ 3 [⟨0, 0, 5⟩, ⟨1, 5, 0⟩, ⟨2, 5, 5⟩] = false ∧
    sectorTableWf ⟨0, 9⟩ 2 [⟨0, 0, 5⟩, ⟨1, 5, 4⟩] = false ∧ sectorTableWf ⟨0, 9⟩ 1 [⟨0, 0, 5⟩, ⟨1, 5, 5⟩] = false ∧
    sectorTableWf ⟨0, 9⟩ 2 [⟨0, 0, 5⟩, ⟨1, 5, 5⟩] = true := by decide

/-- Parse records (R105) and protection statuses (R21): each invariant broken once. -/
theorem test_records_refuse :
    Packet.wf ⟨0x51, [], 1, 0, true⟩ = false ∧ Packet.wf ⟨0x51, List.replicate 198 0, 198, 0, true⟩ = false ∧
    ProtectionStatus.wf ⟨0x20, .none⟩ = false ∧ ProtectionStatus.wf ⟨0, .write⟩ = false ∧
    ProtectionStatus.wf ⟨0x20, .write⟩ = true := by decide

/-! ### Decoding: one word of every command, byte by byte from spec/95_test_vectors.md -/

/-- Q1. -/
theorem test_decode_getVersion : decode [0x05, 0x51, 0xCB, 0x6B, 0x52, 0xBB] = .instr (.getVersion []) [] := by
  decide +kernel

/-- Q2. -/
theorem test_decode_getHelp : decode [0x05, 0x52, 0x12, 0x4D, 0x11, 0xB6] = .instr (.getHelp []) [] := by
  decide +kernel

/-- Q3. -/
theorem test_decode_getChipId : decode [0x05, 0x53, 0xA5, 0x50, 0xD0, 0xB2] = .instr (.getChipId []) [] := by
  decide +kernel

/-- Q4. -/
theorem test_decode_getProtectionStatus :
    decode [0x05, 0x54, 0xA0, 0x00, 0x97, 0xAC] = .instr (.getProtectionStatus []) [] := by decide +kernel

/-- J1. -/
theorem test_decode_jumpToAddress :
    decode [0x09, 0x55, 0x00, 0x00, 0x02, 0x08, 0xC8, 0xB6, 0x50, 0x28] =
      .instr (.jumpToAddress [0x00, 0x00, 0x02, 0x08]) [] := by decide +kernel

/-- E1. -/
theorem test_decode_eraseFlash :
    decode [0x07, 0x56, 0x05, 0x01, 0x0B, 0x1F, 0x74, 0x38] = .instr (.eraseFlash [0x05, 0x01]) [] := by
  decide +kernel

/-- W1. -/
theorem test_decode_writeMemory :
    decode [0x0E, 0x57, 0x00, 0x00, 0x02, 0x08, 0x04, 0xDE, 0xAD, 0xBE, 0xEF, 0xC1, 0xC7, 0xBB, 0x8C] =
      .instr (.writeMemory [0x00, 0x00, 0x02, 0x08, 0x04, 0xDE, 0xAD, 0xBE, 0xEF]) [] := by decide +kernel

/-- P-2. -/
theorem test_decode_enableRwProtect :
    decode [0x07, 0x58, 0x20, 0x02, 0x7C, 0x19, 0x68, 0xF4] = .instr (.enableRwProtect [0x20, 0x02]) [] := by
  decide +kernel

/-- M8. -/
theorem test_decode_readMemory :
    decode [0x0A, 0x59, 0xFC, 0x4F, 0x02, 0x40, 0x04, 0x7F, 0x8B, 0x6D, 0x7D] =
      .instr (.readMemory [0xFC, 0x4F, 0x02, 0x40, 0x04]) [] := by decide +kernel

/-- Q5. -/
theorem test_decode_readSectorProtectionStatus :
    decode [0x05, 0x5A, 0xAA, 0xA0, 0x19, 0x90] = .instr (.readSectorProtectionStatus []) [] := by decide +kernel

/-- Q8. -/
theorem test_decode_readOtp : decode [0x05, 0x5B, 0x1D, 0xBD, 0xD8, 0x94] = .instr (.readOtp []) [] := by
  decide +kernel

/-- Q10. -/
theorem test_decode_disableRwProtect :
    decode [0x05, 0x5C, 0x18, 0xED, 0x9F, 0x8A] = .instr (.disableRwProtect []) [] := by decide +kernel

/-- F2, F3, F4, F7 to F10, F12, V-S1-literal: refused frames, and a frame that is not complete. -/
theorem test_decode_refuses :
    decode [0x05, 0x51, 0xCA, 0x6B, 0x52, 0xBB] = .rejected .badChecksum [] ∧
    decode [0x00] = .rejected .shortFrame [] ∧ decode [0x04, 0x51, 0xCB, 0x6B, 0x52] = .rejected .shortFrame [] ∧
    decode [0x05, 0x50, 0x7C, 0x76, 0x93, 0xBF] = .rejected .unknownCommand [] ∧
    decode [0x05, 0x5D, 0xAF, 0xF0, 0x5E, 0x8E] = .rejected .unknownCommand [] ∧
    decode [0x05, 0x00, 0x7B, 0xDD, 0x04, 0xC7] = .rejected .unknownCommand [] ∧
    decode [0x05, 0xFF, 0xCF, 0x9D, 0xF3, 0x76] = .rejected .unknownCommand [] ∧
    decode [0x05, 0x51, 0xCB, 0x6B, 0x52] = .incomplete ∧
    decode [0x01, 0x51, 0xCB, 0x6B, 0x52, 0xBB] = .rejected .shortFrame [0xCB, 0x6B, 0x52, 0xBB] := by decide +kernel

/-- F6: length 203 takes 203 bytes and is oversize; F5's length 202 is legal (R69, R102). -/
theorem test_decode_oversize :
    decode (0xCB :: List.replicate 203 0x51 ++ [0x05]) = .rejected .oversizeFrame [0x05] ∧
    lengthError 202 = none ∧ lengthError 203 = some .oversizeFrame ∧ lengthError 5 = none ∧
    lengthError 4 = some .shortFrame := by decide +kernel

/-- The opcode table's words: the code in bits 7 to 0, operand bytes of zeros (R165, R166). -/
theorem test_table_words :
    decodeTableWord 8 0x51 = some (.getVersion []) ∧ decodeTableWord 8 0x56 = some (.eraseFlash [0, 0]) ∧
    decodeTableWord 24 0x010556 = some (.eraseFlash [5, 1]) ∧
    decodeTableWord 8 0x57 = some (.writeMemory [0, 0, 0, 0, 0]) ∧ decodeTableWord 8 0x5D = none := by decide +kernel

/-! ### Integrity Engine -/

/-- C1 to C8. -/
theorem test_crc_vectors :
    crc32 [] = 0xFFFFFFFF ∧ crc32 [0x00] = 0xC704DD7B ∧ crc32 [0x01] = 0xC3C5C0CC ∧ crc32 [0x51] = 0xBB526BCB ∧
    crc32 [0xFF] = 0x76F39DCF ∧ crc32 [0x80] = 0xAE083D95 ∧ crc32 [0x51, 0x00] = 0xA511D186 ∧
    crc32 [0x00, 0x51] = 0x15520DE9 := by decide +kernel

/-- C9, C10, C11. -/
theorem test_crc_longer :
    crc32 [0x31, 0x32, 0x33, 0x34, 0x35, 0x36, 0x37, 0x38, 0x39] = 0x1556F485 ∧
    verify 0x8CBBC7C1 [0x57, 0x00, 0x00, 0x02, 0x08, 0x04, 0xDE, 0xAD, 0xBE, 0xEF] = true ∧
    verify 0x8CBBC7C1 [0x57, 0x00, 0x00, 0x02, 0x08, 0x04, 0xDF, 0xAD, 0xBE, 0xEF] = false ∧
    crc32 [0x57, 0x00, 0x00, 0x02, 0x08, 0x04, 0xDF, 0xAD, 0xBE, 0xEF] = 0x641F91C4 := by decide +kernel

/-! ### Address Classifier and sectors -/

/-- A1 to A16. -/
theorem test_classify :
    [0x00000000, 0x07FFFFFF, 0x08080000, 0x10000000, 0x1FFFFFFF, 0x20020000, 0x40025000, 0xFFFFFFFF].map classify =
      List.replicate 8 .unknown ∧
    classify 0x08000000 = .nonVolatile ∧ classify 0x0807FFFF = .nonVolatile ∧ classify 0x20000000 = .primaryRam ∧
    classify 0x2001BFFF = .primaryRam ∧ classify 0x2001C000 = .secondaryRam ∧ classify 0x2001FFFF = .secondaryRam ∧
    classify 0x40024000 = .backupRam ∧ classify 0x40024FFF = .backupRam := by decide

/-- A17 to A21. -/
theorem test_classifyRange :
    classifyRange 0x0807FFFE 2 = .nonVolatile ∧ classifyRange 0x0807FFFE 3 = .unknown ∧
    classifyRange 0x2001BFFE 4 = .unknown ∧ classifyRange 0x0801FFFE 4 = .nonVolatile ∧
    classifyRange 0xFFFFFFFE 4 = .unknown := by decide

/-- The `sector_of` row of section 3. -/
theorem test_sectorOf :
    [0x08000000, 0x08003FFF, 0x08004000, 0x0800FFFF, 0x08010000, 0x0801FFFF, 0x08020000, 0x0807FFFF].map sectorOf =
      [some 0, some 0, some 1, some 3, some 4, some 4, some 5, some 7] := by decide

/-! ### Commands -/

/-- What an outcome has sent. -/
def sent : Host.Outcome State Fault Refusal → Option (List Byte)
  | .next s => some s.tx
  | .fault _ => none
  | .refused _ => none

/-- The requests of an outcome. -/
def issued : Host.Outcome State Fault Refusal → Option (List PortRequest)
  | .next s => some s.requests
  | .fault _ => none
  | .refused _ => none

/-- The phase of an outcome. -/
def phaseOf : Host.Outcome State Fault Refusal → Option Phase
  | .next s => some s.phase
  | .fault _ => none
  | .refused _ => none

/-- The protection status of an outcome. -/
def protOf : Host.Outcome State Fault Refusal → Option ProtectionStatus
  | .next s => some s.prot
  | .fault _ => none
  | .refused _ => none

/-- The point at which an outcome stands. -/
def pointOf : Host.Outcome State Fault Refusal → Option Point
  | .next s => s.point
  | .fault _ => none
  | .refused _ => none

/-- The flash array of an outcome. -/
def flashOf : Host.Outcome State Fault Refusal → Option Memory
  | .next s => some s.flash
  | .fault _ => none
  | .refused _ => none

/-- The start state of the vectors. -/
def start : State := State.reset

/-- The start state with a protection status. -/
def guarded (mask : Byte) (mode : ProtMode) : State := { start with prot := ⟨mask, mode⟩ }

/-- The start state with the port's next answers. -/
def answering (l : List PortAnswer) : State := { start with port := ⟨l, .ok⟩ }

/-- Q1. -/
theorem test_getVersion : sent (exec (.getVersion []) start) = some [0xA5, 0x51, Config.blVersion] := rfl

/-- F11. -/
theorem test_getVersion_payload : sent (exec (.getVersion [0]) start) = some [0x7F] := rfl

/-- Q2. -/
theorem test_getHelp :
    sent (exec (.getHelp []) start) =
      some [0xA5, 0x52, 0x51, 0x52, 0x53, 0x54, 0x55, 0x56, 0x57, 0x58, 0x59, 0x5A, 0x5B, 0x5C] := rfl

/-- Q3's two body bytes. -/
theorem test_getChipId_order : bytesLe16 0x0421 = [0x21, 0x04] := by decide

/-- R162. -/
theorem test_getChipId : sent (exec (.getChipId []) start) = some ([0xA5, 0x53] ++ bytesLe16 Config.chipId) := rfl

/-- Q4. -/
theorem test_getProtectionStatus :
    sent (exec (.getProtectionStatus []) start) = some [0xA5, 0x54, Config.rdpByte] := rfl

/-- J3: the last flash byte, with no alignment check. -/
theorem test_jump_last_flash_byte :
    sent (exec (.jumpToAddress [0xFF, 0xFF, 0x07, 0x08]) start) = some [0xA5, 0x55] ∧
    phaseOf (exec (.jumpToAddress [0xFF, 0xFF, 0x07, 0x08]) start) = some (.jumped 0x0807FFFF) := by decide

/-- J15. -/
theorem test_jump_unknown :
    sent (exec (.jumpToAddress [0xFF, 0xFF, 0xFF, 0x1F]) start) = some [0x7F] ∧
    phaseOf (exec (.jumpToAddress [0xFF, 0xFF, 0xFF, 0x1F]) start) = some .awaitingLength := by decide

/-- E6: clamped to the last sector, ascending. -/
theorem test_erase_clamped :
    sent (exec (.eraseFlash [6, 8]) start) = some [0xA5, 0x56] ∧
    issued (exec (.eraseFlash [6, 8]) start) =
      some [.flashUnlock, .eraseSector 6, .eraseSector 7, .flashRelock] := by decide

/-- E15: a protected sector in the range, and no sector is erased. -/
theorem test_erase_protected :
    sent (exec (.eraseFlash [4, 2]) (guarded 0x20 .write)) = some [0x7F] ∧
    issued (exec (.eraseFlash [4, 2]) (guarded 0x20 .write)) = some [] := by decide

/-- W4: the last two flash bytes. -/
theorem test_write_top_of_flash :
    sent (exec (.writeMemory [0xFE, 0xFF, 0x07, 0x08, 2, 0xAA, 0xBB]) start) = some [0xA5, 0x57] ∧
    flashOf (exec (.writeMemory [0xFE, 0xFF, 0x07, 0x08, 2, 0xAA, 0xBB]) start) =
      some [(0x0807FFFE, 0xAA), (0x0807FFFF, 0xBB)] := by decide

/-- W5: one byte past the end of flash, and no byte is written. -/
theorem test_write_past_flash :
    sent (exec (.writeMemory [0xFE, 0xFF, 0x07, 0x08, 3, 0xAA, 0xBB, 0xCC]) start) = some [0x7F] ∧
    issued (exec (.writeMemory [0xFE, 0xFF, 0x07, 0x08, 3, 0xAA, 0xBB, 0xCC]) start) = some [] := by decide

/-- P-7: the mask is merged and the whole of it takes the new mode. -/
theorem test_enable_merges :
    protOf (exec (.enableRwProtect [0x40, 2]) (guarded 0x20 .write)) = some ⟨0x60, .readWrite⟩ := by decide

/-- P-3. -/
theorem test_enable_bad_mode :
    sent (exec (.enableRwProtect [0x20, 3]) start) = some [0x7F] ∧
    issued (exec (.enableRwProtect [0x20, 3]) start) = some [] := by decide

/-- M1 and M3: the bytes of flash, and a read-protected sector. -/
theorem test_read_flash :
    sent (exec (.readMemory [0x00, 0x00, 0x02, 0x08, 2])
      { start with flash := [(0x08020000, 0xDE), (0x08020001, 0xAD)] }) = some [0xA5, 0x59, 0xDE, 0xAD] ∧
    sent (exec (.readMemory [0x00, 0x00, 0x02, 0x08, 4]) (guarded 0x20 .readWrite)) = some [0x7F] := by decide

/-- M7: drawn bytes. -/
theorem test_read_ram :
    sent (exec (.readMemory [0x00, 0x00, 0x00, 0x20, 2]) start) =
      some [0xA5, 0x59, Config.drawByte 0, Config.drawByte 1] := rfl

/-- Q7. -/
theorem test_readSectorProtectionStatus :
    sent (exec (.readSectorProtectionStatus []) (guarded 0x60 .readWrite)) = some [0xA5, 0x5A, 0x60, 0x02] := by decide

/-- Q8. -/
theorem test_readOtp : sent (exec (.readOtp []) start) = some ([0xA5, 0x5B] ++ Config.otpBytes) := rfl

/-- Q10. -/
theorem test_disable :
    issued (exec (.disableRwProtect []) (guarded 0x20 .write)) = some [.optUnlock, .optApply 0 .none, .optRelock] ∧
    protOf (exec (.disableRwProtect []) (guarded 0x20 .write)) = some ⟨0, .none⟩ := by decide

/-- Q11. -/
theorem test_disable_payload : issued (exec (.disableRwProtect [0]) start) = some [] := by decide

/-! ### Steps -/

/-- Q5's frame received and dispatched. -/
theorem test_step_dispatch :
    sent (step (start.withFrame [0x05, 0x5A, 0xAA, 0xA0, 0x19, 0x90])) = some [0xA5, 0x5A, 0x00, 0x00] := by
  decide +kernel

/-- F2's frame received and dispatched. -/
theorem test_step_bad_checksum :
    sent (step (start.withFrame [0x05, 0x51, 0xCA, 0x6B, 0x52, 0xBB])) = some [0x7F] := by decide +kernel

/-- F3: length 0 goes straight to Dispatch (R147). -/
theorem test_step_length_zero :
    phaseOf (step { start with phase := .awaitingFrame, len := 0 }) = some .dispatch := by decide

/-- E22's last request: a relock that fails halts the block and sends nothing. -/
theorem test_relock_fails :
    sent (exec (.enableRwProtect [0x20, 1]) (answering [.ok, .ok, .fail])) = some [] ∧
    phaseOf (exec (.enableRwProtect [0x20, 1]) (answering [.ok, .ok, .fail])) = some (.halted .relockFailed) ∧
    protOf (exec (.enableRwProtect [0x20, 1]) (answering [.ok, .ok, .fail])) = some ⟨0x20, .write⟩ := by decide

/-- The table's first row is fetched and run from `withFetchWord`. -/
theorem test_withFetchWord :
    sent (step (State.reset.withFetchWord 8 0x52)) =
      some [0xA5, 0x52, 0x51, 0x52, 0x53, 0x54, 0x55, 0x56, 0x57, 0x58, 0x59, 0x5A, 0x5B, 0x5C] := by decide +kernel

/-- From reset with nothing sent the block waits (R25, notes/assumptions/15.md). -/
theorem test_reset_waits : step State.reset = .fault .noReceiveByte := rfl

/-! ### Witnesses: states and operands that meet the hypotheses of each statement, at the bounds of its clauses -/

/-- GET_VERSION's frame (Q1). -/
def versionFrame : List Byte := [0x05, 0x51, 0xCB, 0x6B, 0x52, 0xBB]

/-- A state with a whole frame received. -/
def received (frame : List Byte) : State := start.withFrame frame

/-- A state that awaits a length byte with these bytes at the receive port. -/
def offered (bs : List Byte) : State := { start with rx := bs }

/-- E1's frame, ERASE_FLASH of sector 5. -/
def eraseFrame : List Byte := [0x07, 0x56, 0x05, 0x01, 0x0B, 0x1F, 0x74, 0x38]

/-- P-1's frame, ENABLE_RW_PROTECT of sector 5. -/
def protectFrame : List Byte := [0x07, 0x58, 0x20, 0x01, 0xA5, 0x3F, 0x2B, 0xF9]

/-- J1's frame, JUMP_TO_ADDRESS of 0x08020000. -/
def jumpFrame : List Byte := [0x09, 0x55, 0x00, 0x00, 0x02, 0x08, 0xC8, 0xB6, 0x50, 0x28]

/-- E1 with the flash lock open and the erase request next; sector 5 holds one byte. -/
def erasing : State :=
  { received eraseFrame with
    pkt := some (packetOf eraseFrame.tail), flashLocked := false, flash := [(0x08020000, 0)],
    point := some (.working 0x56 .flash .eraseFailed [.eraseSector 5]) }

/-- P-1 with the option lock open and the apply request next. -/
def protecting : State :=
  { received protectFrame with
    pkt := some (packetOf protectFrame.tail), optLocked := false,
    point := some (.working 0x58 .option .applyFailed [.optApply 0x20 .write]) }

/-- A state that has received a frame meets the invariant. -/
theorem received_inv {l : Byte} {bs : List Byte} (h : bs.length = l.toNat) : (received (l :: bs)).Inv where
  flash := Memory.wf_nil
  prot := rfl
  locks := fun _ _ => ⟨rfl, rfl⟩
  point := fun p h => by cases h
  count := fun h => by cases h
  cells := fun h => by cases h
  frame := fun _ => by
    refine ⟨rfl, fun i b hi hb => ?_⟩
    have hb' : (bufferOf bs)[i]? = some b := hb
    have hi' : i < bs.length := h ▸ hi
    rw [bufferOf, Vector.getElem?_eq_some_iff] at hb'
    obtain ⟨hlt, hb'⟩ := hb'
    rw [Vector.getElem_ofFn] at hb'
    rw [← hb', List.getElem?_eq_getElem hi']
    rfl
  packet := fun p h => by cases h
  consumed := fun _ _ _ => rfl

theorem erasing_inv : erasing.Inv where
  flash := by decide +kernel
  prot := rfl
  locks := fun _ h => by cases h
  point := fun p h => by
    cases h
    refine ⟨rfl, ⟨⟨rfl, rfl⟩, rfl, rfl, fun r hr => ?_⟩, _, rfl, rfl⟩
    rw [List.mem_singleton.1 hr]
    exact (by decide : 5 < Config.numSectors)
  count := fun h => by cases h
  cells := fun h => by cases h
  frame := (received_inv (l := 0x07) (bs := eraseFrame.tail) rfl).frame
  packet := fun p h => by cases h; decide +kernel
  consumed := fun _ _ h => by cases h

theorem protecting_inv : protecting.Inv where
  flash := Memory.wf_nil
  prot := rfl
  locks := fun _ h => by cases h
  point := fun p h => by
    cases h
    refine ⟨rfl, ⟨⟨rfl, rfl⟩, rfl, rfl, fun r hr => ?_⟩, _, rfl, rfl⟩
    rw [List.mem_singleton.1 hr]
    exact (by decide : (ProtectionStatus.mk 0x20 .write).wf = true)
  count := fun h => by cases h
  cells := fun h => by cases h
  frame := (received_inv (l := 0x07) (bs := protectFrame.tail) rfl).frame
  packet := fun p h => by cases h; decide +kernel
  consumed := fun _ _ h => by cases h

/-- The first step of E1: the unlock request alone, answered, and the block stands before the erase request (R33). -/
theorem test_step_unlocks :
    issued (step (received eraseFrame)) = some [.flashUnlock] ∧ sent (step (received eraseFrame)) = some [] ∧
    phaseOf (step (received eraseFrame)) = some .dispatch ∧
    pointOf (step (received eraseFrame)) = some (.working 0x56 .flash .eraseFailed [.eraseSector 5]) := by decide +kernel

/-- A reset between two requests of one command leaves flash exactly as it was and drops the command (R197). -/
theorem test_step_reset_between_requests :
    flashOf (step { erasing with resetIn := [some true] }) = some [(0x08020000, 0)] ∧
    phaseOf (step { erasing with resetIn := [some true] }) = some .awaitingLength ∧
    pointOf (step { erasing with resetIn := [some true] }) = none := by decide +kernel

/-- E23: an erase request that is never answered leaves the block where it stands (R186). -/
theorem test_step_never_answered :
    step { erasing with port := ⟨[.never], .ok⟩ } = .fault (.portNeverAnswers (.eraseSector 5)) := rfl

/-- A state between two frame bytes. -/
def midFrame (len : Byte) (count : Nat) (bs : List Byte) : State :=
  { start with phase := .awaitingFrame, len := len, rxcount := count, rx := bs }

/-- A longest and a shortest payload. -/
theorem witness_DecodeOfEncodeIsIdentity :
    (Instr.writeMemory (List.replicate 197 0xFF)).WellFormed ∧ (Instr.getVersion []).WellFormed := by decide +kernel

theorem witness_EncodeOfDecodeIsIdentity : decode (versionFrame ++ [0x05]) = .instr (.getVersion []) [0x05] := by
  decide +kernel

theorem witness_OpcodeByteIsDecodedWhole :
    instrOf 0x50 [] = none ∧ instrOf 0x5D [] = none ∧ instrOf 0x51 [] = some (.getVersion []) ∧
    instrOf 0x5C [] = some (.disableRwProtect []) ∧
    instrOfPacket (packetOf [0x51, 0xCB, 0x6B, 0x52, 0xBB]) = .ok (.getVersion []) := by decide +kernel

theorem witness_ParseSplitsTheFrame :
    ({ start with len := 4 } : State).len.toNat + 1 < 6 ∧ 197 < ({ start with len := 203 } : State).len.toNat - 5 ∧
    (List.replicate 197 (0 : Byte)).length ≤ 197 := by decide +kernel

theorem witness_CrcFollowsItsPseudocode :
    (0x80000000 : Word).getLsbD 31 = true ∧ (0x7FFFFFFF : Word).getLsbD 31 = false := by decide

theorem witness_CrcDetectsEverySingleByteChange : (0xDE : Byte) ≠ 0xDF := by decide

theorem witness_ClassifyFollowsTheRegionTable : (2 : Nat) ^ 32 ≤ 4294967296 := by decide

theorem witness_CheckedRegionTableNeverDoubleClassifies :
    Config.regionTable.wf = true ∧ (⟨⟨0, 0⟩, ⟨1, 1⟩, ⟨2, 2⟩, ⟨0xFFFFFFFF, 0xFFFFFFFF⟩⟩ : RegionTable).wf = true := by decide

theorem witness_SectorsTileNonVolatile :
    classify 0x0807FFFF = .nonVolatile ∧ sectorOf 0x08000000 = some 0 ∧ sectorFor 8 = none := by decide

theorem witness_RangeClassIsTheCommonClass :
    (∀ i, i < 2 → classify (0x0807FFFE + i) = .nonVolatile) ∧
    (∃ i j, i < 3 ∧ j < 3 ∧ classify (0x0807FFFE + i) ≠ classify (0x0807FFFE + j)) :=
  ⟨by decide, 0, 2, by decide⟩

theorem witness_StepRunsTheDecodedInstruction :
    (received versionFrame).resetDue = none ∧ (received versionFrame).phase = .dispatch ∧
    (received versionFrame).point = none ∧
    cellsOf (received versionFrame).rxbuf (received versionFrame).len.toNat = some [0x51, 0xCB, 0x6B, 0x52, 0xBB] ∧
    decode ((received versionFrame).len :: [0x51, 0xCB, 0x6B, 0x52, 0xBB]) = .instr (.getVersion []) [] ∧
    commandPoint (.getVersion []) (received versionFrame) = .responding 0x51 (.ok [Config.blVersion]) ∧
    (received eraseFrame).resetDue = none ∧ (received eraseFrame).phase = .dispatch ∧
    (received eraseFrame).point = none ∧
    cellsOf (received eraseFrame).rxbuf (received eraseFrame).len.toNat = some eraseFrame.tail ∧
    decode ((received eraseFrame).len :: eraseFrame.tail) = .instr (.eraseFlash [5, 1]) [] := by
  refine ⟨by decide +kernel, by decide +kernel, by decide +kernel, by decide +kernel, by decide +kernel, rfl, ?_⟩
  decide +kernel

theorem witness_LengthByteBeginsAFrame :
    (offered [0xFF]).resetDue = none ∧ (offered [0xFF]).phase = .awaitingLength ∧ (offered [0xFF]).rx = 0xFF :: [] ∧
    (offered []).rx = [] := by decide

/-- A first byte, the last cell of the buffer, the first byte past it, no byte, and a complete frame. -/
theorem witness_FrameByteIsStoredOrDiscarded :
    (midFrame 255 202 [1]).resetDue = none ∧ (midFrame 255 202 [1]).phase = .awaitingFrame ∧
    (midFrame 255 202 [1]).rxcount < (midFrame 255 202 [1]).len.toNat ∧ 202 ≤ (midFrame 255 202 [1]).rxcount ∧
    (midFrame 5 0 [1]).rxcount < (midFrame 5 0 [1]).len.toNat ∧
    (midFrame 203 201 [1]).rxcount < (midFrame 203 201 [1]).len.toNat ∧ (midFrame 203 201 [1]).rx = 1 :: [] ∧
    (midFrame 5 4 []).rxcount < (midFrame 5 4 []).len.toNat ∧ (midFrame 5 4 []).rx = [] ∧
    (midFrame 5 5 []).rxcount = (midFrame 5 5 []).len.toNat := by decide

theorem witness_WholeFrameIsReceived :
    (offered (0 :: ([] ++ [7]))).resetIn = [] ∧ (offered (0 :: ([] ++ [7]))).phase = .awaitingLength ∧
    (offered (0 :: ([] ++ [7]))).rx = 0 :: ([] ++ [7]) ∧ ([] : List Byte).length = (0 : Byte).toNat ∧
    (List.replicate 202 (0 : Byte)).length = (202 : Byte).toNat ∧ (List.replicate 202 (0 : Byte)).length ≤ 202 := by
  decide +kernel

theorem witness_SentInstructionIsRun :
    (offered (encode (.getVersion []) ++ [1])).resetIn = [] ∧
    (offered (encode (.getVersion []) ++ [1])).phase = .awaitingLength ∧
    (offered (encode (.getVersion []) ++ [1])).point = none ∧ (Instr.getVersion []).WellFormed ∧
    (offered (encode (.getVersion []) ++ [1])).rx = encode (.getVersion []) ++ [1] := by decide +kernel

/-- A short frame, an oversize frame, and F2's frame. -/
theorem witness_FramingErrorIsNacked :
    (received [0x04]).resetDue = none ∧ (received [0x04]).phase = .dispatch ∧ (received [0x04]).point = none ∧
    lengthError (received [0x04]).len.toNat = some .shortFrame ∧ lengthError (received [0xCB]).len.toNat = some .oversizeFrame ∧
    lengthError (received [0x05, 0x51, 0xCA, 0x6B, 0x52, 0xBB]).len.toNat = none ∧
    cellsOf (received [0x05, 0x51, 0xCA, 0x6B, 0x52, 0xBB]).rxbuf
      (received [0x05, 0x51, 0xCA, 0x6B, 0x52, 0xBB]).len.toNat = some [0x51, 0xCA, 0x6B, 0x52, 0xBB] ∧
    (packetOf [0x51, 0xCA, 0x6B, 0x52, 0xBB]).checksumOk = false := by decide +kernel

/-- F7's and F8's frames. -/
theorem witness_UnknownCommandIsNacked :
    (received [0x05, 0x50, 0x7C, 0x76, 0x93, 0xBF]).resetDue = none ∧
    (received [0x05, 0x50, 0x7C, 0x76, 0x93, 0xBF]).phase = .dispatch ∧
    (received [0x05, 0x50, 0x7C, 0x76, 0x93, 0xBF]).point = none ∧
    lengthError (received [0x05, 0x50, 0x7C, 0x76, 0x93, 0xBF]).len.toNat = none ∧
    cellsOf (received [0x05, 0x50, 0x7C, 0x76, 0x93, 0xBF]).rxbuf 5 = some [0x50, 0x7C, 0x76, 0x93, 0xBF] ∧
    (packetOf [0x50, 0x7C, 0x76, 0x93, 0xBF]).checksumOk = true ∧
    (packetOf [0x50, 0x7C, 0x76, 0x93, 0xBF]).command.toNat < 0x51 ∧
    (packetOf [0x5D, 0xAF, 0xF0, 0x5E, 0x8E]).checksumOk = true ∧
    0x5C < (packetOf [0x5D, 0xAF, 0xF0, 0x5E, 0x8E]).command.toNat := by decide +kernel

theorem witness_TerminalPhaseHasNoStep :
    ({ start with phase := .inactive } : State).resetDue = none ∧ ({ start with phase := .inactive } : State).phase = .inactive ∧
    ({ start with phase := .jumped 0 } : State).phase = .jumped 0 ∧
    ({ start with phase := .halted .relockFailed } : State).phase = .halted .relockFailed := by decide

/-- At rest, and between two requests of a command. -/
theorem witness_ResetSequenceLeavesResetValues :
    ({ start with resetIn := [some true] } : State).resetDue = some true ∧
    ({ erasing with resetIn := [some false, none] } : State).resetDue = some false := by decide +kernel

theorem witness_IdentityQueriesAnswer : ([0] : List Byte) ≠ [] := by decide

theorem witness_SectorProtectionStatusIsReported :
    start.prot.mode = .none ∧ (guarded 0x20 .write).prot.mode = .write ∧
    (guarded 0x60 .readWrite).prot.mode = .readWrite ∧ ([0] : List Byte) ≠ [] := by decide

/-- M5's range, not protected and protected. -/
theorem witness_ReadMemoryOfFlash :
    1 ≤ (1 : Byte).toNat ∧
    (∀ i, i < (1 : Byte).toNat → classify ((le32 0xFF 0xFF 0x07 0x08).toNat + i) = .nonVolatile) ∧
    (∀ i k, i < (1 : Byte).toNat → sectorOf ((le32 0xFF 0xFF 0x07 0x08).toNat + i) = some k →
      ¬((guarded 0x20 .readWrite).prot.mask.getLsbD k = true ∧ (guarded 0x20 .readWrite).prot.mode = .readWrite)) ∧
    (∃ i k, i < (1 : Byte).toNat ∧ sectorOf ((le32 0xFF 0xFF 0x07 0x08).toNat + i) = some k ∧
      (guarded 0x80 .readWrite).prot.mask.getLsbD k = true ∧ (guarded 0x80 .readWrite).prot.mode = .readWrite) := by
  have h : sectorOf (le32 0xFF 0xFF 0x07 0x08).toNat = some 7 := by decide
  refine ⟨by decide, by decide, fun i k hi hk => ?_, 0, 7, by decide, h, by decide, rfl⟩
  obtain rfl : i = 0 := by have : (1 : Byte).toNat = 1 := rfl; omega
  rw [Nat.add_zero, h] at hk
  cases hk
  decide

/-- M8's range, the last four bytes of backup RAM. -/
theorem witness_ReadMemoryOfRam :
    1 ≤ (4 : Byte).toNat ∧ MemoryRegion.backupRam ≠ .nonVolatile ∧ MemoryRegion.backupRam ≠ .unknown ∧
    (∀ i, i < (4 : Byte).toNat → classify ((le32 0xFC 0x4F 0x02 0x40).toNat + i) = .backupRam) := by decide

/-- M12's length, and the ranges of M6, M9 and M11. -/
theorem witness_ReadMemoryRefusals :
    ([0, 0, 2, 8] : List Byte).length ≠ 5 ∧ 1 ≤ (2 : Byte).toNat ∧
    classifyRange (le32 0xFF 0xFF 0x07 0x08).toNat (2 : Byte).toNat = .unknown ∧
    classifyRange (le32 0xFE 0xBF 0x01 0x20).toNat (4 : Byte).toNat = .unknown ∧
    classifyRange (le32 0 0 0 0).toNat (1 : Byte).toNat = .unknown := by decide

/-- J9, J16 and J17. -/
theorem witness_JumpLeavesForAValidTarget :
    classify (le32 0xFF 0x4F 0x02 0x40).toNat ≠ .unknown ∧ classify (le32 0xFF 0xFF 0xFF 0xFF).toNat = .unknown ∧
    ([0, 0, 2] : List Byte).length ≠ 4 := by decide

theorem witness_OnlyAValidatedJumpLeaves :
    (received jumpFrame).Inv ∧ ∃ t, step (received jumpFrame) = .next t ∧ t.phase = .jumped 0x08020000 := by
  refine ⟨received_inv rfl, ?_⟩
  have h : phaseOf (step (received jumpFrame)) = some (.jumped 0x08020000) := by decide +kernel
  cases hs : step (received jumpFrame) with
  | next t => rw [hs] at h; exact ⟨t, rfl, Option.some.inj h⟩
  | fault f => rw [hs] at h; cases h
  | refused r => rw [hs] at h; cases h

/-- The start state with the flash lock open. -/
def unlocked (l : List PortAnswer) : State := { answering l with flashLocked := false }

/-- Each request's precondition met and failed, and each answer. -/
theorem witness_PortRequestEffects :
    portReady start (.programByte 0x08000000 0) = false ∧ portReady (unlocked []) (.eraseSector 8) = false ∧
    portReady (unlocked []) (.programByte 0x08080000 0) = false ∧
    portReady start .flashUnlock = true ∧ portReady start .optUnlock = true ∧ portReady start .flashRelock = true ∧
    portReady start .optRelock = true ∧ portReady (unlocked []) (.eraseSector 7) = true ∧
    portReady (unlocked []) .massErase = true ∧ portReady (unlocked []) (.programByte 0x0807FFFF 0) = true ∧
    portReady { start with optLocked := false } (.optApply 0x20 .write) = true ∧
    (unlocked []).port.head = .ok ∧ (unlocked [.fail]).port.head = .fail ∧ (unlocked [.never]).port.head = .never ∧
    Memory.wf (unlocked []).flash := by
  exact ⟨by decide, by decide, by decide, by decide, by decide, by decide, by decide, by decide, by decide, by decide,
    by decide, by decide, by decide, by decide, Memory.wf_nil⟩

theorem witness_ResetDuringARequestLeavesDraws :
    portReady (unlocked [.reset true]) (.programByte 0x0807FFFF 0) = true ∧
    (unlocked [.reset true]).port.head = .reset true ∧ (unlocked [.reset true]).prot.wf = true ∧
    portReady (unlocked [.reset false]) .massErase = true ∧ (unlocked [.reset false]).port.head = .reset false := by decide

theorem witness_MemReadByRegion :
    classify 0x0807FFFF = .nonVolatile ∧ classify 0x2001BFFF = .primaryRam ∧ classify 0x2001C000 = .secondaryRam ∧
    classify 0x40024FFF = .backupRam ∧ classify 0x08080000 = .unknown := by decide

/-- E2, E16, E9, E11 and E15. -/
theorem witness_EraseRefusals :
    8 < (9 : Byte).toNat ∧ (8 : Byte).toNat ≤ 8 ∧
    (∃ k, k < 8 ∧ (guarded 0x01 .write).prot.mask.getLsbD k = true) ∧ 8 ≤ (8 : Byte).toNat ∧ (8 : Byte) ≠ 0xFF ∧
    (0 : Byte).toNat = 0 ∧ (5 : Byte).toNat < 8 ∧ 1 ≤ (2 : Byte).toNat ∧
    (∃ k, (4 : Byte).toNat ≤ k ∧ k < (4 : Byte).toNat + min (2 : Byte).toNat (8 - (4 : Byte).toNat) ∧
      (guarded 0x20 .write).prot.mask.getLsbD k = true) ∧ ([5] : List Byte).length ≠ 2 :=
  ⟨by decide, by decide, ⟨0, by decide⟩, by decide, by decide, by decide, by decide, by decide, ⟨5, by decide⟩, by decide⟩

theorem start_answersOk (n : Nat) : start.answersOk n := fun _ _ => rfl

/-- E6: count 8 clamped to two sectors. -/
theorem witness_EraseErasesTheClampedRange :
    (6 : Byte).toNat < 8 ∧ 1 ≤ (8 : Byte).toNat ∧ (8 : Byte).toNat ≤ 8 ∧ 2 = min (8 : Byte).toNat (8 - (6 : Byte).toNat) ∧
    (∀ k, (6 : Byte).toNat ≤ k → k < (6 : Byte).toNat + 2 → start.prot.mask.getLsbD k = false) ∧
    start.flashLocked = true ∧ start.answersOk (2 + 2) :=
  ⟨by decide, by decide, by decide, by decide, fun k _ _ => by simp [start, State.reset], rfl, start_answersOk _⟩

/-- E3 and E4. -/
theorem witness_MassEraseErasesEverything :
    (0 : Byte).toNat ≤ 8 ∧ (8 : Byte).toNat ≤ 8 ∧ (∀ k, k < 8 → start.prot.mask.getLsbD k = false) ∧
    start.flashLocked = true ∧ start.answersOk 3 := ⟨by decide, by decide, by decide, rfl, start_answersOk _⟩

/-- E21: the third of eight sectors fails; and a mass erase that fails. -/
theorem witness_EraseFailureStopsAtTheSector :
    (8 : Byte).toNat ≤ 8 ∧ (answering [.ok, .ok, .ok, .fail]).flashLocked = true ∧
    (answering [.ok, .ok, .ok, .fail]).port.answer 0 = .ok ∧ (0 : Byte).toNat < 8 ∧ 1 ≤ (8 : Byte).toNat ∧
    8 = min (8 : Byte).toNat (8 - (0 : Byte).toNat) ∧ 2 < 8 ∧
    (∀ k, (0 : Byte).toNat ≤ k → k < (0 : Byte).toNat + 8 →
      (answering [.ok, .ok, .ok, .fail]).prot.mask.getLsbD k = false) ∧
    (answering [.ok, .ok, .ok, .fail]).answersOk (2 + 1) ∧ (answering [.ok, .ok, .ok, .fail]).port.answer (2 + 1) = .fail ∧
    (answering [.ok, .ok, .ok, .fail]).port.answer (2 + 2) = .ok ∧
    (answering [.ok, .fail]).port.answer 1 = .fail ∧ (answering [.ok, .fail]).port.answer 2 = .ok := by
  refine ⟨by decide, rfl, rfl, by decide, by decide, by decide, by decide, fun k _ _ => ?_, fun k hk => ?_, rfl, rfl, rfl, rfl⟩
  · simp [answering, start, State.reset]
  · match k, hk with
    | 0, _ => rfl
    | 1, _ => rfl
    | 2, _ => rfl

/-- W5, W8, W11 and a payload of four bytes. -/
theorem witness_WriteRefusals :
    1 ≤ (3 : Byte).toNat ∧ ([0xAA, 0xBB, 0xCC] : List Byte).length = (3 : Byte).toNat ∧
    (∃ i, i < ([0xAA, 0xBB, 0xCC] : List Byte).length ∧ classify ((le32 0xFE 0xFF 0x07 0x08).toNat + i) ≠ .nonVolatile) ∧
    (∀ i, i < ([0xDE, 0xAD, 0xBE] : List Byte).length → classify ((le32 0xFE 0xFF 0x01 0x08).toNat + i) = .nonVolatile) ∧
    (∃ i k, i < ([0xDE, 0xAD, 0xBE] : List Byte).length ∧ sectorOf ((le32 0xFE 0xFF 0x01 0x08).toNat + i) = some k ∧
      (guarded 0x20 .write).prot.mask.getLsbD k = true) ∧ (0 : Byte).toNat = 0 ∧
    ([0, 0, 2, 8] : List Byte).length < 5 :=
  ⟨by decide, by decide, ⟨2, by decide⟩, by decide, ⟨2, 5, by decide⟩, by decide, by decide⟩

/-- W4. -/
theorem witness_WriteProgramsItsBytes :
    0x0807FFFE = (le32 0xFE 0xFF 0x07 0x08).toNat ∧ 1 ≤ (2 : Byte).toNat ∧
    ([0xAA, 0xBB] : List Byte).length = (2 : Byte).toNat ∧
    (∀ i, i < ([0xAA, 0xBB] : List Byte).length → classify (0x0807FFFE + i) = .nonVolatile) ∧
    (∀ i k, i < ([0xAA, 0xBB] : List Byte).length → sectorOf (0x0807FFFE + i) = some k →
      start.prot.mask.getLsbD k = false) ∧
    start.flashLocked = true ∧ Memory.wf start.flash ∧ start.answersOk (([0xAA, 0xBB] : List Byte).length + 2) ∧
    Memory.read start.flash (0x0807FFFE + 0) = 0xFF :=
  ⟨by decide, by decide, by decide, by decide, fun i k _ _ => by simp [start, State.reset], rfl, Memory.wf_nil,
    start_answersOk _, rfl⟩

/-- W17: the third of four bytes fails. -/
theorem witness_WriteFailureKeepsEarlierBytes :
    0x08020000 = (le32 0x00 0x00 0x02 0x08).toNat ∧ ([0xDE, 0xAD, 0xBE, 0xEF] : List Byte).length = (4 : Byte).toNat ∧
    2 < ([0xDE, 0xAD, 0xBE, 0xEF] : List Byte).length ∧
    (∀ i, i < ([0xDE, 0xAD, 0xBE, 0xEF] : List Byte).length → classify (0x08020000 + i) = .nonVolatile) ∧
    (∀ i k, i < ([0xDE, 0xAD, 0xBE, 0xEF] : List Byte).length → sectorOf (0x08020000 + i) = some k →
      (answering [.ok, .ok, .ok, .fail]).prot.mask.getLsbD k = false) ∧
    (∀ i, i < 2 → Memory.read (answering [.ok, .ok, .ok, .fail]).flash (0x08020000 + i) = 0xFF) ∧
    (answering [.ok, .ok, .ok, .fail]).flashLocked = true ∧ Memory.wf (answering [.ok, .ok, .ok, .fail]).flash ∧
    (answering [.ok, .ok, .ok, .fail]).answersOk (2 + 1) ∧ (answering [.ok, .ok, .ok, .fail]).port.answer (2 + 1) = .fail ∧
    (answering [.ok, .ok, .ok, .fail]).port.answer (2 + 2) = .ok := by
  refine ⟨by decide, by decide, by decide, by decide, fun i k _ _ => by simp [answering, start, State.reset],
    fun i _ => rfl, rfl, Memory.wf_nil, fun k hk => ?_, rfl, rfl⟩
  match k, hk with
  | 0, _ => rfl
  | 1, _ => rfl
  | 2, _ => rfl

theorem witness_EnableProtectionMergesTheMask :
    (0xFF : Byte) ≠ 0 ∧ start.optLocked = true ∧ start.answersOk 3 := ⟨by decide, rfl, start_answersOk _⟩

/-- P-5, P-3, P-4 and P-11. -/
theorem witness_EnableProtectionRefusals :
    (1 : Byte) = 1 ∧ (3 : Byte) ≠ 1 ∧ (3 : Byte) ≠ 2 ∧ (0 : Byte) ≠ 1 ∧ (0 : Byte) ≠ 2 ∧ ([0x20] : List Byte).length ≠ 2 := by
  decide

theorem witness_DisableProtectionClearsIt :
    (guarded 0x20 .write).optLocked = true ∧ (guarded 0x20 .write).answersOk 3 ∧ ([0] : List Byte) ≠ [] :=
  ⟨rfl, fun _ _ => rfl, by decide⟩

/-- P-12. -/
theorem witness_ApplyFailureLeavesALegalDraw :
    (answering [.ok, .fail]).optLocked = true ∧ (answering [.ok, .fail]).port.answer 0 = .ok ∧
    (answering [.ok, .fail]).port.answer 1 = .fail ∧ (answering [.ok, .fail]).port.answer 2 = .ok ∧ (0x20 : Byte) ≠ 0 ∧
    protModeOf 1 = some .write := ⟨rfl, rfl, rfl, rfl, by decide, rfl⟩

/-- E20, and the other commands' unlocks. -/
theorem witness_UnlockFailureIsNacked :
    (answering [.fail]).port.head = .fail ∧ (answering [.fail]).flashLocked = true ∧
    eraseGate 5 1 (answering [.fail]).prot = .ok [.eraseSector 5] ∧
    addressData [0xFF, 0xFF, 0x07, 0x08, 1, 0xAA] = some (0x0807FFFF, [0xAA]) ∧
    writeGate (0x0807FFFF : Word).toNat [0xAA] (answering [.fail]).prot = .ok [.programByte 0x0807FFFF 0xAA] ∧
    (answering [.fail]).optLocked = true ∧ (0x20 : Byte) ≠ 0 ∧ protModeOf 2 = some .readWrite :=
  ⟨rfl, rfl, rfl, rfl, rfl, rfl, by decide, rfl⟩

/-- The answers 0 to `n` of a script. -/
theorem answersOk_of {s : State} {n : Nat} (h : (List.range n).all (fun k => s.port.answer k == .ok) = true) :
    s.answersOk n := fun k hk => by simpa using List.all_eq_true.1 h k (List.mem_range.2 hk)

/-- The four commands that take a lock, each with its checks passed, in the start state with any answers. -/
theorem operations (l : List PortAnswer) :
    operation (.eraseFlash [6, 8]) (answering l) .flash [.eraseSector 6, .eraseSector 7] ∧
    operation (.writeMemory [0xFF, 0xFF, 0x07, 0x08, 1, 0xAA]) (answering l) .flash [.programByte 0x0807FFFF 0xAA] ∧
    operation (.enableRwProtect [0x20, 1]) (answering l) .option [.optApply 0x20 .write] ∧
    operation (.disableRwProtect []) (answering l) .option [.optApply 0 .none] ∧
    (answering l).locked .flash = true ∧ (answering l).locked .option = true :=
  have h1 : protectGate 0x20 .write ⟨0, .none⟩ = .ok [.optApply 0x20 .write] := by
    simp [protectGate, mergedMask, Config.protMerge, Config.numSectors]
  have h2 : writeGate (0x0807FFFF : Word).toNat [0xAA] ⟨0, .none⟩ = .ok [.programByte 0x0807FFFF 0xAA] := rfl
  have h3 : eraseGate 6 8 ⟨0, .none⟩ = .ok [.eraseSector 6, .eraseSector 7] := rfl
  ⟨⟨rfl, 6, 8, rfl, h3⟩, ⟨rfl, 0x0807FFFF, [0xAA], rfl, h2⟩, ⟨rfl, 0x20, 1, .write, rfl, rfl, h1⟩, ⟨rfl, rfl, rfl⟩, rfl, rfl⟩

/-- E22 and P-13 by the number of requests, and a command that has halted; its operations are those of `operations`. -/
theorem witness_RelockFailureHaltsWithoutResponse :
    operation (.eraseFlash [6, 8]) (answering [.ok, .ok, .ok, .fail]) .flash [.eraseSector 6, .eraseSector 7] ∧
    (answering [.ok, .ok, .ok, .fail]).locked .flash = true ∧
    (answering [.ok, .ok, .ok, .fail]).answersOk ([.eraseSector 6, .eraseSector 7] : List PortRequest).length.succ ∧
    (answering [.ok, .ok, .ok, .fail]).port.answer 3 = .fail ∧
    operation (.enableRwProtect [0x20, 1]) (answering [.ok, .ok, .fail]) .option [.optApply 0x20 .write] ∧
    (answering [.ok, .ok, .fail]).locked .option = true ∧ (answering [.ok, .ok, .fail]).answersOk 2 ∧
    (answering [.ok, .ok, .fail]).port.answer 2 = .fail ∧
    ∃ t, exec (.enableRwProtect [0x20, 1]) (answering [.ok, .ok, .fail]) = .next t ∧ t.phase = .halted .relockFailed :=
  ⟨(operations _).1, rfl, answersOk_of rfl, rfl, (operations _).2.2.1, rfl, answersOk_of rfl, rfl, _, rfl, rfl⟩

/-- The last of two erase requests fails and the relock too; and DISABLE_RW_PROTECT with and without the earlier
failure. -/
theorem witness_RelockFailureOverridesEarlierFailure :
    (operation (.eraseFlash [6, 8]) (answering [.ok, .ok, .fail, .fail]) .flash [.eraseSector 6, .eraseSector 7] ∧
      (answering [.ok, .ok, .fail, .fail]).locked .flash = true ∧
      1 < ([.eraseSector 6, .eraseSector 7] : List PortRequest).length ∧
      (answering [.ok, .ok, .fail, .fail]).answersOk 2 ∧ (answering [.ok, .ok, .fail, .fail]).port.answer 2 = .fail ∧
      (answering [.ok, .ok, .fail, .fail]).port.answer 3 = .fail) ∧
    (operation (.writeMemory [0xFF, 0xFF, 0x07, 0x08, 1, 0xAA]) (answering [.ok, .fail, .fail]) .flash
        [.programByte 0x0807FFFF 0xAA] ∧
      (answering [.ok, .fail, .fail]).answersOk 1) ∧
    (answering [.ok, .ok, .fail]).optLocked = true ∧ (answering [.ok, .ok, .fail]).port.answer 0 = .ok ∧
    (answering [.ok, .ok, .fail]).port.answer 1 = .ok ∧ (answering [.ok, .ok, .fail]).port.answer 2 = .fail ∧
    (answering [.ok, .fail, .fail]).port.answer 0 = .ok ∧ (answering [.ok, .fail, .fail]).port.answer 1 = .fail ∧
    (answering [.ok, .fail, .fail]).port.answer 2 = .fail :=
  ⟨⟨(operations _).1, rfl, by decide, answersOk_of rfl, rfl, rfl⟩, ⟨(operations _).2.1, answersOk_of rfl⟩, rfl, rfl, rfl,
    rfl, rfl, rfl, rfl⟩

/-- The unlock, the first body request (E23), the relock, and the relock after a failure; then a block that stands before
an erase request and one that stands before a relock. -/
theorem witness_UnansweredRequestIsStuck :
    operation (.eraseFlash [6, 8]) (answering [.never]) .flash [.eraseSector 6, .eraseSector 7] ∧
    (answering [.never]).locked .flash = true ∧ (answering [.never]).answersOk 0 ∧
    (answering [.never]).port.answer 0 = .never ∧
    (answering [.ok, .never]).answersOk 1 ∧ (answering [.ok, .never]).port.answer 1 = .never ∧
    (answering [.ok, .ok, .ok, .never]).answersOk 3 ∧ (answering [.ok, .ok, .ok, .never]).port.answer 3 = .never ∧
    (PortRequest.flashUnlock :: [.eraseSector 6, .eraseSector 7] ++ [.flashRelock])[3]? = some .flashRelock ∧
    (answering [.ok, .fail, .never]).answersOk 1 ∧ (answering [.ok, .fail, .never]).port.answer 1 = .fail ∧
    (answering [.ok, .fail, .never]).port.answer 2 = .never ∧
    ({ erasing with port := ⟨[.never], .ok⟩ } : State).resetDue = none ∧
    ({ erasing with port := ⟨[.never], .ok⟩ } : State).phase = .dispatch ∧
    ({ erasing with port := ⟨[.never], .ok⟩ } : State).port.head = .never ∧
    ({ erasing with port := ⟨[.never], .ok⟩ } : State).point =
      some (.working 0x56 .flash .eraseFailed [.eraseSector 5]) ∧
    portReady { erasing with port := ⟨[.never], .ok⟩ } (.eraseSector 5) = true ∧
    ({ erasing with port := ⟨[.never], .ok⟩, point := some (.relocking 0x56 .flash (.ok [])) } : State).point =
      some (.relocking 0x56 .flash (.ok [])) :=
  ⟨(operations _).1, rfl, answersOk_of rfl, rfl, answersOk_of rfl, rfl, answersOk_of rfl, rfl, rfl, answersOk_of rfl, rfl,
    rfl, rfl, rfl, rfl, rfl, by decide +kernel, rfl⟩

theorem witness_LocksAreClosedOnReturn :
    start.flashLocked = true ∧ start.optLocked = true ∧
    ∃ t, exec (.disableRwProtect []) start = .next t ∧ ∀ r, t.phase ≠ .halted r :=
  ⟨rfl, rfl, _, rfl, fun r h => by cases h⟩

/-- The byte below and the byte above a write; the sector below and the sector above an erase. -/
theorem witness_FlashFrame :
    (∃ t, exec (.writeMemory [0x00, 0x00, 0x02, 0x08, 1, 0xAA]) start = .next t) ∧
    ¬ storesTo (.writeMemory [0x00, 0x00, 0x02, 0x08, 1, 0xAA]) 0x0801FFFF ∧
    ¬ storesTo (.writeMemory [0x00, 0x00, 0x02, 0x08, 1, 0xAA]) 0x08020001 ∧
    (∃ t, exec (.eraseFlash [5, 1]) start = .next t) ∧ ¬ storesTo (.eraseFlash [5, 1]) 0x0801FFFF ∧
    ¬ storesTo (.eraseFlash [5, 1]) 0x08040000 := by
  have ha : addressData [0x00, 0x00, 0x02, 0x08, 1, 0xAA] = some (0x08020000, [0xAA]) := rfl
  have h1 : (0x08020000 : Word).toNat = 0x08020000 := rfl
  have hp : bytePair [5, 1] = some (5, 1) := rfl
  have h4 : sectorOf 0x0801FFFF = some 4 := by decide
  have h6 : sectorOf 0x08040000 = some 6 := by decide
  have hspan : eraseSpan (5 : Byte).toNat (1 : Byte).toNat = 1 := by decide
  have hff : ¬ (5 : Byte) = Config.massEraseSentinel := by decide
  have h5 : (5 : Byte).toNat = 5 := rfl
  refine ⟨⟨_, rfl⟩, ?_, ?_, ⟨_, rfl⟩, ?_, ?_⟩
  · rintro ⟨addr, data, h, h2, h3⟩
    rw [ha] at h
    cases h
    omega
  · rintro ⟨addr, data, h, h2, h3⟩
    rw [ha] at h
    cases h
    simp only [h1, List.length_cons, List.length_nil] at h3
    omega
  · rintro ⟨sector, count, h, ⟨h2, -⟩ | ⟨k, hk, h2, h3⟩⟩ <;> rw [hp] at h <;> cases h
    · exact hff h2
    · rw [h4] at hk
      cases hk
      omega
  · rintro ⟨sector, count, h, ⟨h2, -⟩ | ⟨k, hk, h2, h3⟩⟩ <;> rw [hp] at h <;> cases h
    · exact hff h2
    · rw [h6] at hk
      cases hk
      omega

theorem witness_QueryAndJumpFrame :
    changesFlash (.readMemory [0x00, 0x00, 0x00, 0x20, 2]) = false ∧
    changesProtection (.readMemory [0x00, 0x00, 0x00, 0x20, 2]) = false ∧
    (∃ t, exec (.readMemory [0x00, 0x00, 0x00, 0x20, 2]) start = .next t) ∧
    changesFlash (.jumpToAddress [0, 0, 2, 8]) = false ∧ changesProtection (.jumpToAddress [0, 0, 2, 8]) = false ∧
    (∃ t, exec (.jumpToAddress [0, 0, 2, 8]) start = .next t) ∧
    (∀ p, Instr.jumpToAddress [0, 0, 2, 8] ≠ .readMemory p) :=
  ⟨rfl, rfl, ⟨_, rfl⟩, rfl, rfl, ⟨_, rfl⟩, fun p h => by cases h⟩

theorem start_noReset : start.noResetDuringRequest := fun _ _ h => by cases h

theorem witness_FlashCommandFrame :
    changesFlash (.eraseFlash [5, 1]) = true ∧ (∃ t, exec (.eraseFlash [5, 1]) start = .next t) ∧
    start.noResetDuringRequest := ⟨rfl, ⟨_, rfl⟩, start_noReset⟩

theorem witness_ProtectionCommandFrame :
    changesProtection (.enableRwProtect [0x20, 1]) = true ∧
    (∃ t, exec (.enableRwProtect [0x20, 1]) start = .next t) ∧ start.noResetDuringRequest :=
  ⟨rfl, ⟨_, rfl⟩, start_noReset⟩

theorem witness_ValidationErrorTakesNoAction :
    ∃ t, exec (.eraseFlash [5, 9]) start = .next t ∧ t.lastError = some .countRange ∧
      errorKind .countRange = .validation := ⟨_, rfl, rfl, rfl⟩

/-- An erase request that changes flash, and an apply request that changes protection. -/
theorem witness_OnlyTheFlashManagerWrites :
    erasing.Inv ∧ flashOf (step erasing) = some [] ∧ erasing.flash ≠ [] ∧ protecting.Inv ∧
    protOf (step protecting) = some ⟨0x20, .write⟩ ∧ protecting.prot ≠ ⟨0x20, .write⟩ :=
  ⟨erasing_inv, by decide +kernel, by decide, protecting_inv, by decide +kernel, by decide⟩

theorem witness_ExactlyOneResponse :
    (received eraseFrame).Inv ∧ (received eraseFrame).resetIn = [] ∧ (received eraseFrame).noResetDuringRequest ∧
    (received eraseFrame).phase = .dispatch ∧ (received eraseFrame).point = none :=
  ⟨received_inv rfl, rfl, fun k e h => (by cases h), rfl, rfl⟩

/-- An outcome whose phase is known is a next state. -/
theorem next_of_phase {o : Host.Outcome State Fault Refusal} {p : Phase} (h : phaseOf o = some p) : ∃ t, o = .next t := by
  cases o with
  | next t => exact ⟨t, rfl⟩
  | fault f => cases h
  | refused r => cases h

/-- A step that receives a byte, one that issues a request. -/
theorem witness_OneActionAStep :
    (offered [1]).resetDue = none ∧ (offered [1]).noResetDuringRequest ∧ (∃ t, step (offered [1]) = .next t) ∧
    (offered [1]).phase ≠ .dispatch ∧ erasing.resetDue = none ∧ erasing.noResetDuringRequest ∧
    ∃ t, step erasing = .next t :=
  ⟨rfl, fun k e h => (by cases h), ⟨_, rfl⟩, by decide, rfl, fun k e h => (by cases h),
    next_of_phase (p := .dispatch) (by decide +kernel)⟩

/-- The reset state, with a byte to receive. -/
theorem offered_inv : (offered [1]).Inv where
  flash := Memory.wf_nil
  prot := rfl
  locks := fun _ _ => ⟨rfl, rfl⟩
  point := fun p h => by cases h
  count := fun h => by cases h
  cells := fun h => by cases h
  frame := fun h => by cases h
  packet := fun p h => by cases h
  consumed := fun _ _ _ => rfl

/-- At rest and inside a command. -/
theorem witness_StepKeepsInvariant :
    (offered [1]).Inv ∧ (∃ t, step (offered [1]) = .next t) ∧ erasing.Inv ∧ ∃ t, step erasing = .next t :=
  ⟨offered_inv, ⟨_, rfl⟩, erasing_inv, next_of_phase (p := .dispatch) (by decide +kernel)⟩

theorem witness_InvariantStatesStopOnlyWhereTheSpecDoes : (offered [1]).Inv ∧ erasing.Inv := ⟨offered_inv, erasing_inv⟩

/-- A command that ends in a next state and one that is stuck. -/
theorem witness_StepsReachTheEndOfTheCommand :
    (received eraseFrame).resetIn = [] ∧ (received eraseFrame).phase = .dispatch ∧ (received eraseFrame).point = none ∧
    cellsOf (received eraseFrame).rxbuf (received eraseFrame).len.toNat = some eraseFrame.tail ∧
    decode ((received eraseFrame).len :: eraseFrame.tail) = .instr (.eraseFlash [5, 1]) [] ∧
    (∃ t, exec (.eraseFlash [5, 1]) (received eraseFrame) = .next t) ∧
    exec (.eraseFlash [5, 1]) { received eraseFrame with port := ⟨[.never], .ok⟩ } =
      .fault (.portNeverAnswers .flashUnlock) :=
  ⟨rfl, rfl, rfl, by decide +kernel, by decide +kernel, ⟨_, rfl⟩, rfl⟩

end Sys2Proof.Tests
end

/-! ### Terminal phases (spec/10_state.md R35) -/

namespace Sys2Proof.Machine

/-- Unlike `step_phase`, this leaves open the resets that come later. -/
theorem step_of_resetDue_none {s : State} (hr : s.resetDue = none) : step s = phaseStep s.stepped := by
  rw [step, hr]

theorem phaseStep_inactive {s : State} (hp : s.phase = .inactive) : phaseStep s = .fault .inactive := by
  rw [phaseStep, hp]

theorem phaseStep_jumped {s : State} {a : Word} (hp : s.phase = .jumped a) : phaseStep s = .fault (.jumped a) := by
  rw [phaseStep, hp]

theorem phaseStep_halted {s : State} {r : FatalReason} (hp : s.phase = .halted r) :
    phaseStep s = .fault (.halted r) := by
  rw [phaseStep, hp]

/-- Settles O20: with no reset due the step is the phase's, and each terminal phase answers its own fault. -/
theorem terminalPhaseHasNoStep : Obligations.TerminalPhaseHasNoStep := by
  intro s hr
  rw [step_of_resetDue_none hr]
  exact ⟨fun hp => phaseStep_inactive (s.stepped_phase.trans hp),
    fun _ hp => phaseStep_jumped (s.stepped_phase.trans hp),
    fun _ hp => phaseStep_halted (s.stepped_phase.trans hp)⟩

end Sys2Proof.Machine

/-! ### Region tables (spec/20_memory.md R43) -/

namespace Sys2Proof

theorem Range.wf_iff (r : Range) : r.wf = true ↔ r.base ≤ r.last ∧ r.last ≤ 0xFFFFFFFF := by
  simp [Range.wf]

theorem Range.disjoint_iff (r s : Range) : r.disjoint s = true ↔ r.last < s.base ∨ s.last < r.base := by
  simp [Range.disjoint]

/-- The ranges of the four named regions, in the order `classifyIn` tests them. -/
def RegionTable.ranges (t : RegionTable) : List Range := [t.primaryRam, t.secondaryRam, t.nonVolatile, t.backupRam]

/-- The check of R43 is its two conditions, each range's and each pair's. -/
theorem RegionTable.wf_iff (t : RegionTable) :
    t.wf = true ↔ (∀ r ∈ t.ranges, r.wf = true) ∧ t.ranges.Pairwise (fun r s => r.disjoint s = true) := by
  simp [RegionTable.wf, RegionTable.ranges, and_assoc]

end Sys2Proof

namespace Sys2Proof.Machine

theorem not_inRange_of_disjoint {r s : Range} {a : Nat} (hd : r.disjoint s = true) (hr : inRange r a = true) :
    ¬ inRange s a = true := by
  rw [Range.disjoint_iff] at hd
  rw [inRange_iff] at hr ⊢
  omega

/-- Of ranges that are pairwise disjoint at most one holds an address: past the first that does, none can. -/
theorem countP_inRange_le_one {l : List Range} (hl : l.Pairwise (fun r s => r.disjoint s = true)) (a : Nat) :
    l.countP (fun r => inRange r a) ≤ 1 := by
  induction hl with
  | nil => simp
  | @cons r l hd _ ih =>
    by_cases hr : inRange r a = true
    · have hrest : l.countP (fun s => inRange s a) = 0 :=
        List.countP_eq_zero.2 fun s hs => not_inRange_of_disjoint (hd s hs) hr
      rw [List.countP_cons, if_pos hr, hrest]
    · rwa [List.countP_cons, if_neg hr]

/-- Settles O10: the check gives each range's bounds and that the ranges are pairwise disjoint. -/
theorem checkedRegionTableNeverDoubleClassifies : Obligations.CheckedRegionTableNeverDoubleClassifies := by
  refine ⟨regionTable_wf, fun t ht => ?_⟩
  obtain ⟨hranges, hdisjoint⟩ := t.wf_iff.1 ht
  exact ⟨fun r hr => r.wf_iff.1 (hranges r hr), countP_inRange_le_one hdisjoint⟩

end Sys2Proof.Machine

/-! ### The length byte (spec/43_dispatcher.md R146) -/

namespace Sys2Proof.Machine

theorem phaseStep_awaitingLength {s : State} (hp : s.phase = .awaitingLength) : phaseStep s = receiveLength s := by
  rw [phaseStep, hp]

theorem receiveLength_of_rx_cons {s : State} {l : Byte} {rest : List Byte} (hx : s.rx = l :: rest) :
    receiveLength s = .next (s.beginFrame l rest) := by
  rw [receiveLength, hx]

theorem receiveLength_of_rx_nil {s : State} (hx : s.rx = []) : receiveLength s = .fault .noReceiveByte := by
  rw [receiveLength, hx]

/-- Settles O14: with no reset due the step is the receive of the length byte, and neither case looks at its value. -/
theorem lengthByteBeginsAFrame : Obligations.LengthByteBeginsAFrame := by
  intro s hr hp
  have hstep : step s = receiveLength s.stepped := by
    rw [step_of_resetDue_none hr, phaseStep_awaitingLength (s.stepped_phase.trans hp)]
  rw [hstep]
  exact ⟨fun _ _ hx => receiveLength_of_rx_cons (s.stepped_rx.trans hx),
    fun hx => receiveLength_of_rx_nil (s.stepped_rx.trans hx)⟩

end Sys2Proof.Machine

/-! ### The decoder and the encoder (spec/30_encoding.md R85, spec/41_frame.md R100) -/

namespace Sys2Proof.Machine

/-- The bytes of an instruction's frame after the length byte. -/
def frameCells (i : Instr) : List Byte := i.code :: i.payload ++ bytesLe32 (crc32 (i.code :: i.payload))

theorem encode_eq_cons (i : Instr) : encode i = BitVec.ofNat 8 (i.payload.length + 5) :: frameCells i := rfl

@[simp] theorem frameCells_length (i : Instr) : (frameCells i).length = i.payload.length + 5 := by
  simp [frameCells]

theorem lengthByte_toNat {i : Instr} (h : i.WellFormed) :
    (BitVec.ofNat 8 (i.payload.length + 5)).toNat = i.payload.length + 5 := by
  have hcap : i.payload.length ≤ 197 := h
  rw [BitVec.toNat_ofNat, Nat.mod_eq_of_lt (by omega)]

/-- The dispatcher reads an instruction's own frame as that instruction. -/
theorem instrOfPacket_frameCells (i : Instr) : instrOfPacket (packetOf (frameCells i)) = .ok i := by
  rw [frameCells, packetOf_append _ _ _ (bytesLe32_length _), instrOfPacket_ok_iff]
  simp

theorem decodeCells_eq_instr_iff {len : Nat} {cells after rest : List Byte} {i : Instr} :
    decodeCells len cells after = .instr i rest ↔
      lengthError len = none ∧ instrOfPacket (packetOf cells) = .ok i ∧ after = rest := by
  unfold decodeCells parseFrame
  cases lengthError len with
  | some e => simp
  | none =>
    cases hpacket : instrOfPacket (packetOf cells) with
    | error e => simp [hpacket]
    | ok j => simp [hpacket]

/-- The streams that decode to an instruction: a legal length byte, as many bytes, and a valid record in them. -/
theorem decode_eq_instr_iff {bs rest : List Byte} {i : Instr} :
    decode bs = .instr i rest ↔ ∃ (len : Byte) (cells : List Byte), bs = len :: (cells ++ rest) ∧
      cells.length = len.toNat ∧ lengthError len.toNat = none ∧ instrOfPacket (packetOf cells) = .ok i := by
  constructor
  · intro h
    cases bs with
    | nil => cases h
    | cons len tail =>
      rw [decode] at h
      split at h
      · cases h
      · obtain ⟨hlen, hpacket, rfl⟩ := decodeCells_eq_instr_iff.1 h
        refine ⟨len, tail.take len.toNat, by rw [List.take_append_drop], ?_, hlen, hpacket⟩
        rw [List.length_take]
        omega
  · rintro ⟨len, cells, rfl, hcells, hlen, hpacket⟩
    rw [decode, if_neg (by simp [hcells]), ← hcells, List.take_left, List.drop_left, hcells]
    exact decodeCells_eq_instr_iff.2 ⟨hlen, hpacket, rfl⟩

/-- Five bytes or more are a command byte, a payload and four checksum bytes. -/
theorem exists_frame_parts {cells : List Byte} (h : 5 ≤ cells.length) :
    ∃ (c : Byte) (p tail : List Byte), cells = c :: p ++ tail ∧ tail.length = 4 := by
  cases cells with
  | nil => simp at h
  | cons c bs =>
    refine ⟨c, bs.take (bs.length - 4), bs.drop (bs.length - 4), by simp, ?_⟩
    simp only [List.length_cons] at h
    rw [List.length_drop]
    omega

/-- A valid record comes from its instruction's own frame: the checksum bytes are determined. -/
theorem eq_frameCells {cells : List Byte} {i : Instr} (h : 5 ≤ cells.length)
    (hpacket : instrOfPacket (packetOf cells) = .ok i) : cells = frameCells i := by
  obtain ⟨c, p, tail, rfl, htail⟩ := exists_frame_parts h
  rw [packetOf_append c p tail htail, instrOfPacket_ok_iff] at hpacket
  obtain ⟨hsum, rfl, rfl⟩ := hpacket
  have htail_eq : bytesLe32 (crc32 (i.code :: i.payload)) = tail := by
    rw [beq_iff_eq.1 hsum, bytesLe32_le32Of htail]
  rw [frameCells, htail_eq]

/-- Settles O1: the frame's length byte is legal and its record is the instruction's. -/
theorem decodeOfEncodeIsIdentity : Obligations.DecodeOfEncodeIsIdentity := by
  intro i rest hwf
  have hlen := lengthByte_toNat hwf
  refine decode_eq_instr_iff.2 ⟨_, frameCells i, by rw [encode_eq_cons, List.cons_append], ?_, ?_,
    instrOfPacket_frameCells i⟩
  · rw [hlen, frameCells_length]
  · rw [hlen, lengthError_legal hwf]

/-- Settles O2: the record fixes the bytes after the length byte, and they fix the length byte. -/
theorem encodeOfDecodeIsIdentity : Obligations.EncodeOfDecodeIsIdentity := by
  intro i bs rest h
  obtain ⟨len, cells, rfl, hcells, hlen, hpacket⟩ := decode_eq_instr_iff.1 h
  obtain ⟨hmin, hmax⟩ := (lengthError_eq_none_iff _).1 hlen
  obtain rfl := eq_frameCells (by omega) hpacket
  rw [frameCells_length] at hcells
  have hwf : i.WellFormed := by
    show i.payload.length ≤ 197
    omega
  refine ⟨?_, hwf⟩
  rw [encode_eq_cons, hcells, BitVec.ofNat_toNat, BitVec.setWidth_eq, List.cons_append]

/-- Settles O4: the opcode map in both directions, and the record's flag. -/
theorem opcodeByteIsDecodedWhole : Obligations.OpcodeByteIsDecodedWhole :=
  ⟨instrOf_eq_none_iff, instrOf_eq_some_iff, fun p i h => ((instrOfPacket_ok_iff p i).1 h).1⟩

theorem lengthError_short {n : Nat} (h : n + 1 < 6) : lengthError n = some .shortFrame := by
  rw [lengthError, if_pos (show n + 1 < Config.minFrame from h)]

theorem lengthError_oversize {n : Nat} (h : 197 < n - 5) : lengthError n = some .oversizeFrame := by
  have hmin : ¬ n + 1 < Config.minFrame := by
    have : Config.minFrame = 6 := rfl
    omega
  rw [lengthError, if_neg hmin, if_pos h]

/-- A frame of an illegal length is refused with no buffer cell read (spec/41_frame.md R101, R102). -/
theorem fetch_of_lengthError {s : State} {e : ErrorCode} (h : lengthError s.len.toNat = some e) :
    fetch s = .rejected e (s.setPacket none) := by
  rw [fetch, h]

theorem parseFrame_legal {len : Nat} {cells : List Byte} (h : lengthError len = none) :
    parseFrame len cells = .ok (packetOf cells) := by
  rw [parseFrame, h]

/-- Settles O5: an illegal length decides the fetch, and a legal frame is split by `packetOf`. -/
theorem parseSplitsTheFrame : Obligations.ParseSplitsTheFrame := by
  refine ⟨fun s h => fetch_of_lengthError (lengthError_short h),
    fun s h => fetch_of_lengthError (lengthError_oversize h), fun c b0 b1 b2 b3 p hp => ?_⟩
  rw [parseFrame_legal (lengthError_legal hp), packetOf_append c p [b0, b1, b2, b3] rfl]
  rfl

/-- Settles O3: each frame is evaluated. -/
theorem specFramesDecode : Obligations.SpecFramesDecode := by
  unfold Obligations.SpecFramesDecode
  decide +kernel

end Sys2Proof.Machine

/-! ### The checksum (spec/40_integrity.md) -/

namespace Sys2Proof.Machine

theorem crc32_eq_foldl (data : List Byte) : crc32 data = data.foldl crcFeed Config.crcInit := by
  rw [crc32, crcAccumulate, show Config.crcXorOut = 0 from rfl]
  exact BitVec.xor_zero

theorem crc32_append_singleton (data : List Byte) (b : Byte) : crc32 (data ++ [b]) = crcFeed (crc32 data) b := by
  simp only [crc32_eq_foldl, List.foldl_append, List.foldl_cons, List.foldl_nil]

theorem crcShift_of_msb {acc : Word} (h : acc.getLsbD 31 = true) : crcShift acc = (acc <<< 1) ^^^ 0x04C11DB7 := by
  rw [crcShift, if_pos (by rw [BitVec.msb_eq_getLsbD_last]; exact h)]
  rfl

theorem crcShift_of_not_msb {acc : Word} (h : acc.getLsbD 31 = false) : crcShift acc = acc <<< 1 := by
  rw [crcShift, if_neg (by rw [BitVec.msb_eq_getLsbD_last]; simpa using h)]

/-- Settles O6: the accumulator of no byte, of one more byte, and the two forms of a shift. -/
theorem crcFollowsItsPseudocode : Obligations.CrcFollowsItsPseudocode :=
  ⟨rfl, crc32_append_singleton, fun _ _ => ⟨rfl, rfl⟩, fun _ => ⟨crcShift_of_msb, crcShift_of_not_msb⟩⟩

theorem crcFeedByte_zero (acc : Word) : crcFeedByte acc 0 = crcShifts 8 acc := by
  have hzero : (0 : Byte).setWidth 32 <<< 24 = (0 : Word) := by decide
  rw [crcFeedByte, hzero]
  exact congrArg (crcShifts 8) BitVec.xor_zero

/-- The byte meets no feedback in the first 24 of its 32 shifts, so it may as well enter at the top after them. -/
theorem crcFeed_eq_foldl_bytes (acc : Word) (b : Byte) : crcFeed acc b = [0, 0, 0, b].foldl crcFeedByte acc := by
  calc crcFeed acc b = crcShifts 8 (crcShifts 24 (acc ^^^ b.setWidth 32)) := crcShifts_add 24 8 _
    _ = crcShifts 8 (crcShifts 24 acc ^^^ b.setWidth 32 <<< 24) := by rw [crcShifts_xor, crcShifts_byte]
    _ = crcFeedByte (crcShifts 24 acc) b := rfl
    _ = [0, 0, 0, b].foldl crcFeedByte acc := by
      simp only [List.foldl_cons, List.foldl_nil, crcFeedByte_zero, ← crcShifts_add]

/-- Settles O7: the words agree one by one, from any accumulator. -/
theorem crcEqualsItsBytewiseForm : Obligations.CrcEqualsItsBytewiseForm := by
  intro data
  rw [crc32_eq_foldl, crc32Mpeg2, List.foldl_flatMap]
  congr 1
  funext acc b
  exact crcFeed_eq_foldl_bytes acc b

/-- Two sequences that differ in one byte have different checksums: each step of the computation is injective. -/
theorem crc32_ne_of_byte_ne {pre post : List Byte} {a b : Byte} (h : a ≠ b) :
    crc32 (pre ++ a :: post) ≠ crc32 (pre ++ b :: post) := by
  simp only [crc32_eq_foldl, List.foldl_append, List.foldl_cons]
  exact fun heq => h (crcFeed_inj_right (foldl_crcFeed_inj heq))

/-- Settles O8: the checksum verifies against its own data and against no data that differs in one byte. -/
theorem crcDetectsEverySingleByteChange : Obligations.CrcDetectsEverySingleByteChange :=
  ⟨fun data => beq_self_eq_true (crc32 data), fun _ _ _ _ h => beq_false_of_ne (crc32_ne_of_byte_ne h.symm)⟩

end Sys2Proof.Machine

/-! ### Reception, byte by byte (spec/43_dispatcher.md R147) -/

namespace Sys2Proof.Machine

theorem phaseStep_awaitingFrame {s : State} (hp : s.phase = .awaitingFrame) : phaseStep s = receiveFrame s := by
  rw [phaseStep, hp]

theorem receiveFrame_of_rx_cons {s : State} {b : Byte} {rest : List Byte} (hlt : s.rxcount < s.len.toNat)
    (hx : s.rx = b :: rest) : receiveFrame s = .next (s.takeFrameByte b rest) := by
  rw [receiveFrame, if_pos hlt, hx]

theorem receiveFrame_of_rx_nil {s : State} (hlt : s.rxcount < s.len.toNat) (hx : s.rx = []) :
    receiveFrame s = .fault .noReceiveByte := by
  rw [receiveFrame, if_pos hlt, hx]

theorem receiveFrame_complete {s : State} (h : s.rxcount = s.len.toNat) :
    receiveFrame s = .next (s.enter .dispatch) := by
  rw [receiveFrame, if_neg (by omega)]

theorem storeCell_cell {buf : Vector (Option Byte) Config.rxCap} {k j : Nat} {b : Byte} (hj : j < 202) :
    (storeCell buf k b)[j]? = if j = k then some (some b) else buf[j]? := by
  rw [storeCell_getElem?]
  by_cases h : k = j
  · rw [if_pos h, if_pos (show k < Config.rxCap from h ▸ hj), if_pos h.symm]
  · rw [if_neg h, if_neg (Ne.symm h)]

/-- A byte past RX_CAP is discarded. -/
theorem storeCell_past {buf : Vector (Option Byte) Config.rxCap} {k : Nat} {b : Byte} (hk : 202 ≤ k) :
    storeCell buf k b = buf :=
  Vector.setIfInBounds_eq_of_size_le hk

/-- Settles O15: with no reset due the step is the receive of a frame byte, and `storeCell` is the buffer after it. -/
theorem frameByteIsStoredOrDiscarded : Obligations.FrameByteIsStoredOrDiscarded := by
  intro s hr hp
  have hstep : step s = receiveFrame s.stepped := by
    rw [step_of_resetDue_none hr, phaseStep_awaitingFrame (s.stepped_phase.trans hp)]
  rw [hstep]
  refine ⟨fun b rest hlt hx => ⟨storeCell s.rxbuf s.rxcount b, receiveFrame_of_rx_cons hlt hx,
      fun j hj => storeCell_cell hj, storeCell_past⟩,
    fun hlt hx => receiveFrame_of_rx_nil hlt hx, fun h => receiveFrame_complete h⟩

/-- Settles O16: the steps take the length byte and then as many bytes as it says. -/
theorem wholeFrameIsReceived : Obligations.WholeFrameIsReceived := by
  intro s l bs rest hr hp hx hl
  exact ⟨_, run_whole bs rest l s hr hp hx hl, cellsOf_storeAll bs _⟩

end Sys2Proof.Machine

/-! ### The dispatch of a received frame (spec/43_dispatcher.md R148 to R151) -/

namespace Sys2Proof.Machine

theorem instrOfPacket_badChecksum {p : Packet} (h : p.checksumOk = false) :
    instrOfPacket p = .error .badChecksum := by
  simp [instrOfPacket, h]

theorem instrOfPacket_unknownCommand {p : Packet} (h : p.checksumOk = true)
    (hc : p.command.toNat < 0x51 ∨ 0x5C < p.command.toNat) : instrOfPacket p = .error .unknownCommand := by
  simp [instrOfPacket, h, (instrOf_eq_none_iff p.command p.payload).2 hc]

section Cells

variable {s : State} {cells : List Byte} (hlen : lengthError s.len.toNat = none)
  (hcells : cellsOf s.rxbuf s.len.toNat = some cells)
include hlen hcells

theorem fetch_rejected {e : ErrorCode} (h : instrOfPacket (packetOf cells) = .error e) :
    fetch s = .rejected e (s.parsed cells) := by
  simp only [fetch, hlen, hcells, h]

theorem fetch_instr {i : Instr} (h : instrOfPacket (packetOf cells) = .ok i) :
    fetch s = .instr i (s.parsed cells) := by
  simp only [fetch, hlen, hcells, h]

end Cells

/-- What the parse of a valid frame writes, in the words of the instruction it carries. -/
theorem parsed_eq {s : State} {cells : List Byte} {i : Instr} (h : instrOfPacket (packetOf cells) = .ok i) :
    s.parsed cells = { s with crc := crcAccumulate (i.code :: i.payload), pkt := some (packetOf cells) } := by
  obtain ⟨-, hcode, hpayload⟩ := (instrOfPacket_ok_iff _ _).1 h
  rw [hcode, hpayload]
  rfl

/-- The fetch reads the buffer as the decoder reads the stream. -/
theorem fetch_of_decode {s : State} {cells : List Byte} {i : Instr} (hcells : cellsOf s.rxbuf s.len.toNat = some cells)
    (hd : decode (s.len :: cells) = .instr i []) :
    fetch s = .instr i { s with crc := crcAccumulate (i.code :: i.payload), pkt := some (packetOf cells) } := by
  obtain ⟨len, cells', heq, -, hlen, hpacket⟩ := decode_eq_instr_iff.1 hd
  obtain ⟨rfl, rfl⟩ : s.len = len ∧ cells = cells' := by simpa using heq
  rw [fetch_instr hlen hcells hpacket, parsed_eq hpacket]

theorem step_of_fetch_rejected {s u : State} {e : ErrorCode} (hr : s.resetDue = none) (hp : s.phase = .dispatch)
    (hn : s.point = none) (hf : fetch s.stepped = .rejected e u) : step s = .next (u.raiseNack e) := by
  rw [step_dispatch hr hp hn, hf]

theorem begin_eq_of_fetch {s u : State} {i : Instr} (hn : s.point = none) (hf : fetch s = .instr i u) :
    begin i u = advance (commandPoint i u) u :=
  begin_eq ((fetch_point (e := .badChecksum) (.inr hf)).trans hn)

theorem step_of_fetch_instr {s u : State} {i : Instr} (hr : s.resetDue = none) (hp : s.phase = .dispatch)
    (hn : s.point = none) (hf : fetch s.stepped = .instr i u) : step s = advance (commandPoint i u) u := by
  rw [step_dispatch hr hp hn, hf]
  exact begin_eq_of_fetch (s.stepped_point.trans hn) hf

/-- Settles O13: the fetch gives the instruction, and a command that answers at once ends in its first step. -/
theorem stepRunsTheDecodedInstruction : Obligations.StepRunsTheDecodedInstruction := by
  rintro s u cells i hr hp hn hcells hd rfl
  have hf := fetch_of_decode (s := s.stepped) hcells hd
  refine ⟨step_of_fetch_instr hr hp hn hf, fun c o hpoint => ?_⟩
  rw [step_dispatch hr hp hn, hf]
  show begin i _ = exec i _
  rw [begin, hpoint]

/-- Settles O18: both refusals end the dispatch in its first step, and a parse writes the accumulator besides. -/
theorem framingErrorIsNacked : Obligations.FramingErrorIsNacked := by
  intro s hr hp hn
  refine ⟨fun e he => step_of_fetch_rejected hr hp hn (fetch_of_lengthError (s := s.stepped) he),
    fun cells hlen hcells hsum => ?_⟩
  exact step_of_fetch_rejected hr hp hn
    (fetch_rejected (s := s.stepped) hlen hcells (instrOfPacket_badChecksum hsum))

/-- Settles O19: a record with a command byte outside the table is refused like one with a wrong checksum. -/
theorem unknownCommandIsNacked : Obligations.UnknownCommandIsNacked := by
  intro s cells hr hp hn hlen hcells hsum hc
  exact step_of_fetch_rejected hr hp hn
    (fetch_rejected (s := s.stepped) hlen hcells (instrOfPacket_unknownCommand hsum hc))

end Sys2Proof.Machine

/-! ### Reset (spec/70_reset_and_hazards.md R195) -/

namespace Sys2Proof.Machine

theorem step_of_resetDue {s : State} {enter : Bool} (hr : s.resetDue = some enter) :
    step s = .next (s.stepped.resetSequence enter) := by
  rw [step, hr]

/-- Settles O21: the step is the reset sequence, whatever the phase and the point. -/
theorem resetSequenceLeavesResetValues : Obligations.ResetSequenceLeavesResetValues := by
  intro s enter hr
  exact ⟨s.stepped.resetSequence enter, step_of_resetDue hr, rfl, fun _ hj => unwritten hj, rfl, rfl, rfl, rfl, rfl,
    rfl, rfl, rfl, rfl⟩

/-- Settles O60: the fields of the reset state. -/
theorem resetStateHasItsValues : Obligations.ResetStateHasItsValues :=
  ⟨rfl, fun _ hj => unwritten hj, rfl, rfl, rfl, rfl, rfl⟩

/-- Settles O56: at reset nothing is listed, received or open, and no phase but AwaitingLength is entered. -/
theorem resetMeetsInvariant : Obligations.ResetMeetsInvariant where
  flash := Memory.wf_nil
  prot := rfl
  locks := fun _ _ => ⟨rfl, rfl⟩
  point := fun _ h => nomatch h
  count := fun h => nomatch h
  cells := fun h => nomatch h
  frame := fun h => nomatch h
  packet := fun _ h => nomatch h
  consumed := fun _ _ _ => rfl

end Sys2Proof.Machine

/-! ### A command from its first step to its end (spec/43_dispatcher.md R145) -/

namespace Sys2Proof.Machine

theorem stepped_eq_self {s : State} (hr : s.resetIn = []) : s.stepped = s := by
  rw [State.stepped, hr, List.tail_nil, ← hr]

theorem resetDue_eq_none {s : State} (hr : s.resetIn = []) : s.resetDue = none := by
  rw [State.resetDue, hr]
  rfl

/-- Runs go on alike from states whose next steps are the same. -/
theorem run_succ_congr {s v : State} (n : Nat) (h : step s = step v) : run (n + 1) s = run (n + 1) v := by
  rw [run, run, h]

/-- Outside Dispatch's points a command leaves the block at no point. -/
theorem exec_point {i : Instr} {s t : State} (hn : s.point = none) (h : exec i s = .next t) : t.point = none := by
  rcases exec_next_inv h with ⟨d, o, rfl, -, -⟩ | ⟨lock, failure, body, -, -, ⟨o, u, hu, rfl⟩ | hu⟩
  · rw [State.respond_point, State.drawn_point, hn]
  · rw [State.respond_point, (withUnlocked_sameOutside.1 o u hu).point, hn]
  · obtain ⟨v, e, -, rfl⟩ := withUnlocked_sameOutside.2 t hu
    rfl

/-- The steps of a fetched command reach the end its `exec` gives, or stop in Dispatch where it stops, with nothing
sent. -/
theorem run_reaches_exec {s u : State} {i : Instr} (hr : s.resetIn = []) (hp : s.phase = .dispatch)
    (hn : s.point = none) (hf : fetch s = .instr i u) :
    ∃ n, (∀ t, exec i u = .next t → run n s = .next t) ∧
      (∀ f, exec i u = .fault f → ∃ v, run n s = .next v ∧ v.phase = .dispatch ∧ v.tx = s.tx ∧ step v = .fault f) ∧
      (∀ r, exec i u ≠ .refused r) := by
  obtain ⟨c, k, hu⟩ := fetch_untouched (e := .badChecksum) (.inr hf)
  have hur : u.resetIn = [] := by rw [hu]; exact hr
  have hup : u.phase = .dispatch := by rw [hu]; exact hp
  have hun : u.point = none := by rw [hu]; exact hn
  have hutx : u.tx = s.tx := by rw [hu]
  -- `u` standing at the command's first point takes the step that `s` takes.
  have hstep : step s = step (u.stand (some (commandPoint i u))) := by
    rw [step_of_fetch_instr (resetDue_eq_none hr) hp hn (by rw [stepped_eq_self hr, hf]), step_point hur hup hun]
  obtain ⟨n, hnext, hfault, hrefused⟩ := run_complete _ (commandPoint i u) u (Nat.lt_succ_self _) hur hup hun
  simp only [← exec_eq] at hnext hfault hrefused
  cases n with
  | zero =>
    refine ⟨0, fun t ht => ?_, fun f hf => ⟨s, rfl, hp, rfl, ?_⟩, hrefused⟩
    · have hpoint := congrArg State.point (Host.Outcome.next.inj (hnext t ht))
      simp at hpoint
    · obtain ⟨v, hv, -, -, -, -, hvstep⟩ := hfault f hf
      cases hv
      rw [hstep, hvstep]
  | succ n =>
    rw [← run_succ_congr n hstep] at hnext hfault
    refine ⟨n + 1, fun t ht => ?_, fun f hf => ?_, hrefused⟩
    · rw [hnext t ht, State.stand_none (exec_point hun ht)]
    · obtain ⟨v, hv, hvp, hvtx, -, -, hvstep⟩ := hfault f hf
      exact ⟨v, hv, hvp, hvtx.trans hutx, hvstep⟩

/-- Settles O59: the frame in the buffer is fetched as the instruction it decodes to. -/
theorem stepsReachTheEndOfTheCommand : Obligations.StepsReachTheEndOfTheCommand := by
  rintro s u cells i hr hp hn hcells hd rfl
  exact run_reaches_exec hr hp hn (fetch_of_decode hcells hd)

/-- The state in which an instruction's frame has just been received into `buf` and `rest` stays with the transport. -/
def State.receivedFrame (s : State) (i : Instr) (buf : Vector (Option Byte) Config.rxCap) (rest : List Byte) : State :=
  { s with
    len := BitVec.ofNat 8 (i.payload.length + 5)
    rxcount := (BitVec.ofNat 8 (i.payload.length + 5)).toNat
    rxbuf := buf
    rx := rest
    phase := .dispatch }

/-- An instruction's frame at the receive port is received whole. -/
theorem run_encode {s : State} {i : Instr} {rest : List Byte} (hr : s.resetIn = []) (hp : s.phase = .awaitingLength)
    (hwf : i.WellFormed) (hx : s.rx = encode i ++ rest) :
    ∃ buf, run (i.payload.length + 7) s = .next (s.receivedFrame i buf rest) ∧
      cellsOf buf (i.payload.length + 5) = some (frameCells i) := by
  have hcap : i.payload.length ≤ 197 := hwf
  obtain ⟨buf, hrun, hcells⟩ := wholeFrameIsReceived s _ (frameCells i) rest hr hp
    (by rw [hx, encode_eq_cons, List.cons_append]) (by rw [lengthByte_toNat hwf, frameCells_length])
  rw [frameCells_length] at hrun hcells
  exact ⟨buf, hrun, hcells (by omega)⟩

/-- What is received of an instruction's frame is fetched as that instruction. -/
theorem fetch_receivedFrame {s : State} {i : Instr} {buf : Vector (Option Byte) Config.rxCap} {rest : List Byte}
    (hwf : i.WellFormed) (hcells : cellsOf buf (i.payload.length + 5) = some (frameCells i)) :
    fetch (s.receivedFrame i buf rest) = .instr i { s.receivedFrame i buf rest with
      crc := crcAccumulate (i.code :: i.payload), pkt := some (packetOf (frameCells i)) } := by
  have hlen : (s.receivedFrame i buf rest).len.toNat = i.payload.length + 5 := lengthByte_toNat hwf
  have hlegal : lengthError (s.receivedFrame i buf rest).len.toNat = none := by rw [hlen, lengthError_legal hwf]
  have hbuf : cellsOf (s.receivedFrame i buf rest).rxbuf (s.receivedFrame i buf rest).len.toNat =
      some (frameCells i) := by rw [hlen]; exact hcells
  rw [fetch_instr hlegal hbuf (instrOfPacket_frameCells i), parsed_eq (instrOfPacket_frameCells i)]

/-- Settles O17: the frame is received whole, and what is in the buffer then is fetched and run. -/
theorem sentInstructionIsRun : Obligations.SentInstructionIsRun := by
  intro s i rest hr hp hn hwf hx
  obtain ⟨buf, hrun, hcells⟩ := run_encode hr hp hwf hx
  refine ⟨s.receivedFrame i buf rest, hrun, rfl, rfl, rfl, rfl, rfl, rfl, rfl, rfl, ?_⟩
  obtain ⟨hsum, hcode, hpayload⟩ := (instrOfPacket_ok_iff _ _).1 (instrOfPacket_frameCells i)
  obtain ⟨n, hnext, hfault, -⟩ := run_reaches_exec (s := s.receivedFrame i buf rest) hr rfl hn
    (fetch_receivedFrame hwf hcells)
  refine ⟨packetOf (frameCells i), _, n, hcode.symm, hpayload.symm, hsum, rfl, hnext, fun f hf => ?_⟩
  obtain ⟨w, hw, -, -, hstep⟩ := hfault f hf
  exact ⟨w, hw, hstep⟩

end Sys2Proof.Machine

/-! ### Every step keeps the invariant (spec/10_state.md, spec/20_memory.md) -/

namespace Sys2Proof.Machine

/-- What holds at a point does not depend on the resets to come. -/
theorem Point.inv_stepped {p : Point} {s : State} (h : p.inv s) : p.inv s.stepped := by
  cases p <;> exact h

theorem advance_responding (c : Byte) (o : ArmOutcome) (s : State) :
    advance (.responding c o) s = .next ((s.respond c o).stand none) := rfl

/-- Outside Dispatch the block stands at no point. -/
theorem State.Inv.point_none {s : State} (h : s.Inv) (hp : s.phase ≠ .dispatch) : s.point = none := by
  cases hpoint : s.point with
  | none => rfl
  | some p => exact absurd (h.point p hpoint).1 hp

/-- Between commands, as `Inv` says it: no point, both locks closed, no packet. -/
theorem State.Inv.between_commands {s : State} (h : s.Inv)
    (hp : s.phase = .awaitingLength ∨ s.phase = .awaitingFrame) :
    s.point = none ∧ s.lockedUp ∧ s.pkt = none := by
  have hn : s.point = none := h.point_none (by rcases hp with hp | hp <;> rw [hp] <;> simp)
  have hjumped : ∀ a, s.phase ≠ .jumped a := by rcases hp with hp | hp <;> simp [hp]
  have hhalted : ∀ r, s.phase ≠ .halted r := by rcases hp with hp | hp <;> simp [hp]
  exact ⟨hn, h.locks hhalted hn, h.consumed hjumped hhalted hn⟩

theorem State.Inv.lockedUp_of_dispatch {s : State} (h : s.Inv) (hp : s.phase = .dispatch) (hn : s.point = none) :
    s.lockedUp :=
  h.locks (by simp [hp]) hn

/-- A legal state between commands, from what its phase asks of the receive path. -/
theorem State.inv_between_commands {s : State} (hw : Memory.wf s.flash ∧ s.prot.wf = true)
    (hrest : s.point = none ∧ s.lockedUp ∧ s.pkt = none)
    (hcells : s.phase = .awaitingFrame → s.rxcount ≤ s.len.toNat ∧ cellsWritten s.rxbuf s.rxcount)
    (hframe : s.phase = .dispatch → s.rxcount = s.len.toNat ∧ cellsWritten s.rxbuf s.len.toNat) : s.Inv := by
  obtain ⟨hn, hl, hk⟩ := hrest
  exact {
    flash := hw.1
    prot := hw.2
    locks := fun _ _ => hl
    point := fun p h => by simp [hn] at h
    count := fun h => (hcells h).1
    cells := fun h => (hcells h).2
    frame := hframe
    packet := fun p h => by simp [hk] at h
    consumed := fun _ _ _ => hk }

theorem beginFrame_inv {s : State} (l : Byte) (rest : List Byte) (h : s.Inv) (hp : s.phase = .awaitingLength) :
    (s.beginFrame l rest).Inv :=
  State.inv_between_commands ⟨h.flash, h.prot⟩ (h.between_commands (.inl hp))
    (fun _ => ⟨Nat.zero_le _, fun _ _ hi => absurd hi (Nat.not_lt_zero _)⟩) (fun hd => by cases hd)

theorem takeFrameByte_inv {s : State} (b : Byte) (rest : List Byte) (h : s.Inv) (hp : s.phase = .awaitingFrame)
    (hlt : s.rxcount < s.len.toNat) : (s.takeFrameByte b rest).Inv :=
  State.inv_between_commands ⟨h.flash, h.prot⟩ (h.between_commands (.inr hp))
    (fun _ => ⟨hlt, cellsWritten_store (h.cells hp) b⟩) (fun hd => absurd (hp.symm.trans hd) (by simp))

theorem enterDispatch_inv {s : State} (h : s.Inv) (hp : s.phase = .awaitingFrame) (hlt : ¬ s.rxcount < s.len.toNat) :
    (s.enter .dispatch).Inv := by
  have hcount : s.rxcount = s.len.toNat := by
    have := h.count hp
    omega
  exact State.inv_between_commands ⟨h.flash, h.prot⟩ (h.between_commands (.inr hp)) (fun hd => by cases hd)
    (fun _ => ⟨hcount, hcount ▸ h.cells hp⟩)

theorem State.Inv.stepped {s : State} (h : s.Inv) : s.stepped.Inv where
  flash := h.flash
  prot := h.prot
  locks := h.locks
  point := fun p hpoint => by
    obtain ⟨hp, hinv, hcommand⟩ := h.point p hpoint
    exact ⟨hp, Point.inv_stepped hinv, hcommand⟩
  count := h.count
  cells := h.cells
  frame := h.frame
  packet := h.packet
  consumed := h.consumed

theorem advance_from_point_inv {s t : State} {p : Point} (h : s.Inv) (hp : s.phase = .dispatch)
    (hpoint : s.point = some p) (ha : advance p (s.stand none) = .next t) : t.Inv := by
  obtain ⟨-, hinv, hcommand⟩ := h.point p hpoint
  exact advance_inv (s := s.stand none) ⟨h.flash, h.prot⟩ (Point.inv_stand hinv) hp rfl (h.frame hp) h.packet
    hcommand ha

theorem fetch_rejected_inv {s u : State} {e : ErrorCode} (h : s.Inv) (hp : s.phase = .dispatch) (hn : s.point = none)
    (hf : fetch s = .rejected e u) : (u.raiseNack e).Inv := by
  obtain ⟨c, k, rfl⟩ := fetch_untouched (i := .getVersion []) (.inl hf)
  exact State.raiseNack_inv e ⟨h.flash, h.prot⟩ (h.lockedUp_of_dispatch hp hn) hn

/-- The first step of a command with its record in `pkt` leaves a legal state. -/
theorem advance_commandPoint_inv {u t : State} {i : Instr} (hw : Memory.wf u.flash ∧ u.prot.wf = true)
    (hl : u.lockedUp) (hp : u.phase = .dispatch) (hn : u.point = none)
    (hframe : u.rxcount = u.len.toNat ∧ cellsWritten u.rxbuf u.len.toNat) (hpacket : ∀ k, u.pkt = some k → k.wf = true)
    (hcode : ∃ k, u.pkt = some k ∧ k.command = i.code) (ha : advance (commandPoint i u) u = .next t) : t.Inv := by
  rcases commandPoint_inv (i := i) hl with ⟨o, hpoint, -⟩ | ⟨hinv, hcommand⟩
  · rw [hpoint, advance_responding] at ha
    cases ha
    rw [State.stand_none ((State.respond_point ..).trans hn)]
    exact State.respond_inv i.code o hw (.inl hl) hpacket hn
  · obtain ⟨k, hk, hkcode⟩ := hcode
    exact advance_inv hw hinv hp hn hframe hpacket ⟨k, hk, by rw [hcommand, hkcode]⟩ ha

theorem begin_inv {s u t : State} {i : Instr} (h : s.Inv) (hp : s.phase = .dispatch) (hn : s.point = none)
    (hf : fetch s = .instr i u) (hb : begin i u = .next t) : t.Inv := by
  rw [begin_eq_of_fetch hn hf] at hb
  obtain ⟨c, k, rfl, hcode, hk⟩ := fetch_packet hf
  exact advance_commandPoint_inv (u := { s with crc := c, pkt := some k }) ⟨h.flash, h.prot⟩
    (h.lockedUp_of_dispatch hp hn) hp hn (h.frame hp) (fun q hq => by cases hq; exact hk) ⟨k, rfl, hcode⟩ hb

/-- Settles O57: a reset leaves a legal state, and so does each of the steps a phase can choose. -/
theorem stepKeepsInvariant : Obligations.StepKeepsInvariant := by
  intro s t hs h
  have hs' := hs.stepped
  rcases step_next_inv h with ⟨e, -, rfl⟩ | ⟨-, hphase⟩
  · exact State.resetSequence_inv e ⟨hs'.flash, hs'.prot⟩
  rcases hphase with ⟨hp, l, rest, -, rfl⟩ | ⟨hp, hlt, b, rest, -, rfl⟩ | ⟨hp, hlt, rfl⟩ | ⟨hp, hdispatch⟩
  · exact beginFrame_inv l rest hs' hp
  · exact takeFrameByte_inv b rest hs' hp hlt
  · exact enterDispatch_inv hs' hp hlt
  rcases hdispatch with ⟨p, hpoint, ha⟩ | ⟨hn, ⟨e, u, hf, rfl⟩ | ⟨i, u, hf, hb⟩⟩
  · exact advance_from_point_inv hs' hp hpoint ha
  · exact fetch_rejected_inv hs' hp hn hf
  · exact begin_inv hs' hp hn hf hb

theorem run_keeps_inv {n : Nat} {s t : State} (hs : s.Inv) (h : run n s = .next t) : t.Inv := by
  induction n generalizing s with
  | zero =>
    cases h
    exact hs
  | succ n ih =>
    rw [run] at h
    cases hstep : step s with
    | next u => exact ih (stepKeepsInvariant s u hs hstep) (by rwa [hstep] at h)
    | fault f => rw [hstep] at h; cases h
    | refused r => rw [hstep] at h; cases h

end Sys2Proof.Machine

/-! ### Where a legal state stops (spec/43_dispatcher.md R154, spec/60_exceptions.md R186) -/

namespace Sys2Proof.Machine

theorem advance_next_or_unanswered {p : Point} {s : State} (hp : p.inv s) :
    (∃ t, advance p s = .next t) ∨ ∃ r, advance p s = .fault (.portNeverAnswers r) := by
  unfold advance
  cases ht : tick p s with
  | next x => exact .inl ⟨_, rfl⟩
  | fault f =>
    obtain ⟨r, rfl⟩ := tick_stop hp ht
    exact .inr ⟨r, rfl⟩
  | refused r => exact absurd ht (tick_not_refused p s r)

theorem advance_commandPoint_next_or_unanswered {i : Instr} {s : State} (hl : s.lockedUp) :
    (∃ t, advance (commandPoint i s) s = .next t) ∨
      ∃ r, advance (commandPoint i s) s = .fault (.portNeverAnswers r) := by
  rcases commandPoint_inv (i := i) hl with ⟨o, hpoint, -⟩ | ⟨hinv, -⟩
  · rw [hpoint]
    exact .inl ⟨_, rfl⟩
  · exact advance_next_or_unanswered hinv

/-- In Dispatch only a request that is never answered stops a legal state. -/
theorem dispatch_next_or_unanswered {s : State} (hs : s.Inv) (hr : s.resetDue = none) (hp : s.phase = .dispatch) :
    (∃ t, step s = .next t) ∨ ∃ r, step s = .fault (.portNeverAnswers r) := by
  cases hpoint : s.point with
  | some p =>
    rw [step_at hr hp hpoint]
    obtain ⟨-, hinv, -⟩ := hs.point p hpoint
    exact advance_next_or_unanswered (Point.inv_stand (Point.inv_stepped hinv))
  | none =>
    rcases fetch_cases s.stepped with ⟨e, -, hf⟩ | ⟨-, ⟨hunwritten, -⟩ | ⟨cells, -, ⟨e, -, hf⟩ | ⟨i, -, hf⟩⟩⟩
    · exact .inl ⟨_, step_of_fetch_rejected hr hp hpoint hf⟩
    · obtain ⟨cells, hcells⟩ := cellsOf_written (hs.stepped.frame hp).2
      rw [hunwritten] at hcells
      cases hcells
    · exact .inl ⟨_, step_of_fetch_rejected hr hp hpoint hf⟩
    · rw [step_of_fetch_instr hr hp hpoint hf]
      exact advance_commandPoint_next_or_unanswered (hs.lockedUp_of_dispatch hp hpoint)

/-- Settles O58: each phase has its next state or its own stop. -/
theorem invariantStatesStopOnlyWhereTheSpecDoes : Obligations.InvariantStatesStopOnlyWhereTheSpecDoes := by
  intro s hs
  cases hr : s.resetDue with
  | some e => exact .inl ⟨_, step_of_resetDue hr⟩
  | none =>
    have hstep := step_of_resetDue_none hr
    cases hp : s.phase with
    | inactive => exact .inr ⟨_, hstep.trans (phaseStep_inactive hp), rfl⟩
    | jumped a => exact .inr ⟨_, hstep.trans (phaseStep_jumped hp), rfl⟩
    | halted r => exact .inr ⟨_, hstep.trans (phaseStep_halted hp), rfl⟩
    | awaitingLength =>
      rw [phaseStep_awaitingLength (s.stepped_phase.trans hp)] at hstep
      cases hx : s.stepped.rx with
      | nil => exact .inr ⟨_, hstep.trans (receiveLength_of_rx_nil hx), rfl⟩
      | cons l rest => exact .inl ⟨_, hstep.trans (receiveLength_of_rx_cons hx)⟩
    | awaitingFrame =>
      rw [phaseStep_awaitingFrame (s.stepped_phase.trans hp)] at hstep
      rcases (hs.stepped.count hp).lt_or_eq with hlt | heq
      · cases hx : s.stepped.rx with
        | nil => exact .inr ⟨_, hstep.trans (receiveFrame_of_rx_nil hlt hx), rfl⟩
        | cons b rest => exact .inl ⟨_, hstep.trans (receiveFrame_of_rx_cons hlt hx)⟩
      · exact .inl ⟨_, hstep.trans (receiveFrame_complete heq)⟩
    | dispatch =>
      rcases dispatch_next_or_unanswered hs hr hp with h | ⟨r, h⟩
      · exact .inl h
      · exact .inr ⟨_, h, rfl⟩

theorem resetDue_none_of_fault {s : State} {f : Fault} (h : step s = .fault f) : s.resetDue = none := by
  cases hr : s.resetDue with
  | none => rfl
  | some e =>
    rw [step_of_resetDue hr] at h
    cases h

theorem dispatch_fault_unanswered {s : State} {f : Fault} (hs : s.Inv) (hp : s.phase = .dispatch)
    (h : step s = .fault f) : ∃ r, f = .portNeverAnswers r := by
  rcases dispatch_next_or_unanswered hs (resetDue_none_of_fault h) hp with ⟨t, h'⟩ | ⟨r, h'⟩ <;> rw [h] at h' <;>
    cases h'
  exact ⟨r, rfl⟩

end Sys2Proof.Machine

/-! ### Responses (spec/43_dispatcher.md R152, R153, R155) -/

namespace Sys2Proof.Machine

/-- A response is nothing on a halt, and otherwise `7F` or an ACK of the command. -/
theorem respond_sends (s : State) (c : Byte) (o : ArmOutcome) :
    (s.respond c o).phase ≠ .dispatch ∧
      (((∃ r, (s.respond c o).phase = .halted r) ∧ (s.respond c o).tx = s.tx) ∨
       ((∀ r, (s.respond c o).phase ≠ .halted r) ∧
        ((s.respond c o).tx = s.tx ++ [0x7F] ∨ ∃ body, (s.respond c o).tx = s.tx ++ 0xA5 :: c :: body))) := by
  cases o with
  | ok body => exact ⟨nofun, .inr ⟨nofun, .inr ⟨body, rfl⟩⟩⟩
  | validationError e => exact ⟨nofun, .inr ⟨nofun, .inl rfl⟩⟩
  | operationFailure e => exact ⟨nofun, .inr ⟨nofun, .inl rfl⟩⟩
  | jumpTo a => exact ⟨nofun, .inr ⟨nofun, .inr ⟨[], rfl⟩⟩⟩
  | fatal r => exact ⟨nofun, .inl ⟨⟨r, rfl⟩, rfl⟩⟩

/-- A command that no reset cuts short ends in its response, with nothing sent before it. -/
theorem exec_next_respond {i : Instr} {s t : State} (hn : s.noResetDuringRequest) (h : exec i s = .next t) :
    ∃ (v : State) (o : ArmOutcome), t = v.respond i.code o ∧ v.tx = s.tx := by
  rcases exec_next_inv h with ⟨d, o, rfl, -, -⟩ | ⟨lock, failure, body, -, -, ⟨o, u, hu, rfl⟩ | hu⟩
  · exact ⟨_, o, rfl, rfl⟩
  · exact ⟨u, o, rfl, (withUnlocked_sameOutside.1 o u hu).tx⟩
  · exact absurd hu (withUnlocked_no_reset hn)

/-- Settles O54: a refused frame is answered in one step; the steps of a fetched command reach its response, or a request
that is never answered. -/
theorem exactlyOneResponse : Obligations.ExactlyOneResponse := by
  intro s hs hr hnoreset hp hn
  have hdue := resetDue_eq_none hr
  cases hf : fetch s with
  | stopped f =>
    obtain ⟨cells, hcells⟩ := cellsOf_written (hs.frame hp).2
    rcases fetch_cases s with ⟨e, -, hf'⟩ | ⟨-, ⟨hunwritten, -⟩ | ⟨cells', -, ⟨e, -, hf'⟩ | ⟨i, -, hf'⟩⟩⟩
    · rw [hf] at hf'; cases hf'
    · rw [hunwritten] at hcells; cases hcells
    · rw [hf] at hf'; cases hf'
    · rw [hf] at hf'; cases hf'
  | rejected e u =>
    obtain ⟨c, k, rfl⟩ := fetch_untouched (i := .getVersion []) (.inl hf)
    have hstep := step_of_fetch_rejected hdue hp hn (by rw [stepped_eq_self hr]; exact hf)
    exact ⟨1, .inl ⟨_, run_succ hstep, nofun, .inr ⟨nofun, .inl rfl⟩⟩⟩
  | instr i u =>
    obtain ⟨n, hnext, hfault, hrefused⟩ := run_reaches_exec hr hp hn hf
    obtain ⟨c, k, rfl⟩ := fetch_untouched (e := .badChecksum) (.inr hf)
    refine ⟨n, ?_⟩
    cases hexec : exec i { s with crc := c, pkt := k } with
    | next t =>
      obtain ⟨v, o, rfl, htx⟩ := exec_next_respond (by exact hnoreset) hexec
      obtain ⟨hphase, hsent⟩ := respond_sends v i.code o
      rw [htx] at hsent
      refine .inl ⟨_, hnext _ hexec, hphase, ?_⟩
      rcases hsent with hhalt | ⟨hhalt, hnack | ⟨body, hack⟩⟩
      · exact .inl hhalt
      · exact .inr ⟨hhalt, .inl hnack⟩
      · exact .inr ⟨hhalt, .inr ⟨i, _, body, rfl, hack⟩⟩
    | fault f =>
      obtain ⟨v, hrun, hvp, hvtx, hstep⟩ := hfault f hexec
      obtain ⟨r, rfl⟩ := dispatch_fault_unanswered (run_keeps_inv hs hrun) hvp hstep
      exact .inr ⟨v, r, hrun, hvp, hvtx, hstep⟩
    | refused r => exact absurd hexec (hrefused r)

end Sys2Proof.Machine

/-! ### What one step may do (spec/43_dispatcher.md R145, R155, R156, spec/42_flash.md R118) -/

namespace Sys2Proof.Machine

/-- The checks of a command lead to no point past its unlock. -/
theorem commandPoint_ne_working (i : Instr) (s : State) (c : Byte) (lock : Lock) (failure : ErrorCode)
    (body : List PortRequest) : commandPoint i s ≠ .working c lock failure body := by
  rcases commandPoint_shape i s with ⟨o, hpoint, -⟩ | ⟨p, addr, n, -, -, hpoint⟩ | ⟨l, f, b, -, -, hpoint⟩ <;>
    rw [hpoint]
  · nofun
  · cases n <;> nofun
  · nofun

/-- The first step of a command changes neither flash nor protection. -/
theorem advance_commandPoint_writes_nothing {i : Instr} {s t : State} (hl : s.lockedUp)
    (ha : advance (commandPoint i s) s = .next t) : t.flash = s.flash ∧ t.prot = s.prot := by
  rcases commandPoint_inv (i := i) hl with ⟨o, hpoint, -⟩ | ⟨hinv, -⟩
  · rw [hpoint, advance_responding] at ha
    cases ha
    exact ⟨respond_flash _ _ _, respond_prot _ _ _⟩
  · obtain ⟨q, u, ht, rfl⟩ := advance_next_inv ha
    obtain ⟨hflash, hprot⟩ := tick_writes hinv ht
    refine ⟨hflash.resolve_right ?_, hprot.resolve_right ?_⟩ <;>
    · rintro ⟨c, f, r, rs, hpoint⟩
      exact commandPoint_ne_working _ _ _ _ _ _ hpoint

/-- Outside the points of a command no step changes flash or protection. -/
theorem step_writes_only_at_point {s t : State} (hs : s.Inv) (h : step s = .next t) :
    (t.flash = s.flash ∧ t.prot = s.prot) ∨
      ∃ p, s.point = some p ∧ advance p (s.stepped.stand none) = .next t := by
  rcases step_next_inv h with ⟨e, -, rfl⟩ | ⟨-, hphase⟩
  · exact .inl ⟨rfl, rfl⟩
  rcases hphase with ⟨-, l, rest, -, rfl⟩ | ⟨-, -, b, rest, -, rfl⟩ | ⟨-, -, rfl⟩ | ⟨hp, hdispatch⟩
  · exact .inl ⟨rfl, rfl⟩
  · exact .inl ⟨rfl, rfl⟩
  · exact .inl ⟨rfl, rfl⟩
  rcases hdispatch with ⟨p, hpoint, ha⟩ | ⟨hn, ⟨e, u, hf, rfl⟩ | ⟨i, u, hf, hb⟩⟩
  · exact .inr ⟨p, hpoint, ha⟩
  · obtain ⟨c, k, rfl⟩ := fetch_untouched (i := .getVersion []) (.inl hf)
    exact .inl ⟨rfl, rfl⟩
  · rw [begin_eq_of_fetch (s.stepped_point.trans hn) hf] at hb
    obtain ⟨c, k, rfl⟩ := fetch_untouched (e := .badChecksum) (.inr hf)
    exact .inl (advance_commandPoint_writes_nothing (s := { s.stepped with crc := c, pkt := k })
      (hs.lockedUp_of_dispatch hp hn) hb)

/-- A step that changes flash or protection makes a request under the lock of the command in the parse record. -/
theorem step_writes {s t : State} (hs : s.Inv) (h : step s = .next t) :
    (t.flash ≠ s.flash → s.phase = .dispatch ∧ (∃ c failure r rs, s.point = some (.working c .flash failure (r :: rs))) ∧
      ∃ k, s.pkt = some k ∧ lockOf k.command = some .flash) ∧
    (t.prot ≠ s.prot → s.phase = .dispatch ∧ (∃ c failure r rs, s.point = some (.working c .option failure (r :: rs))) ∧
      ∃ k, s.pkt = some k ∧ lockOf k.command = some .option) := by
  rcases step_writes_only_at_point hs h with ⟨hflash, hprot⟩ | ⟨p, hpoint, ha⟩
  · exact ⟨fun h => absurd hflash h, fun h => absurd hprot h⟩
  obtain ⟨hp, hinv, k, hk, hcommand⟩ := hs.point p hpoint
  obtain ⟨q, u, ht, rfl⟩ := advance_next_inv ha
  obtain ⟨hflash, hprot⟩ := tick_writes (Point.inv_stand (Point.inv_stepped hinv)) ht
  have hlock : ∀ {lock : Lock}, (∃ c f r rs, p = .working c lock f (r :: rs)) →
      s.phase = .dispatch ∧ (∃ c failure r rs, s.point = some (.working c lock failure (r :: rs))) ∧
        ∃ k, s.pkt = some k ∧ lockOf k.command = some lock := by
    rintro lock ⟨c, f, r, rs, rfl⟩
    obtain ⟨-, hc, -, -⟩ := hinv
    cases hcommand
    exact ⟨hp, ⟨_, f, r, rs, hpoint⟩, k, hk, hc⟩
  exact ⟨fun h => hlock (hflash.resolve_left h), fun h => hlock (hprot.resolve_left h)⟩

/-- Settles O53: the two locks' commands, by their codes. -/
theorem onlyTheFlashManagerWrites : Obligations.OnlyTheFlashManagerWrites := by
  intro s t hs h
  obtain ⟨hflash, hprot⟩ := step_writes hs h
  refine ⟨fun hne => ?_, fun hne => ?_⟩
  · obtain ⟨hp, hpoint, k, hk, hlock⟩ := hflash hne
    exact ⟨hp, hpoint, k, hk, lockOf_flash hlock⟩
  · obtain ⟨hp, hpoint, k, hk, hlock⟩ := hprot hne
    exact ⟨hp, hpoint, k, hk, lockOf_option hlock⟩

/-- A step from a point receives nothing, and sends nothing with a request or if the block stays in Dispatch. -/
theorem advance_sends {p : Point} {s t : State} (hn : s.noResetDuringRequest) (hp : s.phase = .dispatch)
    (ha : advance p s = .next t) :
    t.rx = s.rx ∧ (t.requests = s.requests ∨ ∃ r, t.requests = s.requests ++ [r] ∧ t.tx = s.tx) ∧
      (t.phase = .dispatch → t.tx = s.tx) := by
  obtain ⟨q, u, ht, rfl⟩ := advance_next_inv ha
  obtain ⟨hstays, hrx, hrequests, -⟩ := tick_sends hn ht
  exact ⟨hrx, hrequests, fun h => (hstays h).resolve_right (absurd hp)⟩

/-- Settles O55: a receive step, the move to Dispatch, the NACK of a frame, or a step from a point. -/
theorem oneActionAStep : Obligations.OneActionAStep := by
  intro s t hr hn h
  rcases step_next_inv h with ⟨e, he, -⟩ | ⟨-, hphase⟩
  · rw [hr] at he
    cases he
  rcases hphase with ⟨hp, l, rest, hx, rfl⟩ | ⟨hp, -, b, rest, hx, rfl⟩ | ⟨hp, -, rfl⟩ | ⟨hp, hdispatch⟩
  · exact ⟨.inr ⟨l, hx, .inl hp⟩, .inl rfl, fun _ => rfl, fun _ => rfl⟩
  · exact ⟨.inr ⟨b, hx, .inr hp⟩, .inl rfl, fun _ => rfl, fun _ => rfl⟩
  · exact ⟨.inl rfl, .inl rfl, fun _ => rfl, fun _ => rfl⟩
  rcases hdispatch with ⟨p, -, ha⟩ | ⟨hpoint, ⟨e, u, hf, rfl⟩ | ⟨i, u, hf, hb⟩⟩
  · obtain ⟨hrx, hrequests, hstays⟩ := advance_sends (s := s.stepped.stand none) hn hp ha
    exact ⟨.inl hrx, hrequests.imp_right (⟨hp, ·⟩), absurd hp, hstays⟩
  · obtain ⟨c, k, rfl⟩ := fetch_untouched (i := .getVersion []) (.inl hf)
    exact ⟨.inl rfl, .inl rfl, absurd hp, nofun⟩
  · rw [begin_eq_of_fetch (s.stepped_point.trans hpoint) hf] at hb
    obtain ⟨c, k, rfl⟩ := fetch_untouched (e := .badChecksum) (.inr hf)
    obtain ⟨hrx, hrequests, hstays⟩ := advance_sends (s := { s.stepped with crc := c, pkt := k }) hn hp hb
    exact ⟨.inl hrx, hrequests.imp_right (⟨hp, ·⟩), absurd hp, hstays⟩

theorem respond_phase_eq_jumped {s : State} {c : Byte} {o : ArmOutcome} {a : Word}
    (h : (s.respond c o).phase = .jumped a) : o = .jumpTo a := by
  cases o <;> cases h
  rfl

/-- From a point of a legal state no step jumps: the outcomes decided there are no jumps. -/
theorem advance_phase_ne_jumped {p : Point} {s t : State} {a : Word} (hinv : p.inv s)
    (hw : Memory.wf s.flash ∧ s.prot.wf = true) (hp : s.phase = .dispatch) (ha : advance p s = .next t) :
    t.phase ≠ .jumped a := by
  obtain ⟨q, u, ht, rfl⟩ := advance_next_inv ha
  rw [State.stand_phase]
  obtain ⟨-, ⟨q', rfl, -, -⟩ | ⟨-, v, e, rfl⟩ | ⟨-, c, o, rfl, rfl⟩ | ⟨-, e, -, rfl⟩⟩ := tick_inv hinv hw ht
  · obtain ⟨hsame, -, -⟩ := tick_same ht
    rw [hsame.phase, hp]
    nofun
  · cases e <;> nofun
  · intro hjump
    obtain rfl := respond_phase_eq_jumped hjump
    rcases hinv with ⟨h, -⟩ | ⟨-, ⟨body, h⟩ | ⟨e, h, -⟩⟩ <;> cases h
  · nofun

theorem isValidJumpTarget_iff (a : Nat) : isValidJumpTarget a = true ↔ classify a ≠ .unknown := by
  simp [isValidJumpTarget]

theorem addressOperand_some {p : List Byte} {a : Word} (h : addressOperand p = some a) :
    ∃ b0 b1 b2 b3, p = [b0, b1, b2, b3] ∧ a = le32 b0 b1 b2 b3 := by
  have hlen : p.length = 4 := by
    by_contra hne
    rw [addressOperand_length hne] at h
    cases h
  match p, hlen with
  | [b0, b1, b2, b3], _ => exact ⟨b0, b1, b2, b3, rfl, (Option.some.inj h).symm⟩

/-- The first step of a command jumps only for a JUMP_TO_ADDRESS to a valid target. -/
theorem advance_commandPoint_jumped {i : Instr} {s t : State} {a : Word} (hl : s.lockedUp)
    (hw : Memory.wf s.flash ∧ s.prot.wf = true) (hp : s.phase = .dispatch)
    (ha : advance (commandPoint i s) s = .next t) (hjump : t.phase = .jumped a) :
    ∃ b0 b1 b2 b3, i = .jumpToAddress [b0, b1, b2, b3] ∧ a = le32 b0 b1 b2 b3 ∧ classify a.toNat ≠ .unknown := by
  rcases commandPoint_inv (i := i) hl with ⟨o, hpoint, ho⟩ | ⟨hinv, -⟩
  · rw [hpoint, advance_responding] at ha
    cases ha
    obtain rfl := respond_phase_eq_jumped hjump
    rcases ho with ⟨e, h, -⟩ | ⟨body, h⟩ | ⟨p, a', rfl, hoperand, hvalid, h⟩
    · cases h
    · cases h
    · cases h
      obtain ⟨b0, b1, b2, b3, rfl, rfl⟩ := addressOperand_some hoperand
      exact ⟨b0, b1, b2, b3, rfl, rfl, (isValidJumpTarget_iff _).1 hvalid⟩
  · exact absurd hjump (advance_phase_ne_jumped hinv hw hp ha)

/-- Settles O28: of all steps only the first of a command can jump. -/
theorem onlyAValidatedJumpLeaves : Obligations.OnlyAValidatedJumpLeaves := by
  intro s t a hs h hjump
  rcases step_next_inv h with ⟨e, -, rfl⟩ | ⟨-, hphase⟩
  · cases e <;> cases hjump
  rcases hphase with ⟨-, l, rest, -, rfl⟩ | ⟨hp, -, b, rest, -, rfl⟩ | ⟨-, -, rfl⟩ | ⟨hp, hdispatch⟩
  · cases hjump
  · exact absurd (hp.symm.trans hjump) nofun
  · cases hjump
  rcases hdispatch with ⟨p, hpoint, ha⟩ | ⟨hn, ⟨e, u, -, rfl⟩ | ⟨i, u, hf, hb⟩⟩
  · obtain ⟨-, hinv, -⟩ := hs.point p hpoint
    exact absurd hjump (advance_phase_ne_jumped (s := s.stepped.stand none)
      (Point.inv_stand (Point.inv_stepped hinv)) ⟨hs.flash, hs.prot⟩ hp ha)
  · cases hjump
  · rw [begin_eq_of_fetch (s.stepped_point.trans hn) hf] at hb
    obtain ⟨c, k, rfl⟩ := fetch_untouched (e := .badChecksum) (.inr hf)
    obtain ⟨b0, b1, b2, b3, rfl, ha, hregion⟩ := advance_commandPoint_jumped
      (s := { s.stepped with crc := c, pkt := k }) (hs.lockedUp_of_dispatch hp hn) ⟨hs.flash, hs.prot⟩ hp hb hjump
    exact ⟨hp, hn, b0, b1, b2, b3, _, hf, ha, hregion⟩

end Sys2Proof.Machine

/-! ### The classifier and the sectors (spec/20_memory.md R42 to R51) -/

namespace Sys2Proof.Machine

theorem classify_primaryRam_iff (a : Nat) : classify a = .primaryRam ↔ 0x20000000 ≤ a ∧ a ≤ 0x2001BFFF := by
  rw [classify_eq]
  split_ifs <;> simp <;> omega

theorem classify_secondaryRam_iff (a : Nat) : classify a = .secondaryRam ↔ 0x2001C000 ≤ a ∧ a ≤ 0x2001FFFF := by
  rw [classify_eq]
  split_ifs <;> simp <;> omega

theorem classify_backupRam_iff (a : Nat) : classify a = .backupRam ↔ 0x40024000 ≤ a ∧ a ≤ 0x40024FFF := by
  rw [classify_eq]
  split_ifs <;> simp <;> omega

/-- Settles O9: one equivalence a region, and the regions end below 2^32. -/
theorem classifyFollowsTheRegionTable : Obligations.ClassifyFollowsTheRegionTable := by
  intro a
  refine ⟨classify_nonVolatile_iff a, classify_primaryRam_iff a, classify_secondaryRam_iff a,
    classify_backupRam_iff a, fun ha => ?_⟩
  by_contra h
  exact absurd (classify_lt h) (by omega)

theorem sectorFor_eq_none_iff (n : Nat) : sectorFor n = none ↔ 8 ≤ n := by
  rw [← Option.isNone_iff_eq_none, sectorFor_isNone_iff, show Config.numSectors = 8 from rfl]

theorem sectorFor_some {k : Nat} (hk : k < 8) : ∃ x, sectorFor k = some x := by
  rw [← Option.ne_none_iff_exists', Ne, sectorFor_eq_none_iff]
  omega

theorem sectorBase_of_sectorFor {k : Nat} {x : FlashSector} (h : sectorFor k = some x) : sectorBase k = x.base := by
  rw [sectorBase, h]
  rfl

theorem sectorSize_of_sectorFor {k : Nat} {x : FlashSector} (h : sectorFor k = some x) : sectorSize k = x.size := by
  rw [sectorSize, h]
  rfl

theorem sectorSize_pos {k : Nat} (hk : k < 8) : 1 ≤ sectorSize k := by
  have h : ∀ k : Fin 8, 1 ≤ sectorSize k := by decide
  exact h ⟨k, hk⟩

theorem classify_of_sectorOf {a k : Nat} (h : sectorOf a = some k) : classify a = .nonVolatile := by
  obtain ⟨hk, hlo, hhi⟩ := sectorOf_some a k h
  have := classify_sector (i := a - sectorBase k) hk (by omega)
  rwa [Nat.add_sub_cancel' hlo] at this

/-- Of all sectors only the one `sector_of` gives holds an address. -/
theorem sector_holds_iff {a j k : Nat} (hj : j < 8) (h : sectorOf a = some k) :
    (sectorBase j ≤ a ∧ a ≤ sectorBase j + sectorSize j - 1) ↔ j = k := by
  have hsize := sectorSize_pos hj
  have hiff := sectorOf_eq_some_iff a j
  rw [h, Option.some.injEq, eq_comm, show Config.numSectors = 8 from rfl] at hiff
  rw [hiff]
  omega

/-- Settles O11: the table's rows, and that `sector_of` finds the one sector that holds an address. -/
theorem sectorsTileNonVolatile : Obligations.SectorsTileNonVolatile := by
  refine ⟨rfl, fun k hk => ?_, fun a ha => ?_, fun a k => classify_of_sectorOf, sectorFor_eq_none_iff⟩
  · obtain ⟨x, hx⟩ := sectorFor_some hk
    exact ⟨x, hx, hx, sectorBase_of_sectorFor hx, sectorSize_of_sectorFor hx⟩
  · obtain ⟨k, hk⟩ := sectorOf_isSome ha
    exact ⟨k, hk, (sectorOf_some a k hk).1, fun j hj => sector_holds_iff hj hk⟩

theorem classifyRange_of_common {a n : Nat} {r : MemoryRegion} (hn : 1 ≤ n)
    (h : ∀ i, i < n → classify (a + i) = r) : classifyRange a n = r := by
  by_cases hr : r = .unknown
  · subst hr
    by_contra hne
    exact hne ((classifyRange_addr hne hn).symm.trans (h 0 hn))
  · exact (classifyRange_eq_iff hn hr).2 h

theorem classifyRange_of_differ {a n i j : Nat} (hi : i < n) (hj : j < n)
    (h : classify (a + i) ≠ classify (a + j)) : classifyRange a n = .unknown := by
  by_contra hne
  exact h ((classifyRange_addr hne hi).trans (classifyRange_addr hne hj).symm)

/-- Settles O12: the common class, or Unknown as soon as two addresses differ. -/
theorem rangeClassIsTheCommonClass : Obligations.RangeClassIsTheCommonClass := by
  intro a n hn
  refine ⟨fun r => classifyRange_of_common hn, ?_⟩
  rintro ⟨i, j, hi, hj, h⟩
  exact classifyRange_of_differ hi hj h

end Sys2Proof.Machine

/-! ### The queries (spec/44_commands.md R160 to R163, R168 to R170) -/

namespace Sys2Proof.Machine

/-- Settles O22: five queries that differ in their codes and bodies only. -/
theorem identityQueriesAnswer : Obligations.IdentityQueriesAnswer := by
  intro s
  have hchip : exec (.getChipId []) s =
      .next (s.acked 0x53 [Config.chipId.extractLsb' 0 8, Config.chipId.extractLsb' 8 8]) := by
    rw [← bytesLe16_eq]
    exact complete_query_nil _ _ s
  refine ⟨complete_query_nil _ _ s, complete_query_nil _ _ s, hchip, complete_query_nil _ _ s,
    complete_query_nil _ _ s, fun p hp => ?_⟩
  have hrefused := fun c body => complete_query_ne hp c body s
  exact ⟨hrefused _ _, hrefused _ _, hrefused _ _, hrefused _ _, hrefused _ _⟩

theorem exec_readSectorProtectionStatus_nil (s : State) :
    exec (.readSectorProtectionStatus []) s = .next (s.acked 0x5A [s.prot.mask, modeCode s.prot.mode]) :=
  complete_query_nil _ _ s

/-- Settles O23: the reply is one query's, and the three modes are its cases. -/
theorem sectorProtectionStatusIsReported : Obligations.SectorProtectionStatusIsReported := by
  intro s
  rw [exec_readSectorProtectionStatus_nil]
  exact ⟨fun h => by rw [h]; rfl, fun h => by rw [h]; rfl, fun h => by rw [h]; rfl,
    fun p hp => complete_query_ne hp _ _ s⟩

/-- READ_MEMORY of five bytes with a count is refused by its gate. -/
theorem exec_readMemory_refused {s : State} {b0 b1 b2 b3 n : Byte} {e : ErrorCode} (hn : 1 ≤ n.toNat)
    (hgate : readGate (le32 b0 b1 b2 b3).toNat n.toNat s.prot = .error e) :
    exec (.readMemory [b0, b1, b2, b3, n]) s = .next (s.nacked e) := by
  show execReadMemory _ s = _
  rw [execReadMemory_eq, addressCount_five hn]
  simp only [hgate]

/-- READ_MEMORY of five bytes with a count answers what its reads give. -/
theorem exec_readMemory_open {s t : State} {b0 b1 b2 b3 n : Byte} {body : List Byte} (hn : 1 ≤ n.toNat)
    (hgate : readGate (le32 b0 b1 b2 b3).toNat n.toNat s.prot = .ok ())
    (hread : memReadRange (le32 b0 b1 b2 b3).toNat n.toNat s = .ok (body, t)) :
    exec (.readMemory [b0, b1, b2, b3, n]) s = .next (t.acked 0x59 body) := by
  show execReadMemory _ s = _
  rw [execReadMemory_eq, addressCount_five hn]
  simp only [hgate, hread]

theorem exec_readMemory_length {s : State} {p : List Byte} (hp : addressCount p = none) :
    exec (.readMemory p) s = .next (s.nacked .badPayloadLength) := by
  show execReadMemory _ s = _
  rw [execReadMemory_eq, hp]

theorem readGate_unknown {addr n : Nat} {prot : ProtectionStatus} (h : classifyRange addr n = .unknown) :
    readGate addr n prot = .error .badAddress := by
  rw [readGate, if_pos h]

theorem readGate_ram {addr n : Nat} {prot : ProtectionStatus} (hu : classifyRange addr n ≠ .unknown)
    (hf : classifyRange addr n ≠ .nonVolatile) : readGate addr n prot = .ok () := by
  rw [readGate, if_neg hu, if_neg (fun h => hf h.1)]

theorem readGate_flash {addr n : Nat} {prot : ProtectionStatus} (h : classifyRange addr n = .nonVolatile) :
    readGate addr n prot = if anySectorOf (readProtected prot) addr n then .error .protectedSector else .ok () := by
  simp [readGate, h]

theorem anySectorOf_readProtected_iff (prot : ProtectionStatus) (addr n : Nat) :
    anySectorOf (readProtected prot) addr n = true ↔
      ∃ i k, i < n ∧ sectorOf (addr + i) = some k ∧ prot.mask.getLsbD k = true ∧ prot.mode = .readWrite := by
  simp only [anySectorOf_iff, readProtected_iff]

/-- Settles O24: the gate looks for a read-protected sector, and behind it the reads are those of flash. -/
theorem readMemoryOfFlash : Obligations.ReadMemoryOfFlash := by
  intro s b0 b1 b2 b3 n hn hclass
  have hgate := readGate_flash (prot := s.prot) (classifyRange_of_common hn hclass)
  refine ⟨fun hfree => exec_readMemory_open hn ?_ (memReadRange_flash hclass),
    fun hprotected => exec_readMemory_refused hn ?_⟩
  · rw [hgate, if_neg]
    intro h
    obtain ⟨i, k, hi, hk, hbit⟩ := (anySectorOf_readProtected_iff _ _ _).1 h
    exact hfree i k hi hk hbit
  · rw [hgate, if_pos ((anySectorOf_readProtected_iff _ _ _).2 hprotected)]

/-- Settles O25: protection plays no part, and each read is a draw. -/
theorem readMemoryOfRam : Obligations.ReadMemoryOfRam := by
  intro s b0 b1 b2 b3 n r hn hflash hunknown hclass
  have hrange := classifyRange_of_common hn hclass
  exact exec_readMemory_open hn (readGate_ram (by rwa [hrange]) (by rwa [hrange]))
    (memReadRange_ram fun i hi => by rw [hclass i hi]; exact ⟨hflash, hunknown⟩)

/-- Settles O26: the operands refuse a wrong length and a count of 0, the gate a range of no region. -/
theorem readMemoryRefusals : Obligations.ReadMemoryRefusals := by
  intro s
  exact ⟨fun p hp => exec_readMemory_length (addressCount_length hp), fun _ _ _ _ => exec_readMemory_length rfl,
    fun _ _ _ _ _ hn hrange => exec_readMemory_refused hn (readGate_unknown hrange)⟩

end Sys2Proof.Machine

/-! ### The jump (spec/44_commands.md R164) -/

namespace Sys2Proof.Machine

theorem exec_jumpToAddress_four (b0 b1 b2 b3 : Byte) (s : State) :
    exec (.jumpToAddress [b0, b1, b2, b3]) s =
      if isValidJumpTarget (le32 b0 b1 b2 b3).toNat then
        .next (s.respond Config.cmdJumpToAddress (.jumpTo (le32 b0 b1 b2 b3)))
      else .next (s.nacked .badAddress) :=
  execJumpToAddress_eq _ s

/-- Settles O27: the target's class decides between the jump and the NACK. -/
theorem jumpLeavesForAValidTarget : Obligations.JumpLeavesForAValidTarget := by
  intro s
  refine ⟨fun b0 b1 b2 b3 h => ?_, fun b0 b1 b2 b3 h => ?_, fun p hp => ?_⟩
  · rw [exec_jumpToAddress_four, if_pos ((isValidJumpTarget_iff _).2 h)]
    rfl
  · rw [exec_jumpToAddress_four, if_neg (by rw [isValidJumpTarget_iff, h]; simp)]
  · show execJumpToAddress p s = _
    rw [execJumpToAddress_eq, addressOperand_length hp]

end Sys2Proof.Machine

/-! ### The flash port and the memory read port (spec/10_state.md R27, R28) -/

namespace Sys2Proof.Machine

/-- Settles O31: the class of the address alone decides. -/
theorem memReadByRegion : Obligations.MemReadByRegion := by
  intro s a
  refine ⟨fun h => by rw [memRead, h], fun h => ?_, fun h => by rw [memRead, h]⟩
  rcases h with h | h | h <;>
  · rw [memRead, h]
    rfl

theorem read_drawRange (s : State) (lo n a : Nat) :
    Memory.read (s.drawRange lo n).flash a =
      if lo ≤ a ∧ a < lo + n then Config.drawByte (s.draws + (a - lo)) else Memory.read s.flash a := by
  rw [State.drawRange_flash, Memory.read_fill]

theorem read_drawRange_one (s : State) (a x : Nat) :
    Memory.read (s.drawRange a 1).flash x = if x = a then Config.drawByte s.draws else Memory.read s.flash x := by
  rw [read_drawRange]
  by_cases h : x = a
  · subst h
    simp
  · rw [if_neg (by omega), if_neg h]

theorem read_onOk_programByte_same {s : State} (a : Nat) (v : Byte) (hwf : Memory.wf s.flash) :
    Memory.read (s.onOk (.programByte a v)).flash a =
      if Memory.read s.flash a = 0xFF then v else Config.drawByte s.draws := by
  rcases State.onOk_programByte s a v with ⟨he, h⟩ | ⟨he, h⟩ <;> rw [h]
  · rw [if_pos (show Memory.read s.flash a = 0xFF from he), State.setFlash_flash, Memory.read_write hwf, if_pos rfl]
  · rw [if_neg (show ¬ Memory.read s.flash a = 0xFF from he), read_drawRange_one, if_pos rfl]

/-- Programming a byte writes flash and counts a draw at most. -/
theorem onOk_programByte_frame (s : State) (a : Nat) (v : Byte) :
    s.onOk (.programByte a v) =
      { s with flash := (s.onOk (.programByte a v)).flash, draws := (s.onOk (.programByte a v)).draws } := by
  rcases State.onOk_programByte s a v with ⟨-, h⟩ | ⟨-, h⟩ <;> rw [h] <;> rfl

theorem portReady_eraseSector (s : State) (k : Nat) :
    portReady s (.eraseSector k) = true ↔ s.flashLocked = false ∧ k < 8 := by
  rw [portReady, Bool.and_eq_true, Bool.not_eq_true', decide_eq_true_eq]
  rfl

theorem portReady_massErase (s : State) : portReady s .massErase = true ↔ s.flashLocked = false := by
  rw [portReady, Bool.not_eq_true']

theorem portReady_programByte (s : State) (a : Nat) (v : Byte) :
    portReady s (.programByte a v) = true ↔ s.flashLocked = false ∧ classify a = .nonVolatile := by
  rw [portReady, Bool.and_eq_true, Bool.not_eq_true', beq_iff_eq]

theorem portReady_optApply (s : State) (m : Byte) (md : ProtMode) :
    portReady s (.optApply m md) = true ↔ s.optLocked = false := by
  rw [portReady, Bool.not_eq_true']

/-- The effect of each request answered `ok` (R27). -/
theorem onOk_effects (s : State) (r : PortRequest) :
    (r = .flashUnlock → s.onOk r = { s with flashLocked := false }) ∧
      (r = .flashRelock → s.onOk r = { s with flashLocked := true }) ∧
      (r = .optUnlock → s.onOk r = { s with optLocked := false }) ∧
      (r = .optRelock → s.onOk r = { s with optLocked := true }) ∧
      (∀ m md, r = .optApply m md → s.onOk r = { s with prot := ⟨m, md⟩ }) ∧
      (∀ k, r = .eraseSector k → s.onOk r = { s with flash := (s.onOk r).flash } ∧
        ∀ a, Memory.read (s.onOk r).flash a =
          if sectorBase k ≤ a ∧ a < sectorBase k + sectorSize k then 0xFF else Memory.read s.flash a) ∧
      (r = .massErase → s.onOk r = { s with flash := (s.onOk r).flash } ∧
        ∀ a, Memory.read (s.onOk r).flash a =
          if flashBase ≤ a ∧ a < flashBase + flashSize then 0xFF else Memory.read s.flash a) ∧
      (∀ a v, r = .programByte a v → Memory.wf s.flash →
        s.onOk r = { s with flash := (s.onOk r).flash, draws := (s.onOk r).draws } ∧
        Memory.read (s.onOk r).flash a = (if Memory.read s.flash a = 0xFF then v else Config.drawByte s.draws) ∧
        ∀ x, x ≠ a → Memory.read (s.onOk r).flash x = Memory.read s.flash x) := by
  refine ⟨?_, ?_, ?_, ?_, ?_, ?_, ?_, ?_⟩
  · rintro rfl; rfl
  · rintro rfl; rfl
  · rintro rfl; rfl
  · rintro rfl; rfl
  · rintro m md rfl; rfl
  · rintro k rfl; exact ⟨rfl, fun a => Memory.read_erase _ _ _ _⟩
  · rintro rfl; exact ⟨rfl, fun a => Memory.read_erase _ _ _ _⟩
  · rintro a v rfl hwf
    exact ⟨onOk_programByte_frame s a v, read_onOk_programByte_same a v hwf, fun x hx => onOk_untouched s hx⟩

/-- What a request answered `fail`, or cut short, leaves of flash (R27, spec/70_reset_and_hazards.md R203). -/
theorem read_onFail (s : State) (r : PortRequest) :
    (∀ k, r = .eraseSector k → ∀ a, Memory.read (s.onFail r).flash a =
      if sectorBase k ≤ a ∧ a < sectorBase k + sectorSize k then Config.drawByte (s.draws + (a - sectorBase k))
      else Memory.read s.flash a) ∧
    (r = .massErase → ∀ a, Memory.read (s.onFail r).flash a =
      if flashBase ≤ a ∧ a < flashBase + flashSize then Config.drawByte (s.draws + (a - flashBase))
      else Memory.read s.flash a) ∧
    (∀ a v, r = .programByte a v → ∀ x, Memory.read (s.onFail r).flash x =
      if x = a then Config.drawByte s.draws else Memory.read s.flash x) := by
  refine ⟨?_, ?_, ?_⟩
  · rintro k rfl a; exact read_drawRange _ _ _ _
  · rintro rfl a; exact read_drawRange _ _ _ _
  · rintro a v rfl x; exact read_drawRange_one _ _ _

/-- Settles O29: the preconditions, and `onOk` and `onFail` of a request that is issued. -/
theorem portRequestEffects : Obligations.PortRequestEffects := by
  intro s r
  refine ⟨⟨?_, ?_, ?_, ?_, ?_, ?_, ?_⟩, fun hr => ?_, fun hr hp => request_never hr hp,
    fun hr hp => ⟨_, request_ok hr hp, ?_⟩, fun hr hp => ⟨_, request_fail hr hp, ?_⟩⟩
  · rintro rfl; rfl
  · rintro rfl; rfl
  · rintro (rfl | rfl) <;> rfl
  · rintro k rfl; exact portReady_eraseSector s k
  · rintro rfl; exact portReady_massErase s
  · rintro a v rfl; exact portReady_programByte s a v
  · rintro m md rfl; exact portReady_optApply s m md
  · rw [request, if_neg (by rw [hr]; simp)]
  · rw [issue_eq]
    exact onOk_effects (s.requested [r]) r
  · rw [issue_eq]
    obtain ⟨hReadErase, hReadMass, hReadProgram⟩ := read_onFail (s.requested [r]) r
    refine ⟨?_, ?_, fun k hk => ⟨?_, hReadErase k hk⟩, fun hm => ⟨?_, hReadMass hm⟩,
      fun a v ha => ⟨?_, hReadProgram a v ha⟩⟩
    · rintro (rfl | rfl | rfl | rfl) <;> rfl
    · rintro m md rfl; exact ⟨rfl, protOfDraw_wf _⟩
    · subst hk; rfl
    · subst hm; rfl
    · subst ha; rfl

theorem onFail_prot {s : State} {r : PortRequest} (h : ∀ m md, r ≠ .optApply m md) : (s.onFail r).prot = s.prot := by
  cases r with
  | optApply m md => exact absurd rfl (h m md)
  | _ => rfl

theorem onFail_prot_wf {s : State} {r : PortRequest} (h : s.prot.wf = true) : (s.onFail r).prot.wf = true := by
  by_cases hr : ∃ m md, r = .optApply m md
  · obtain ⟨m, md, rfl⟩ := hr
    exact protOfDraw_wf _
  · rwa [onFail_prot fun m md he => hr ⟨m, md, he⟩]

theorem onFail_flash {s : State} {r : PortRequest} (hErase : ∀ k, r ≠ .eraseSector k) (hMass : r ≠ .massErase)
    (hProgram : ∀ a v, r ≠ .programByte a v) : (s.onFail r).flash = s.flash := by
  cases r with
  | eraseSector k => exact absurd rfl (hErase k)
  | massErase => exact absurd rfl hMass
  | programByte a v => exact absurd rfl (hProgram a v)
  | _ => rfl

/-- Settles O30: the state is the reset sequence after what a failed request leaves. -/
theorem resetDuringARequestLeavesDraws : Obligations.ResetDuringARequestLeavesDraws := by
  intro s r enter hr hp
  obtain ⟨hReadErase, hReadMass, hReadProgram⟩ := read_onFail (s.issue r) r
  exact ⟨_, request_reset hr hp, rfl, rfl, rfl, rfl, rfl, rfl, fun _ hj => unwritten hj, onFail_prot,
    onFail_prot_wf (s := s.issue r), hReadErase, hReadMass, hReadProgram, onFail_flash⟩

end Sys2Proof.Machine

/-! ### The refusals of the mutating commands (spec/42_flash.md R116, R119 to R127) -/

namespace Sys2Proof.Machine

theorem exec_eraseFlash_pair (sector count : Byte) (s : State) :
    exec (.eraseFlash [sector, count]) s =
      runGated Config.cmdEraseFlash .flash .eraseFailed (eraseGate sector count s.prot) s :=
  execEraseFlash_eq _ s

theorem eraseGate_count_above {sector count : Byte} {prot : ProtectionStatus} (h : 8 < count.toNat) :
    eraseGate sector count prot = .error .countRange := by
  rw [eraseGate, if_pos (show Config.maxEraseCount < count.toNat from h)]

/-- The gate of a mass erase past its count. -/
theorem eraseGate_mass_eq {count : Byte} {prot : ProtectionStatus} (hc : count.toNat ≤ 8) :
    eraseGate 0xFF count prot =
      if (List.range 8).any (writeProtected prot) then .error .protectedSector else .ok [.massErase] := by
  have hcount : ¬ Config.maxEraseCount < count.toNat := show ¬ 8 < count.toNat by omega
  rw [eraseGate, if_neg hcount, if_pos (show (0xFF : Byte) = Config.massEraseSentinel from rfl), if_neg (by decide)]
  rfl

/-- The gate of a ranged erase past its count's upper bound. -/
theorem eraseGate_ranged_eq {sector count : Byte} {prot : ProtectionStatus} (hc : count.toNat ≤ 8)
    (hs : sector ≠ 0xFF) :
    eraseGate sector count prot =
      if 8 ≤ sector.toNat then .error .sectorRange
      else if count.toNat = 0 then .error .countRange
      else if (sectorSpan sector.toNat (min count.toNat (8 - sector.toNat))).any (writeProtected prot) then
        .error .protectedSector
      else .ok ((sectorSpan sector.toNat (min count.toNat (8 - sector.toNat))).map .eraseSector) := by
  have hcount : ¬ Config.maxEraseCount < count.toNat := show ¬ 8 < count.toNat by omega
  have hlow : ¬ sector.toNat < Config.eraseLowSector := Nat.not_lt_zero _
  have hnone : (sectorFor sector.toNat).isNone = true ↔ 8 ≤ sector.toNat := sectorFor_isNone_iff _
  rw [eraseGate, if_neg hcount, if_neg (show ¬ sector = Config.massEraseSentinel from hs), if_neg hlow]
  simp only [hnone, Nat.lt_one_iff]
  rfl

theorem ne_massEraseSentinel {sector : Byte} (h : sector.toNat < 8) : sector ≠ 0xFF := by
  rintro rfl
  exact absurd h (by decide)

/-- Settles O32: each refusal is one branch of the gate, or of the operands. -/
theorem eraseRefusals : Obligations.EraseRefusals := by
  intro s sector count
  rw [exec_eraseFlash_pair]
  refine ⟨fun h => ?_, fun hc hs hk => ?_, fun hc hs h => ?_, fun h0 hs => ?_, fun h1 hc hs hk => ?_, fun p hp => ?_⟩
  · rw [eraseGate_count_above h, runGated_error]
  · obtain ⟨k, hk, hbit⟩ := hk
    rw [hs, eraseGate_mass_eq hc, if_pos (any_writeProtected_of_mem ⟨k, List.mem_range.2 hk, hbit⟩), runGated_error]
  · rw [eraseGate_ranged_eq hc hs, if_pos h, runGated_error]
  · rw [eraseGate_ranged_eq (by omega) (ne_massEraseSentinel hs), if_neg (by omega), if_pos h0, runGated_error]
  · obtain ⟨k, hlo, hhi, hbit⟩ := hk
    rw [eraseGate_ranged_eq hc (ne_massEraseSentinel hs), if_neg (by omega), if_neg (by omega),
      if_pos (any_writeProtected_of_mem ⟨k, mem_sectorSpan.2 ⟨hlo, hhi⟩, hbit⟩), runGated_error]
  · show execEraseFlash p s = _
    rw [execEraseFlash_eq, bytePair_length hp]

theorem exec_writeMemory_data {p : List Byte} {addr : Word} {data : List Byte} (h : addressData p = some (addr, data))
    (s : State) :
    exec (.writeMemory p) s =
      runGated Config.cmdWriteMemory .flash .programFailed (writeGate addr.toNat data s.prot) s := by
  show execWriteMemory p s = _
  rw [execWriteMemory_eq, h]

theorem exec_writeMemory_length {p : List Byte} (h : addressData p = none) (s : State) :
    exec (.writeMemory p) s = .next (s.nacked .badPayloadLength) := by
  show execWriteMemory p s = _
  rw [execWriteMemory_eq, h]

theorem addressData_count {b0 b1 b2 b3 n : Byte} {data : List Byte} (h : n.toNat = 0 ∨ data.length ≠ n.toNat) :
    addressData (b0 :: b1 :: b2 :: b3 :: n :: data) = none := by
  rw [addressData, if_neg (by omega)]

theorem writeGate_badAddress {addr : Nat} {data : List Byte} {prot : ProtectionStatus}
    (h : ∃ i, i < data.length ∧ classify (addr + i) ≠ .nonVolatile) : writeGate addr data prot = .error .badAddress := by
  obtain ⟨i, hi, hclass⟩ := h
  rw [writeGate, if_pos]
  intro hrange
  exact hclass ((classifyRange_addr (by simp [hrange]) hi).trans hrange)

theorem writeGate_protected {addr : Nat} {data : List Byte} {prot : ProtectionStatus} (h1 : 1 ≤ data.length)
    (hclass : ∀ i, i < data.length → classify (addr + i) = .nonVolatile)
    (h : ∃ i k, i < data.length ∧ sectorOf (addr + i) = some k ∧ prot.mask.getLsbD k = true) :
    writeGate addr data prot = .error .protectedSector := by
  have hlow : ¬ addr < Config.writeLowBound :=
    Nat.not_lt.2 ((classify_nonVolatile_iff _).1 (hclass 0 h1)).1
  rw [writeGate, classifyRange_of_common h1 hclass, if_neg (by simp), if_neg hlow, if_pos]
  exact (anySectorOf_iff _ _ _).2 h

/-- Settles O36: two refusals of the gate and two of the operands. -/
theorem writeRefusals : Obligations.WriteRefusals := by
  intro s b0 b1 b2 b3 n data
  refine ⟨fun h1 hlen h => ?_, fun h1 hlen hclass h => ?_, fun h => exec_writeMemory_length (addressData_count h) s,
    fun p hp => exec_writeMemory_length (addressData_short hp) s⟩
  · rw [exec_writeMemory_data (addressData_ok h1 hlen), writeGate_badAddress h, runGated_error]
  · rw [exec_writeMemory_data (addressData_ok h1 hlen), writeGate_protected (by omega) hclass h, runGated_error]

theorem exec_enableRwProtect_pair {mask code : Byte} {mode : ProtMode} (h : protModeOf code = some mode) (s : State) :
    exec (.enableRwProtect [mask, code]) s =
      runGated Config.cmdEnableRwProtect .option .applyFailed (protectGate mask mode s.prot) s := by
  show execEnableRwProtect _ s = _
  rw [execEnableRwProtect_eq]
  simp only [bytePair, h]

theorem exec_disableRwProtect_nil (s : State) :
    exec (.disableRwProtect []) s =
      runGated Config.cmdDisableRwProtect .option .applyFailed (.ok [.optApply 0 .none]) s := rfl

theorem protModeOf_eq_none {code : Byte} (h1 : code ≠ 1) (h2 : code ≠ 2) : protModeOf code = none := by
  rw [protModeOf, if_neg h1, if_neg h2]

theorem protModeOf_isSome {code : Byte} (h : code = 1 ∨ code = 2) : ∃ mode, protModeOf code = some mode := by
  rcases h with rfl | rfl <;> exact ⟨_, rfl⟩

/-- Settles O40: the mode is checked by the command, the mask by the gate, the length by the operands. -/
theorem enableProtectionRefusals : Obligations.EnableProtectionRefusals := by
  intro s
  refine ⟨fun code hcode => ?_, fun mask code h1 h2 => ?_, fun p hp => ?_⟩
  · obtain ⟨mode, hmode⟩ := protModeOf_isSome hcode
    rw [exec_enableRwProtect_pair hmode, protectGate, if_pos rfl, runGated_error]
  · show execEnableRwProtect _ s = _
    rw [execEnableRwProtect_eq]
    simp only [bytePair, protModeOf_eq_none h1 h2]
  · show execEnableRwProtect p s = _
    rw [execEnableRwProtect_eq, bytePair_length hp]

end Sys2Proof.Machine

/-! ### Erase and write to their ends (spec/42_flash.md R117, R121 to R126) -/

namespace Sys2Proof.Machine

/-- The state in which a command's requests under the lock are made. -/
def State.unlocked (s : State) (lock : Lock) : State := State.setLock (s.requested [unlockRequest lock]) lock false

theorem unlocked_answersOk {s : State} {lock : Lock} {n : Nat} (h : s.answersOk (n + 1)) :
    (s.unlocked lock).answersOk n :=
  answersOk_unlocked h le_rfl

@[simp] theorem unlocked_port (s : State) (lock : Lock) : (s.unlocked lock).port = s.port.after 1 :=
  State.setLock_port _ _ _

theorem unlocked_answer (s : State) (lock : Lock) (k : Nat) :
    (s.unlocked lock).port.answer k = s.port.answer (k + 1) := by
  rw [unlocked_port, PortScript.answer_after, Nat.add_comm]

/-- A flash command whose requests `done` leave the array `m` and the draw count `d` behind them, the lock closed
again. -/
theorem runGated_flash_closed {command : Byte} {failure : ErrorCode} {body done : List PortRequest} {s : State} {ok : Bool}
    {m : Memory} {d : Nat} (hl : s.flashLocked = true) (h0 : s.port.answer 0 = .ok)
    (hbody : requestAll body (s.unlocked .flash) =
      .answered ok { (s.unlocked .flash).requested done with flash := m, draws := d })
    (hlast : s.port.answer (done.length + 1) = .ok) :
    runGated command .flash failure (.ok body) s =
      .next (({ s with flash := m, draws := d }.requested
        (PortRequest.flashUnlock :: done ++ [PortRequest.flashRelock])).respond command
        (if ok then .ok [] else .operationFailure failure)) := by
  have hport : ({ (s.unlocked .flash).requested done with flash := m, draws := d } : State).port.answer 0 = .ok := by
    simpa [PortScript.after_after, Nat.add_comm] using hlast
  have hclosed : State.setLock
      (({ (s.unlocked .flash).requested done with flash := m, draws := d } : State).requested [.flashRelock]) .flash true =
        { s with flash := m, draws := d }.requested (PortRequest.flashUnlock :: done ++ [PortRequest.flashRelock]) := by
    simp [State.unlocked, State.setLock, State.setFlashLocked, State.requested, PortScript.after_after, hl,
      Nat.add_comm 1]
  rw [runGated_closed (lock := .flash) hl h0 hbody hport, relockRequest_flash, hclosed]

section Closed

variable {command : Byte} {failure : ErrorCode} {body done : List PortRequest} {s : State} {m : Memory} {d : Nat}
  (hl : s.flashLocked = true) (h0 : s.port.answer 0 = .ok) (hlast : s.port.answer (done.length + 1) = .ok)
include hl h0 hlast

theorem runGated_flash_acked
    (hbody : requestAll body (s.unlocked .flash) =
      .answered true { (s.unlocked .flash).requested done with flash := m, draws := d }) :
    runGated command .flash failure (.ok body) s =
      .next (({ s with flash := m, draws := d }.requested
        (PortRequest.flashUnlock :: done ++ [PortRequest.flashRelock])).acked command []) :=
  runGated_flash_closed hl h0 hbody hlast

theorem runGated_flash_nacked
    (hbody : requestAll body (s.unlocked .flash) =
      .answered false { (s.unlocked .flash).requested done with flash := m, draws := d }) :
    runGated command .flash failure (.ok body) s =
      .next (({ s with flash := m, draws := d }.requested
        (PortRequest.flashUnlock :: done ++ [PortRequest.flashRelock])).nacked failure) :=
  runGated_flash_closed hl h0 hbody hlast

end Closed

/-- Settles O33: the gate opens, and erasing the listed sectors erases what `sector_of` finds in them. -/
theorem eraseErasesTheClampedRange : Obligations.EraseErasesTheClampedRange := by
  rintro s sector count n hs h1 hc rfl hfree hl hok
  have hsectors : ∀ k ∈ sectorSpan sector.toNat (min count.toNat (8 - sector.toNat)), k < Config.numSectors := by
    intro k hk
    have := mem_sectorSpan.1 hk
    show k < 8
    omega
  have hbody := requestAll_erase_ok _ (s.unlocked .flash) hsectors rfl
    (by rw [sectorSpan_length]; exact unlocked_answersOk (State.answersOk_mono hok (by omega)))
  have hmem := read_eraseSectors s.flash _ hsectors
  refine ⟨_, ?_, fun a k hk hlo hhi => (hmem a).1 ⟨k, mem_sectorSpan.2 ⟨hlo, hhi⟩, hk⟩,
    fun a hout => (hmem a).2 fun k hk h => hout k h (mem_sectorSpan.1 hk)⟩
  rw [exec_eraseFlash_pair, eraseGate_ranged hs h1 hc hfree,
    runGated_flash_acked hl (hok 0 (by omega)) (hok _ (by simp)) hbody]
  simp only [sectorSpan, List.map_map]
  rfl

/-- The addresses a mass erase works on are those of NonVolatile. -/
theorem classify_nonVolatile_iff_flash (a : Nat) :
    classify a = .nonVolatile ↔ flashBase ≤ a ∧ a < flashBase + flashSize := by
  rw [classify_nonVolatile_iff, show flashBase = 0x08000000 from rfl, show flashSize = 0x80000 from rfl]
  omega

/-- Settles O34: the body is one request, whose range is NonVolatile. -/
theorem massEraseErasesEverything : Obligations.MassEraseErasesEverything := by
  intro s count hc hfree hl hok
  have hbody : requestAll [.massErase] (s.unlocked .flash) =
      .answered true (((s.unlocked .flash).issue .massErase).onOk .massErase) := by
    rw [requestAll, request_ok rfl (State.answersOk_head (unlocked_answersOk hok))]
    rfl
  rw [issue_eq] at hbody
  refine ⟨Memory.erase s.flash flashBase flashSize, ?_, fun a ha => ?_, fun a ha => ?_⟩
  · rw [exec_eraseFlash_pair, eraseGate_mass hc hfree]
    exact runGated_flash_acked (done := [.massErase]) hl (hok 0 (by omega)) (hok 2 (by omega)) hbody
  · rw [Memory.read_erase, if_pos ((classify_nonVolatile_iff_flash a).1 ha)]
    rfl
  · rw [Memory.read_erase, if_neg (fun h => ha ((classify_nonVolatile_iff_flash a).2 h))]

/-- A body that works on flash and fails after `done`: what the failed request leaves. -/
theorem requestAll_flash_failAt {done rest : List PortRequest} {r : PortRequest} {x : State} {m : Memory}
    (hdone : requestAll done x = .answered true { x.requested done with flash := m })
    (hready : portReady { x.requested done with flash := m } r = true) (hfail : x.port.answer done.length = .fail) :
    requestAll (done ++ r :: rest) x =
      .answered false (({ x with flash := m }.requested (done ++ [r])).onFail r) := by
  rw [requestAll_failAt hdone hready (by simpa using hfail), ← requested_requested]
  rfl

/-- Erasing sectors up to one that fails. -/
theorem requestAll_erase_failAt {sector n j : Nat} {x : State} (hj : j < n) (hn : sector + n ≤ 8)
    (hl : x.flashLocked = false) (hok : x.answersOk j) (hfail : x.port.answer j = .fail) :
    requestAll ((sectorSpan sector n).map .eraseSector) x =
      .answered false
        { x.requested ((sectorSpan sector (j + 1)).map .eraseSector) with
          flash := Memory.fill (eraseSectors x.flash (sectorSpan sector j)) (sectorBase (sector + j))
            (fun i => Config.drawByte (x.draws + i)) (sectorSize (sector + j))
          draws := x.draws + sectorSize (sector + j) } := by
  have hsectors : ∀ k ∈ sectorSpan sector j, k < Config.numSectors := by
    intro k hk
    have := mem_sectorSpan.1 hk
    show k < 8
    omega
  have hdone := requestAll_erase_ok (sectorSpan sector j) x hsectors hl (by rwa [sectorSpan_length])
  have hready : portReady { x.requested ((sectorSpan sector j).map .eraseSector) with
      flash := eraseSectors x.flash (sectorSpan sector j) } (.eraseSector (sector + j)) = true :=
    (portReady_eraseSector _ _).2 ⟨hl, by omega⟩
  have hsucc : sectorSpan sector (j + 1) = sectorSpan sector j ++ [sector + j] := by
    rw [sectorSpan_split (Nat.lt_succ_self j), show j + 1 - j - 1 = 0 by omega, sectorSpan_zero]
  rw [sectorSpan_split hj, List.map_append, List.map_cons,
    requestAll_flash_failAt hdone hready (by simpa using hfail), hsucc, List.map_append]
  rfl

/-- Reading after an erase that failed at a sector (R124). -/
theorem read_fill_eraseSectors {m : Memory} {f : Nat → Byte} {sector j : Nat} (hj : sector + j < 8) :
    (∀ a k, sectorOf a = some k → sector ≤ k → k < sector + j →
      Memory.read (Memory.fill (eraseSectors m (sectorSpan sector j)) (sectorBase (sector + j)) f
        (sectorSize (sector + j))) a = 0xFF) ∧
    (∀ i, i < sectorSize (sector + j) →
      Memory.read (Memory.fill (eraseSectors m (sectorSpan sector j)) (sectorBase (sector + j)) f
        (sectorSize (sector + j))) (sectorBase (sector + j) + i) = f i) ∧
    (∀ a, (∀ k, sectorOf a = some k → ¬(sector ≤ k ∧ k ≤ sector + j)) →
      Memory.read (Memory.fill (eraseSectors m (sectorSpan sector j)) (sectorBase (sector + j)) f
        (sectorSize (sector + j))) a = Memory.read m a) := by
  have hmem := read_eraseSectors m (sectorSpan sector j) fun k hk => by
    have := mem_sectorSpan.1 hk
    show k < 8
    omega
  have hhere : ∀ a, sectorBase (sector + j) ≤ a ∧ a < sectorBase (sector + j) + sectorSize (sector + j) →
      sectorOf a = some (sector + j) := fun a ha => sectorOf_of_mem a _ ⟨hj, ha⟩
  refine ⟨fun a k hk hlo hhi => ?_, fun i hi => ?_, fun a hout => ?_⟩
  · rw [Memory.read_fill, if_neg]
    · exact (hmem a).1 ⟨k, mem_sectorSpan.2 ⟨hlo, hhi⟩, hk⟩
    · intro h
      rw [hhere a h] at hk
      cases hk
      omega
  · rw [Memory.read_fill, if_pos (by omega), Nat.add_sub_cancel_left]
  · rw [Memory.read_fill, if_neg (fun h => hout _ (hhere a h) (by omega))]
    exact (hmem a).2 fun k hk h => hout k h (by have := mem_sectorSpan.1 hk; omega)

/-- Settles O35: the sectors before the failing one are erased, and the failing request fills its range with draws. -/
theorem eraseFailureStopsAtTheSector : Obligations.EraseFailureStopsAtTheSector := by
  intro s sector count hc hl h0
  refine ⟨?_, ?_⟩
  · rintro n j hs h1 rfl hj hfree hok hfail hlast
    have hbody := requestAll_erase_failAt (sector := sector.toNat) (x := s.unlocked .flash) hj (by omega) rfl (unlocked_answersOk hok)
      (by rw [unlocked_answer, hfail])
    obtain ⟨herased, hdrawn, hkept⟩ := read_fill_eraseSectors (m := s.flash)
      (f := fun i => Config.drawByte (s.draws + i)) (sector := sector.toNat) (j := j) (by omega)
    refine ⟨_, ?_, herased, hdrawn, hkept⟩
    rw [exec_eraseFlash_pair, eraseGate_ranged hs h1 hc hfree,
      runGated_flash_nacked hl h0 (by simpa using hlast) hbody]
    simp only [sectorSpan, List.map_map]
    rfl
  · rintro rfl hfree hfail hlast
    have hbody : requestAll [.massErase] (s.unlocked .flash) =
        .answered false (((s.unlocked .flash).requested [.massErase]).onFail .massErase) := by
      rw [requestAll, request_fail rfl (by rw [← PortScript.answer_zero, unlocked_answer, hfail]), issue_eq]
    refine ⟨Memory.fill s.flash flashBase (fun i => Config.drawByte (s.draws + i)) flashSize, ?_, fun i hi => ?_,
      fun a ha => ?_⟩
    · rw [exec_eraseFlash_pair, eraseGate_mass hc hfree]
      exact runGated_flash_nacked (done := [.massErase]) hl h0 hlast hbody
    · rw [Memory.read_fill, if_pos (by omega), Nat.add_sub_cancel_left]
    · rw [Memory.read_fill, if_neg (fun h => ha ((classify_nonVolatile_iff_flash a).2 h))]

/-- Settles O37: the gate opens, and `requestAll_program_ok` says what its requests leave. -/
theorem writeProgramsItsBytes : Obligations.WriteProgramsItsBytes := by
  rintro s b0 b1 b2 b3 n data addr rfl h1 hlen hclass hfree hl hwf hok
  obtain ⟨m, d, hbody, -, hin, hout⟩ := requestAll_program_ok data _ (s.unlocked .flash) hclass rfl hwf
    (unlocked_answersOk (State.answersOk_mono hok (by omega)))
  refine ⟨m, d, ?_, hin, hout⟩
  rw [exec_writeMemory_data (addressData_ok h1 hlen), writeGate_open (by omega) hclass hfree]
  exact runGated_flash_acked hl (hok 0 (by omega)) (hok _ (by rw [programRequests_length]; omega)) hbody

/-- The requests of a write up to one of its bytes, and from there on. -/
theorem programRequests_split {a j : Nat} {data : List Byte} {b : Byte} (hb : data[j]? = some b) :
    programRequests a data =
      programRequests a (data.take j) ++ .programByte (a + j) b :: programRequests (a + j + 1) (data.drop (j + 1)) := by
  obtain ⟨hj, rfl⟩ := List.getElem?_eq_some_iff.1 hb
  conv_lhs => rw [← List.take_append_drop j data, List.drop_eq_getElem_cons hj, programRequests_append, programRequests]
  rw [List.length_take_of_le hj.le]

theorem programRequests_take {a j : Nat} {data : List Byte} {b : Byte} (hb : data[j]? = some b) :
    (programRequests a data).take (j + 1) = programRequests a (data.take j) ++ [.programByte (a + j) b] := by
  have hj : j < data.length := (List.getElem?_eq_some_iff.1 hb).1
  have hlen : (programRequests a (data.take j)).length = j := by
    rw [programRequests_length, List.length_take_of_le hj.le]
  rw [programRequests_split hb, List.take_append, hlen]
  simp [hlen]

/-- Settles O38: the bytes before the failing one are programmed, and the failing request leaves a draw. -/
theorem writeFailureKeepsEarlierBytes : Obligations.WriteFailureKeepsEarlierBytes := by
  intro s b0 b1 b2 b3 n data addr j haddr hlen hj hclass hfree herased hl hwf hok hfail hlast
  obtain ⟨b, hb⟩ : ∃ b, data[j]? = some b := ⟨_, List.getElem?_eq_getElem hj⟩
  have htake : (data.take j).length = j := List.length_take_of_le hj.le
  obtain ⟨m, hdone, -, hin, hout⟩ := requestAll_program_erased (data.take j) addr (s.unlocked .flash)
    (fun i hi => hclass i (by omega)) rfl hwf (by rw [htake]; exact unlocked_answersOk hok)
    (fun i hi => herased i (by omega))
  rw [htake] at hout
  have hbody := requestAll_flash_failAt (rest := programRequests (addr + j + 1) (data.drop (j + 1)))
    (r := .programByte (addr + j) b) hdone ((portReady_programByte _ _ _).2 ⟨rfl, hclass j hj⟩)
    (by rw [programRequests_length, htake, unlocked_answer, hfail])
  rw [← programRequests_split hb, ← programRequests_take hb] at hbody
  have hread := read_drawRange_one { s with flash := m } (addr + j)
  refine ⟨_, ?_, fun i c hi hc => ?_, (hread _).trans (if_pos rfl), fun a ha => ?_⟩
  · rw [exec_writeMemory_data (addressData_ok (by omega) hlen), ← haddr, writeGate_open (by omega) hclass hfree]
    have hlen' : ((programRequests addr data).take (j + 1)).length = j + 1 := by
      rw [List.length_take, programRequests_length, Nat.min_eq_left hj]
    exact runGated_flash_nacked hl (hok 0 (by omega)) (by rw [hlen', hlast]) hbody
  · rw [hread, if_neg (by omega)]
    exact hin i c (by rw [List.getElem?_take, if_pos hi, hc])
  · rw [hread, if_neg (by omega)]
    exact hout a (by omega)

end Sys2Proof.Machine

/-! ### Protection (spec/42_flash.md R127, R128) -/

namespace Sys2Proof.Machine

/-- Settles O39: the gate merges the mask, and the merged status is applied under the option lock. -/
theorem enableProtectionMergesTheMask : Obligations.EnableProtectionMergesTheMask := by
  intro s mask hmask hl hok
  refine ⟨?_, ?_⟩
  · rw [exec_enableRwProtect_pair (mode := .write) rfl, protectGate_open hmask]
    exact runGated_apply hl hok
  · rw [exec_enableRwProtect_pair (mode := .readWrite) rfl, protectGate_open hmask]
    exact runGated_apply hl hok

/-- Settles O41: the empty status is applied under the option lock. -/
theorem disableProtectionClearsIt : Obligations.DisableProtectionClearsIt := by
  intro s
  refine ⟨fun hl hok => ?_, fun p hp => ?_⟩
  · rw [exec_disableRwProtect_nil]
    exact runGated_apply hl hok
  · show execDisableRwProtect p s = _
    rw [execDisableRwProtect_eq, noOperands_eq_none hp]

/-- Settles O42: the status drawn by a failed apply is one of `protOfDraw`. -/
theorem applyFailureLeavesALegalDraw : Obligations.ApplyFailureLeavesALegalDraw := by
  intro s hl h0 h1 h2
  have hlegal := protOfDraw_wf (Config.drawProt s.draws)
  refine ⟨⟨_, hlegal, ?_⟩, fun mask code mode hmask hmode => ⟨_, hlegal, ?_⟩⟩
  · rw [exec_disableRwProtect_nil]
    exact runGated_applyFailed hl h0 h1 h2
  · rw [exec_enableRwProtect_pair hmode, protectGate_open hmask]
    exact runGated_applyFailed hl h0 h1 h2

end Sys2Proof.Machine

/-! ### The lock discipline (spec/42_flash.md R117, spec/60_exceptions.md R184 to R187) -/

namespace Sys2Proof.Machine

/-- Settles O43: each of the four commands behind its gate is `runGated` on its lock. -/
theorem unlockFailureIsNacked : Obligations.UnlockFailureIsNacked := by
  intro s body hfail
  refine ⟨fun sector count hl hgate => ?_, fun p addr data hl hp hgate => ?_, fun mask code mode hl hmask hmode => ?_,
    fun hl => ?_⟩
  · rw [exec_eraseFlash_pair, hgate]
    exact runGated_unlockFailed (lock := .flash) hl hfail
  · rw [exec_writeMemory_data hp, hgate]
    exact runGated_unlockFailed (lock := .flash) hl hfail
  · rw [exec_enableRwProtect_pair hmode, protectGate_open hmask]
    exact runGated_unlockFailed (lock := .option) hl hfail
  · rw [exec_disableRwProtect_nil]
    exact runGated_unlockFailed (lock := .option) hl hfail

theorem operation_runGated {i : Instr} {s : State} {lock : Lock} {body : List PortRequest}
    (h : operation i s lock body) :
    (∀ r ∈ body, r.under lock) ∧ ∃ failure, exec i s = runGated i.code lock failure (.ok body) s := by
  obtain ⟨failure, hbody, hexec, -⟩ := operation_inv h
  exact ⟨hbody.under.2, failure, hexec⟩

@[simp] theorem unlocked_locked (s : State) (lock : Lock) : (s.unlocked lock).locked lock = false :=
  State.setLock_locked _ _ _

@[simp] theorem unlocked_requests (s : State) (lock : Lock) :
    (s.unlocked lock).requests = s.requests ++ [unlockRequest lock] :=
  State.setLock_requests _ _ _

@[simp] theorem unlocked_tx (s : State) (lock : Lock) : (s.unlocked lock).tx = s.tx :=
  State.setLock_tx _ _ _

theorem respond_fatal_locked (s : State) (rs : List PortRequest) (c : Byte) (r : FatalReason) (lock : Lock) :
    ((s.requested rs).respond c (.fatal r)).locked lock = s.locked lock := by
  cases lock <;> rfl

/-- What a relock that fails leaves, whatever came of the body's requests `done`. -/
theorem relockFailed_halts {command : Byte} {lock : Lock} {failure : ErrorCode} {body done : List PortRequest}
    {s u : State} {ok : Bool} (hl : s.locked lock = true) (h0 : s.port.answer 0 = .ok)
    (hbody : requestAll body (s.unlocked lock) = .answered ok u) (hlock : u.locked lock = false)
    (hdone : u.requests = (s.unlocked lock).requests ++ done) (htx : u.tx = (s.unlocked lock).tx)
    (hfail : u.port.answer 0 = .fail) :
    ∃ t, runGated command lock failure (.ok body) s = .next t ∧ t.phase = .halted .relockFailed ∧ t.tx = s.tx ∧
      t.lastError = some .relockFailed ∧ t.locked lock = false ∧
      t.requests = s.requests ++ (unlockRequest lock :: done ++ [relockRequest lock]) := by
  refine ⟨_, runGated_relockFailed hl h0 hbody hfail, rfl, htx.trans (unlocked_tx s lock), rfl,
    (respond_fatal_locked _ _ _ _ _).trans hlock, ?_⟩
  rw [State.respond_requests, State.requested_requests, hdone, unlocked_requests]
  simp

/-- A command halts the block only by a relock that failed: the lock stays open and nothing is sent (R184). -/
theorem exec_halted {i : Instr} {s t : State} {r : FatalReason} (h : exec i s = .next t) (hp : t.phase = .halted r) :
    ∃ lock v, t = (v.requested [relockRequest lock]).respond i.code (.fatal .relockFailed) ∧ SameOutsidePort s v ∧
      v.locked lock = false ∧ (lock = .flash ∧ changesFlash i = true ∨ lock = .option ∧ changesProtection i = true) := by
  rcases exec_next_inv h with ⟨d, o, rfl, ho, -⟩ | ⟨lock, failure, body, hallowed, hf, ⟨o, u, hu, rfl⟩ | hu⟩
  · rcases ho with ⟨e, rfl, -⟩ | ⟨body, rfl⟩ | ⟨p, a, -, -, -, rfl⟩ <;> cases hp
  · obtain ⟨hl, ⟨rfl, -⟩ | ⟨ok, v, hbody, ⟨rfl, rfl⟩ | ⟨rfl, -⟩⟩⟩ := withUnlocked_finished hu
    · cases hp
    · have hsame := withUnlocked_sameOutside.1 _ _ hu
      have hlocks := requestAll_locks hallowed.isWork hbody
      refine ⟨lock, v, rfl, ⟨hsame.phase, hsame.len, hsame.rxcount, hsame.rxbuf, hsame.crc, hsame.pkt, hsame.tx,
        hsame.rx, hsame.resetIn, hsame.lastError, hsame.point⟩, ?_, ?_⟩
      · cases lock
        · exact hlocks.1
        · exact hlocks.2
      · rcases hallowed.changes with ⟨rfl, hchanges, -⟩ | ⟨rfl, hchanges, -⟩
        · exact .inl ⟨rfl, hchanges⟩
        · exact .inr ⟨rfl, hchanges⟩
    · cases ok <;> cases hp
  · obtain ⟨v, e, -, rfl⟩ := withUnlocked_sameOutside.2 t hu
    cases e <;> cases hp

/-- Settles O44: the body succeeds and the relock fails; and a halt is always a relock's. -/
theorem relockFailureHaltsWithoutResponse : Obligations.RelockFailureHaltsWithoutResponse := by
  refine ⟨fun i s lock body hop hl hok hfail => ?_, fun i s t r h hp => ?_⟩
  · obtain ⟨hunder, failure, hexec⟩ := operation_runGated hop
    obtain ⟨u, hbody, hlock, hdone, hport, htx⟩ :=
      requestAll_under_ok (unlocked_locked s lock) hunder (unlocked_answersOk hok)
    rw [hexec]
    refine relockFailed_halts hl (hok 0 (by omega)) hbody hlock hdone htx ?_
    rw [hport, PortScript.answer_after, unlocked_answer]
    exact hfail
  · obtain ⟨lock, v, rfl, hsame, hlock, hchanges⟩ := exec_halted h hp
    refine ⟨hsame.tx, hsame.rx, hsame.pkt, rfl, ?_⟩
    have hlast : ((v.requested [relockRequest lock]).respond i.code (.fatal .relockFailed)).requests.getLast? =
        some (relockRequest lock) := by
      rw [State.respond_requests, State.requested_requests, List.getLast?_concat]
    rcases hchanges with ⟨rfl, hchanges⟩ | ⟨rfl, hchanges⟩
    · exact .inl ⟨hchanges, hlock, hlast⟩
    · exact .inr ⟨hchanges, hlock, hlast⟩

/-- An apply under the option lock whose relock fails, the whole state. -/
theorem runGated_option_relockFailed {command : Byte} {failure : ErrorCode} {r : PortRequest} {s : State} {ok : Bool}
    {p : ProtectionStatus} {d : Nat} (hl : s.optLocked = true) (h0 : s.port.answer 0 = .ok)
    (hbody : requestAll [r] (s.unlocked .option) =
      .answered ok { (s.unlocked .option).requested [r] with prot := p, draws := d })
    (hfail : s.port.answer 2 = .fail) :
    runGated command .option failure (.ok [r]) s = .next
      { s.requested [.optUnlock, r, .optRelock] with
        prot := p, draws := d, optLocked := false, lastError := some .relockFailed, phase := .halted .relockFailed } := by
  rw [runGated_relockFailed (lock := .option) hl h0 hbody (by simpa [PortScript.after_after] using hfail)]
  simp [State.unlocked, State.setLock, State.setOptLocked, State.requested, PortScript.after_after, State.respond,
    State.raiseFatal, State.note, State.enter, fatalCode]

theorem requestAll_optApply_ok {x : State} {m : Byte} {md : ProtMode} (hl : x.optLocked = false)
    (h0 : x.port.answer 0 = .ok) :
    requestAll [.optApply m md] x = .answered true { x.requested [.optApply m md] with prot := ⟨m, md⟩ } := by
  rw [requestAll, request_ok ((portReady_optApply x m md).2 hl) (by simpa using h0), issue_eq]
  rfl

theorem requestAll_optApply_fail {x : State} {m : Byte} {md : ProtMode} (hl : x.optLocked = false)
    (h0 : x.port.answer 0 = .fail) :
    requestAll [.optApply m md] x = .answered false { x.requested [.optApply m md] with
      prot := protOfDraw (Config.drawProt x.draws), draws := x.draws + 1 } := by
  rw [requestAll, request_fail ((portReady_optApply x m md).2 hl) (by simpa using h0), issue_eq]
  rfl

/-- Settles O45: the relock comes next after the failing request and is what ends the command. -/
theorem relockFailureOverridesEarlierFailure : Obligations.RelockFailureOverridesEarlierFailure := by
  refine ⟨fun i s lock body j hop hl hj hok hfail hrelock => ?_, fun s hl h0 h2 => ⟨fun h1 => ?_, fun h1 => ?_⟩⟩
  · obtain ⟨hunder, failure, hexec⟩ := operation_runGated hop
    obtain ⟨u, hbody, hlock, hdone, hport, htx⟩ :=
      requestAll_under_fail (unlocked_locked s lock) hunder hj (unlocked_answersOk hok) (by rw [unlocked_answer, hfail])
    rw [hexec]
    refine relockFailed_halts hl (hok 0 (by omega)) hbody hlock hdone htx ?_
    rw [hport, PortScript.answer_after, unlocked_answer]
    exact hrelock
  · rw [exec_disableRwProtect_nil]
    exact runGated_option_relockFailed hl h0 (requestAll_optApply_ok rfl (by rw [unlocked_answer, h1])) h2
  · refine ⟨_, protOfDraw_wf (Config.drawProt s.draws), ?_⟩
    rw [exec_disableRwProtect_nil]
    exact runGated_option_relockFailed hl h0 (requestAll_optApply_fail rfl (by rw [unlocked_answer, h1])) h2

section Never

variable {command : Byte} {lock : Lock} {failure : ErrorCode} {body : List PortRequest} {s : State}
  (hl : s.locked lock = true) (h0 : s.port.answer 0 = .ok)
include hl h0

theorem runGated_body_stopped {f : Fault} (hbody : requestAll body (s.unlocked lock) = .stopped f) :
    runGated command lock failure (.ok body) s = .fault f := by
  rw [State.unlocked] at hbody
  simp only [runGated, gatedPoint, complete, respondTo, withUnlocked, underLock, request_unlock_ok hl h0, hbody]

theorem runGated_relock_never {u : State} {ok : Bool} (hbody : requestAll body (s.unlocked lock) = .answered ok u)
    (hu : u.port.answer 0 = .never) :
    runGated command lock failure (.ok body) s = .fault (.portNeverAnswers (relockRequest lock)) := by
  rw [State.unlocked] at hbody
  simp only [runGated, gatedPoint, complete, respondTo, withUnlocked, underLock, closeLock, request_unlock_ok hl h0,
    hbody, request_relock_never hu]

end Never

/-- The request that is never answered is the unlock, one of the body, or the relock. -/
theorem runGated_unanswered {command : Byte} {lock : Lock} {failure : ErrorCode} {body : List PortRequest} {s : State}
    (hl : s.locked lock = true) (hunder : ∀ r ∈ body, r.under lock) {j : Nat} {r : PortRequest}
    (hr : (unlockRequest lock :: body ++ [relockRequest lock])[j]? = some r) (hok : s.answersOk j)
    (hnever : s.port.answer j = .never) :
    runGated command lock failure (.ok body) s = .fault (.portNeverAnswers r) := by
  cases j with
  | zero =>
    cases hr
    exact runGated_never hl (by simpa using hnever)
  | succ k =>
    have h0 : s.port.answer 0 = .ok := hok 0 (by omega)
    have hnever' : (s.unlocked lock).port.answer k = .never := by rw [unlocked_answer, hnever]
    rw [List.cons_append, List.getElem?_cons_succ] at hr
    by_cases hk : k < body.length
    · rw [List.getElem?_append_left hk] at hr
      exact runGated_body_stopped hl h0
        (requestAll_under_never (unlocked_locked s lock) hunder hr (unlocked_answersOk hok) hnever')
    · rw [List.getElem?_append_right (by omega)] at hr
      obtain ⟨hk', rfl⟩ : k = body.length ∧ relockRequest lock = r := by
        have := (List.getElem?_eq_some_iff.1 hr).1
        have hk' : k = body.length := by simp at this; omega
        subst hk'
        exact ⟨rfl, by simpa using hr⟩
      subst hk'
      obtain ⟨u, hbody, -, -, hport, -⟩ :=
        requestAll_under_ok (unlocked_locked s lock) hunder (unlocked_answersOk hok)
      exact runGated_relock_never hl h0 hbody (by rw [hport, PortScript.answer_after]; exact hnever')

/-- The relock after a failed request is never answered. -/
theorem runGated_unanswered_relock {command : Byte} {lock : Lock} {failure : ErrorCode} {body : List PortRequest}
    {s : State} (hl : s.locked lock = true) (hunder : ∀ r ∈ body, r.under lock) {j : Nat} (hj : j < body.length)
    (hok : s.answersOk (j + 1)) (hfail : s.port.answer (j + 1) = .fail) (hnever : s.port.answer (j + 2) = .never) :
    runGated command lock failure (.ok body) s = .fault (.portNeverAnswers (relockRequest lock)) := by
  obtain ⟨u, hbody, -, -, hport, -⟩ :=
    requestAll_under_fail (unlocked_locked s lock) hunder hj (unlocked_answersOk hok) (by rw [unlocked_answer, hfail])
  refine runGated_relock_never hl (hok 0 (by omega)) hbody ?_
  rw [hport, PortScript.answer_after, unlocked_answer]
  exact hnever

theorem advance_working_never {c : Byte} {lock : Lock} {failure : ErrorCode} {r : PortRequest} {rs : List PortRequest}
    {s : State} (hready : portReady s r = true) (hnever : s.port.head = .never) :
    advance (.working c lock failure (r :: rs)) s = .fault (.portNeverAnswers r) := by
  rw [advance, tick, request_never hready hnever]

theorem advance_relocking_never {c : Byte} {lock : Lock} {o : ArmOutcome} {s : State} (hnever : s.port.head = .never) :
    advance (.relocking c lock o) s = .fault (.portNeverAnswers (relockRequest lock)) := by
  rw [advance, tick, request_never (portReady_relock s lock) hnever]

/-- A precondition is about the locks only. -/
theorem portReady_stepped_stand (s : State) (p : Option Point) (r : PortRequest) :
    portReady (s.stepped.stand p) r = portReady s r := by
  cases r <;> rfl

/-- Settles O46: the command stops at the request, and so does the step at its point. -/
theorem unansweredRequestIsStuck : Obligations.UnansweredRequestIsStuck := by
  refine ⟨fun i s lock body hop hl => ?_, fun s c lock failure r rs o hr hp hnever => ⟨fun hpoint hready => ?_,
    fun hpoint => ?_⟩⟩
  · obtain ⟨hunder, failure, hexec⟩ := operation_runGated hop
    rw [hexec]
    exact ⟨fun j r hr hok hnever => runGated_unanswered hl hunder hr hok hnever,
      fun j hj hok hfail hnever => runGated_unanswered_relock hl hunder hj hok hfail hnever⟩
  · rw [step_at hr hp hpoint]
    exact advance_working_never (by rw [portReady_stepped_stand, hready]) hnever
  · rw [step_at hr hp hpoint]
    exact advance_relocking_never hnever

/-- Settles O47: an operation that does not halt closes its lock again and leaves the other; a reset closes both. -/
theorem locksAreClosedOnReturn : Obligations.LocksAreClosedOnReturn := by
  intro i s t hf ho h hp
  rcases exec_next_inv h with ⟨d, o, rfl, -, -⟩ | ⟨lock, failure, body, hallowed, -, ⟨o, u, hu, rfl⟩ | hu⟩
  · exact ⟨(State.respond_flashLocked ..).trans hf, (State.respond_optLocked ..).trans ho⟩
  · rw [State.respond_flashLocked, State.respond_optLocked]
    obtain ⟨hl, ⟨-, rfl⟩ | ⟨ok, v, hbody, ⟨rfl, -⟩ | ⟨-, rfl⟩⟩⟩ := withUnlocked_finished hu
    · exact ⟨hf, ho⟩
    · exact absurd rfl (hp .relockFailed)
    · obtain ⟨hvf, hvo⟩ := requestAll_locks hallowed.isWork hbody
      cases lock
      · exact ⟨rfl, hvo.trans ho⟩
      · exact ⟨hvf.trans hf, rfl⟩
  · obtain ⟨v, e, -, rfl⟩ := withUnlocked_sameOutside.2 t hu
    exact ⟨rfl, rfl⟩

end Sys2Proof.Machine

/-! ### Frames (spec/42_flash.md, spec/44_commands.md) -/

namespace Sys2Proof.Machine

/-- The requests of a command and of its lock work only on the addresses the command stores to. -/
theorem AllowedBody.untouched {i : Instr} {lock : Lock} {body : List PortRequest} (h : AllowedBody i lock body)
    {r : PortRequest} (hr : r ∈ body ∨ r = unlockRequest lock ∨ r = relockRequest lock) {a : Nat}
    (ha : ¬ storesTo i a) : ¬ r.touches a := by
  rcases hr with hr | rfl | rfl
  · exact fun ht => ha (h.touches hr ht)
  · exact (lock_untouched lock a).1
  · exact (lock_untouched lock a).2

/-- Settles O48: every request of an operation leaves the address, so the operation does. -/
theorem flashFrame : Obligations.FlashFrame := by
  intro i s t a h ha
  rcases exec_next_inv h with ⟨d, o, rfl, -, -⟩ | ⟨lock, failure, body, hallowed, -, hend⟩
  · rw [State.respond_flash, State.drawn_flash]
  have hind := withUnlocked_induct (fun u => Memory.read u.flash a = Memory.read s.flash a) (lock := lock)
    (failure := failure) (body := body) (s := s)
    (fun r hr u hu _ => (onOk_untouched _ (hallowed.untouched hr ha)).trans hu)
    (fun r hr u hu _ => (onFail_untouched _ (hallowed.untouched hr ha)).trans hu) rfl
  rcases hend with ⟨o, u, hu, rfl⟩ | hu
  · rw [State.respond_flash]
    exact hind.1 o u hu
  · obtain ⟨v, e, hv, rfl⟩ := hind.2 t hu
    exact hv

/-- Settles O49: such a command answers at once, and its response leaves the registers. -/
theorem queryAndJumpFrame : Obligations.QueryAndJumpFrame := by
  intro i s t hflash hprot h
  rcases exec_next_inv h with ⟨d, o, rfl, -, hd⟩ | ⟨lock, failure, body, hallowed, -, -⟩
  · simp only [State.respond_flash, State.respond_prot, State.respond_flashLocked, State.respond_optLocked,
      State.respond_len, State.respond_rxcount, State.respond_rxbuf, State.respond_crc, State.respond_rx,
      State.respond_port, State.respond_resetIn, State.respond_point, State.respond_requests, State.respond_draws]
    exact ⟨rfl, rfl, rfl, rfl, rfl, rfl, rfl, rfl, rfl, rfl, rfl, rfl, rfl, fun hi => by rw [hd hi]; rfl⟩
  · rcases hallowed.changes with ⟨-, hchanges, -⟩ | ⟨-, hchanges, -⟩
    · rw [hflash] at hchanges
      cases hchanges
    · rw [hprot] at hchanges
      cases hchanges

/-- Unless a reset cuts it short, no command changes the receive path, the accumulator, the resets to come or the
point. -/
theorem exec_outside {i : Instr} {s t : State} (hn : s.noResetDuringRequest) (h : exec i s = .next t) :
    t.len = s.len ∧ t.rxcount = s.rxcount ∧ t.rxbuf = s.rxbuf ∧ t.crc = s.crc ∧ t.rx = s.rx ∧
      t.resetIn = s.resetIn ∧ t.point = s.point := by
  rcases exec_next_inv h with ⟨d, o, rfl, -, -⟩ | ⟨lock, failure, body, -, -, ⟨o, u, hu, rfl⟩ | hu⟩
  · exact respond_outside _ _ _
  · obtain ⟨hlen, hcount, hbuf, hcrc, hrx, hreset, hpoint⟩ := respond_outside u i.code o
    have hsame := withUnlocked_sameOutside.1 o u hu
    exact ⟨hlen.trans hsame.len, hcount.trans hsame.rxcount, hbuf.trans hsame.rxbuf, hcrc.trans hsame.crc,
      hrx.trans hsame.rx, hreset.trans hsame.resetIn, hpoint.trans hsame.point⟩
  · exact absurd hu (withUnlocked_no_reset hn)

/-- Unless a reset cuts it short, a command that makes no request under a lock leaves it. -/
theorem exec_other_lock {i : Instr} {s t : State} (hn : s.noResetDuringRequest) (h : exec i s = .next t) :
    (changesProtection i = false → t.optLocked = s.optLocked) ∧
      (changesFlash i = false → t.flashLocked = s.flashLocked) := by
  rcases exec_next_inv h with ⟨d, o, rfl, -, -⟩ | ⟨lock, failure, body, hallowed, -, ⟨o, u, hu, rfl⟩ | hu⟩
  · exact ⟨fun _ => State.respond_optLocked .., fun _ => State.respond_flashLocked ..⟩
  · rw [State.respond_optLocked, State.respond_flashLocked]
    rcases hallowed.changes with ⟨rfl, hchanges, -, hwork⟩ | ⟨rfl, hchanges, -, m, md, rfl⟩
    · exact ⟨fun _ => ((withUnlocked_prot hwork).1 o u hu).2, fun h => by rw [hchanges] at h; cases h⟩
    · exact ⟨fun h => by (rw [hchanges] at h; cases h), fun _ => (withUnlocked_flash.1 o u hu).2⟩
  · exact absurd hu (withUnlocked_no_reset hn)

theorem changesProtection_of_changesFlash {i : Instr} (h : changesFlash i = true) : changesProtection i = false := by
  cases i <;> first
    | rfl
    | cases h

theorem changesFlash_of_changesProtection {i : Instr} (h : changesProtection i = true) : changesFlash i = false := by
  cases i <;> first
    | rfl
    | cases h

/-- Settles O50: a flash command changes no protection, and its frame is that of every command. -/
theorem flashCommandFrame : Obligations.FlashCommandFrame := by
  intro i s t hi h
  have hprot := changesProtection_of_changesFlash hi
  exact ⟨(exec_changes h).2 hprot, fun hn => ⟨(exec_other_lock hn h).1 hprot, exec_outside hn h⟩⟩

/-- Settles O51: a protection command changes no flash, and its frame is that of every command. -/
theorem protectionCommandFrame : Obligations.ProtectionCommandFrame := by
  intro i s t hi h
  have hflash := changesFlash_of_changesProtection hi
  exact ⟨(exec_changes h).1 hflash, fun hn => ⟨(exec_other_lock hn h).2 hflash, exec_outside hn h⟩⟩

/-- No outcome of an operation past its gate records a validation error. -/
theorem respond_not_validation {s : State} {c : Byte} {o : ArmOutcome} {e : ErrorCode}
    (ho : o = .fatal .relockFailed ∨ o = .ok [] ∨ ∃ e, o = .operationFailure e ∧ errorKind e = .operationFailure)
    (h : (s.respond c o).lastError = some e) : errorKind e ≠ .validation := by
  rcases ho with rfl | rfl | ⟨e', rfl, he'⟩
  · cases h
    nofun
  · cases h
  · cases h
    rw [he']
    nofun

/-- Settles O52: an operation past its gate ends in no validation error, so the command answered at once. -/
theorem validationErrorTakesNoAction : Obligations.ValidationErrorTakesNoAction := by
  intro i s t e h he hkind
  rcases exec_next_inv h with ⟨d, o, rfl, ho, -⟩ | ⟨lock, failure, body, -, hf, ⟨o, u, hu, rfl⟩ | hu⟩
  · rcases ho with ⟨e', rfl, -⟩ | ⟨body, rfl⟩ | ⟨p, a, -, -, -, rfl⟩
    · exact ⟨rfl, rfl, rfl, rfl, rfl, rfl, rfl⟩
    · cases he
    · cases he
  · exact absurd hkind (respond_not_validation (finished_outcome hf hu) he)
  · obtain ⟨v, r, -, rfl⟩ := withUnlocked_sameOutside.2 t hu
    cases he

end Sys2Proof.Machine
